-- ==== Sys2Proof/Word.lean ====
section
/-! DEFINITION. The word types of the HTB core: every quantity is unsigned (spec 00 R8). -/

namespace Sys2Proof

/-- A register or command word: 64 bits (10 R13, 30 R60). -/
abbrev Word := BitVec 64

/-- A byte of a buffer, a symbol (00 R6, 20 R43). -/
abbrev Byte := BitVec 8

/-- An index into the node store, 9 bits (00 R6, 10 R26). -/
abbrev NodeIdx := BitVec 9

/-- A bit-string; the head is position 0, the first bit in stream order (00 R8). -/
abbrev Bits := List Bool

end Sys2Proof
end

