-- ==== Sys2Proof/Config.lean ====
section
/-! DEFINITION. What an implementation fixes (the parameters of 00 R7 that concern the core) and the one
source of free values (93, treatment "any value"). -/

namespace Sys2Proof

/-- The implementation parameters of 00 R7. Plain data, carried in the state and written by nothing, so that a claim
over all states holds for every instance (log 1). `MAGIC` is the host driver's alone (log 18). -/
structure Params where
  /-- capacity of `IBUF` in bytes -/
  ibufCap : Nat
  /-- capacity of `OBUF` in bytes -/
  obufCap : Nat
  /-- byte value of the placeholder leaf -/
  phSym : Byte
  /-- value of the register `ID` -/
  idValue : Word
  deriving DecidableEq, Repr

/-- The defaults of R7's table. DESIGN CHOICE (log 1): the spec fixes no value; unsafe if a claim rests on one. -/
def Params.default : Params where
  ibufCap := 4096
  obufCap := 4096
  phSym := 0x00
  idValue := 0x4855464600000001

/-- Names every item whose value the spec leaves unspecified (93 U1, U2, U3, U5, U6, U7, U10, U12). -/
inductive Unspecified where
  /-- the latched command word after an error completion (60 R188) -/
  | latched
  /-- the data register of this index after an error completion (60 R188) -/
  | reg (index : Nat)
  /-- the count of symbol `s` after an error completion -/
  | freq (s : Nat)
  /-- `nn` after an error completion -/
  | nodeCount
  /-- field `field` of node record `i` after an error completion -/
  | node (i field : Nat)
  /-- `hsize` after an error completion -/
  | heapSize
  /-- heap entry `i` after an error completion -/
  | heap (i : Nat)
  /-- the length of the code of symbol `s` after an error completion -/
  | codeLen (s : Nat)
  /-- the bits of the code of symbol `s` after an error completion -/
  | code (s : Nat)
  /-- `bw_acc` after an error completion -/
  | acc
  /-- field `field` of a node record at or above `nn` (10 R26) -/
  | spare (i field : Nat)
  /-- what a forbidden register read returns (45 R153) -/
  | portWord
  /-- what a forbidden buffer read returns (20 R42, 45 R153) -/
  | portByte
  /-- byte `a` of `IBUF` -/
  | ibuf (a : Nat)
  /-- byte `a` of `OBUF` -/
  | obuf (a : Nat)
  deriving DecidableEq, Repr

/-- The free values: what the `draw`-th draw gives for an unspecified item, in `w` bits. It has no body, so no proof
can see a value of it (log 5). -/
opaque Config.free (draw : Nat) (what : Unspecified) (w : Nat) : BitVec w

end Sys2Proof
end

