-- ==== Sys2Proof/Syntax.lean ====
section
/-! DEFINITION. The nineteen commands (30 R63), their formats (30 R61), the host registers by name (10 R13) and the
statements of the script language (30 R66, R67). -/

namespace Sys2Proof

/-- The four formats of 30 R61. -/
inductive Format where
  | n | s | b | x
  deriving DecidableEq, Repr

/-- The nineteen mnemonics of 30 R63. -/
inductive Mnemonic where
  | nop | sessionReset
  | ftClear | ftAcc | ftAccbuf | ftLoad | ftRead
  | tbBuild | ndRead
  | ctDerive | ctRead
  | bwReset | bwPut | bwPutsym | bwFlush | brReset | brGet
  | encRun | decRun
  deriving DecidableEq, Repr

/-- The commands with their operands, one constructor per row of spec/opcode_table.json. -/
inductive Instr where
  | nop
  | sessionReset
  | ftClear
  | ftAcc (sym : Byte)
  | ftAccbuf
  | ftLoad (sym : Byte)
  | ftRead (sym : Byte)
  | tbBuild
  | ndRead (idx : NodeIdx)
  | ctDerive
  | ctRead (sym : Byte)
  | bwReset
  | bwPut (bit : Bool)
  | bwPutsym (sym : Byte)
  | bwFlush
  | brReset
  | brGet
  | encRun
  | decRun
  deriving DecidableEq, Repr

/-- The format column of 30 R63. -/
def Mnemonic.format : Mnemonic → Format
  | .ftAcc | .ftLoad | .ftRead | .ctRead | .bwPutsym => .s
  | .bwPut => .b
  | .ndRead => .x
  | .nop | .sessionReset | .ftClear | .ftAccbuf | .tbBuild | .ctDerive | .bwReset | .bwFlush | .brReset | .brGet
  | .encRun | .decRun => .n

/-- Which row a command belongs to. -/
def Instr.mnemonic : Instr → Mnemonic
  | .nop => .nop
  | .sessionReset => .sessionReset
  | .ftClear => .ftClear
  | .ftAcc _ => .ftAcc
  | .ftAccbuf => .ftAccbuf
  | .ftLoad _ => .ftLoad
  | .ftRead _ => .ftRead
  | .tbBuild => .tbBuild
  | .ndRead _ => .ndRead
  | .ctDerive => .ctDerive
  | .ctRead _ => .ctRead
  | .bwReset => .bwReset
  | .bwPut _ => .bwPut
  | .bwPutsym _ => .bwPutsym
  | .bwFlush => .bwFlush
  | .brReset => .brReset
  | .brGet => .brGet
  | .encRun => .encRun
  | .decRun => .decRun

/-- The operand of a command as a number, 0 where the format has none (30 R62). -/
def Instr.operand : Instr → Nat
  | .ftAcc sym | .ftLoad sym | .ftRead sym | .ctRead sym | .bwPutsym sym => sym.toNat
  | .ndRead idx => idx.toNat
  | .bwPut bit => bit.toNat
  | .nop | .sessionReset | .ftClear | .ftAccbuf | .tbBuild | .ctDerive | .bwReset | .bwFlush | .brReset | .brGet
  | .encRun | .decRun => 0

/-- The host registers of 10 R13. -/
inductive RegName where
  | id | cmd | status | errcode | errinfo | irqEn
  | inLen | origSize | totalBits | fdata
  | outLen | bwBits | brPos | bitval | nsym | nnodes | root | nodeInfo | nodeFreq
  | clen | cbits0 | cbits1 | cbits2 | cbits3
  deriving DecidableEq, Repr

/-- The two buffers behind the buffer port (45 R157, `buf_id`). -/
inductive BufId where
  | ibuf | obuf
  deriving DecidableEq, Repr

/-- The statements of the script language (30 R66) and its three macros (30 R67), operands as the numbers a script
writes. -/
inductive Stmt where
  /-- `WR <reg>, <value>` -/
  | wr (reg : RegName) (value : Nat)
  /-- `RD <reg>` -/
  | rd (reg : RegName)
  /-- `IB <addr>, <byte>` -/
  | ib (addr byte : Nat)
  /-- `IBS <addr>, <b0> <b1> ...` -/
  | ibs (addr : Nat) (bytes : List Nat)
  /-- `OB? <addr>` -/
  | ob (addr : Nat)
  /-- `<MNEMONIC> [operand]` -/
  | cmd (m : Mnemonic) (operand : Option Nat)
  /-- `WAIT` -/
  | wait
  /-- macro `LOAD_INPUT b0 b1 ...` -/
  | loadInput (bytes : List Nat)
  /-- macro `ENCODE` -/
  | encode
  /-- macro `DECODE` -/
  | decode
  deriving DecidableEq, Repr

end Sys2Proof
end

