-- ==== Sys2Proof/Machine/State.lean ====
section
/-! DEFINITION. The state of the core (10 R10), as plain data, and its reset value (70 R201). -/

namespace Sys2Proof.Machine

/-- A table indexed by byte value (00 R6). -/
abbrev Table (α : Type) := Vector α 256

/-- A node record (10 R26). `sym` matters for a leaf, `left` and `right` for an internal node. -/
structure Node where
  isLeaf : Bool
  ph : Bool
  sym : Byte
  freq : Word
  left : NodeIdx
  right : NodeIdx
  deriving DecidableEq, Repr

/-- A byte memory (20 R40, R41). `cells` lists the bytes whose value is known, addresses strictly rising; any other
byte is unspecified and reads as a free value. `epochs` says which draw that free value comes from: the first entry
`(start, draw)` with `start ≤ address` (log 6). -/
structure Memory where
  cells : List Host.Cell
  epochs : List (Nat × Nat)
  deriving DecidableEq, Repr

/-- A memory all of whose bytes are unspecified, drawn at `draw` (70 R201, 60 R188). -/
def Memory.unspecified (draw : Nat) : Memory := { cells := [], epochs := [(0, draw)] }

/-- The bits of `STATUS` (10 R17). -/
structure Status where
  busy : Bool
  done : Bool
  err : Bool
  ovr : Bool
  treeValid : Bool
  treeEmpty : Bool
  codesValid : Bool
  bwFlushed : Bool
  decShort : Bool
  deriving DecidableEq, Repr

/-- The stored data registers (10 R20 to R27). `NSYM` and `NNODES` are computed (10 R22, R23). -/
structure DataRegs where
  inLen : Word
  origSize : Word
  totalBits : Word
  fdata : Word
  outLen : Word
  bwBits : Word
  brPos : Word
  bitval : BitVec 1
  root : NodeIdx
  nodeInfo : BitVec 28
  nodeFreq : Word
  clen : BitVec 8
  cbits0 : Word
  cbits1 : Word
  cbits2 : Word
  cbits3 : Word
  deriving DecidableEq, Repr

/-- What the host can do to the core (45 R156, 70 R200), and its waiting. -/
inductive HostAccess where
  /-- write a register through the register port -/
  | regWrite (idx : BitVec 8) (v : Word)
  /-- read a register through the register port -/
  | regRead (idx : BitVec 8)
  /-- write a byte through the buffer port -/
  | bufWrite (id : BufId) (a : Word) (v : Byte)
  /-- read a byte through the buffer port -/
  | bufRead (id : BufId) (a : Word)
  /-- do nothing until `BUSY` = 0 (30 R66 `WAIT`) -/
  | wait
  /-- drive the level of `rst_n`: false low, true high (45 R157, 70 R200) -/
  | rstN (level : Bool)
  deriving DecidableEq, Repr

/-- The state of the core (10 R10), with the model's own fields last. -/
structure State where
  /-- the parameters of this instance (00 R7); written by nothing -/
  params : Params
  /-- the latched command word (10 R16) -/
  cmd : Word
  status : Status
  errcode : Byte
  errinfo : Word
  irqEn : BitVec 2
  regs : DataRegs
  /-- the frequency table (10 R25) -/
  freq : Table Word
  /-- `node[0 .. nn-1]`; `nn` is its length (10 R26, log 8) -/
  node : List Node
  /-- `heap[0 .. hsize-1]`; `hsize` is its length (10 R28, log 8) -/
  heap : List NodeIdx
  /-- the code table; `clen` is a code's length (10 R27, log 9) -/
  code : Table Bits
  /-- the writer's accumulator `bw_acc` (10 R29) -/
  bwAcc : Byte
  ibuf : Memory
  obuf : Memory
  /-- MODEL: the value last put on `reg_rdata` (45 R157, log 11) -/
  regRdata : Word
  /-- MODEL: the value last put on `buf_rdata` (45 R157, log 11) -/
  bufRdata : Byte
  /-- PORT: the level the host drives on `rst_n`; false holds the core in reset (45 R157, 70 R200, log 16) -/
  rstN : Bool
  /-- MODEL: the accesses the host has still to make, first one first (log 2) -/
  host : List HostAccess
  /-- MODEL: how many free values have been drawn (log 5) -/
  draws : Nat
  deriving DecidableEq, Repr

/-- Why the machine could stop. The spec gives the core no behaviour that stops it: every command terminates (70 R213)
and every error is a completion (60 R188). So there is no fault. -/
inductive Fault
  deriving DecidableEq, Repr

/-- Why a command has no meaning. -/
inductive Refusal where
  /-- Raised by exec's arm of a command whose meaning is not written yet; safe. No arm raises it now. -/
  | notModelled (mnemonic : String)
  deriving DecidableEq, Repr

/-- Every flag 0 (70 R201). -/
def Status.reset : Status where
  busy := false
  done := false
  err := false
  ovr := false
  treeValid := false
  treeEmpty := false
  codesValid := false
  bwFlushed := false
  decShort := false

/-- Every data register 0 (70 R201). -/
def DataRegs.reset : DataRegs where
  inLen := 0
  origSize := 0
  totalBits := 0
  fdata := 0
  outLen := 0
  bwBits := 0
  brPos := 0
  bitval := 0
  root := 0
  nodeInfo := 0
  nodeFreq := 0
  clen := 0
  cbits0 := 0
  cbits1 := 0
  cbits2 := 0
  cbits3 := 0

/-- The reset state of an instance with parameters `p` (70 R201). -/
def State.resetFor (p : Params) : State where
  params := p
  cmd := 0
  status := .reset
  errcode := 0
  errinfo := 0
  irqEn := 0
  regs := .reset
  freq := Vector.replicate 256 0
  node := []
  heap := []
  code := Vector.replicate 256 []
  bwAcc := 0
  ibuf := .unspecified 0
  obuf := .unspecified 0
  regRdata := 0
  bufRdata := 0
  rstN := true
  host := []
  draws := 1

/-- The machine right after reset, with R7's default parameters (70 R201, log 1). -/
def State.reset : State := State.resetFor Params.default

end Sys2Proof.Machine
end

