-- ==== Sys2Proof/Machine/Ops.lean ====
section
/-! DEFINITION. The named operations: byte memories (20 R40 to R45), symbol tables, loops, normal completion (45 R150)
and error completion (60 R188), and the way out of it. -/

namespace Sys2Proof.Machine

/-! ## Byte memories -/

/-- The canonical form: addresses strictly rising, epoch starts strictly falling. An unlisted address holds no known
value, so no listed entry can equal what an unlisted address reads as (log 6). -/
abbrev Memory.wf (m : Memory) : Prop :=
  m.cells.Pairwise (fun p q => p.1 < q.1) ∧ m.epochs.Pairwise (fun p q => q.1 < p.1)

/-- The listed byte at an address. -/
def cellAt : List Host.Cell → Nat → Option Byte
  | [], _ => none
  | (b, w) :: rest, a => if a = b then some w else cellAt rest a

/-- List a byte at an address, keeping the addresses strictly rising. -/
def setCell : List Host.Cell → Nat → Byte → List Host.Cell
  | [], a, v => [(a, v)]
  | (b, w) :: rest, a, v =>
    if a < b then (a, v) :: (b, w) :: rest
    else if a = b then (a, v) :: rest
    else (b, w) :: setCell rest a v

/-- Which draw the unspecified byte at an address comes from. -/
def epochAt : List (Nat × Nat) → Nat → Nat
  | [], _ => 0
  | (start, draw) :: rest, a => if start ≤ a then draw else epochAt rest a

/-- The name of a buffer's byte among the unspecified items. -/
def byteItem : BufId → Nat → Unspecified
  | .ibuf, a => .ibuf a
  | .obuf, a => .obuf a

/-- `MemRead(buf, a, 1)` (00 R9, 20 R43): no side effect, and repeated reads agree. -/
def Memory.read (id : BufId) (m : Memory) (a : Nat) : Byte :=
  match cellAt m.cells a with
  | some v => v
  | none => Config.free (epochAt m.epochs a) (byteItem id a) 8

/-- `MemWrite(buf, a, 1, v)` (00 R9, 20 R43). -/
def Memory.write (m : Memory) (a : Nat) (v : Byte) : Memory := { m with cells := setCell m.cells a v }

/-- From address `start` up every byte becomes unspecified, drawn at `draw` (20 R41, log 7). -/
def Memory.forgetFrom (m : Memory) (start draw : Nat) : Memory where
  cells := m.cells.filter (fun p => decide (p.1 < start))
  epochs := (start, draw) :: m.epochs.filter (fun p => decide (p.1 < start))

/-- The buffer behind the buffer port (45 R157). -/
def State.buf (s : State) : BufId → Memory
  | .ibuf => s.ibuf
  | .obuf => s.obuf

/-- Its capacity (20 R40, R41). -/
def State.cap (s : State) : BufId → Nat
  | .ibuf => s.params.ibufCap
  | .obuf => s.params.obufCap

/-! ## Symbol tables -/

/-- `a[s]` of a table indexed by byte value. -/
def Table.get {α : Type} (t : Table α) (s : Byte) : α := t[s.toNat]'s.isLt

/-- `a[s] <- v`. -/
def Table.put {α : Type} (t : Table α) (s : Byte) (v : α) : Table α := t.set s.toNat v s.isLt

/-- The byte values in ascending order, `for s = 0 to 255`. -/
def allSyms : List Byte := (List.range 256).map (BitVec.ofNat 8)

/-! ## Errors -/

/-- The error codes of 60 R181 that a command can raise. -/
inductive ErrCode where
  | illegalCmd | seq | ibufRange | obufFull | cntOvf | freqOvf | brEnd | nodeRange
  deriving DecidableEq, Repr

/-- The code column of 60 R181. -/
def ErrCode.code : ErrCode → Byte
  | .illegalCmd => 0x01
  | .seq => 0x02
  | .ibufRange => 0x03
  | .obufFull => 0x04
  | .cntOvf => 0x05
  | .freqOvf => 0x06
  | .brEnd => 0x07
  | .nodeRange => 0x08

/-- `raise E_x(info)` (00 R9). -/
structure Raise where
  code : ErrCode
  info : Word
  deriving DecidableEq, Repr

/-- The flags of an error completion (60 R188). `OVR` keeps its value. -/
def Status.failed (f : Status) : Status :=
  { f with busy := false, done := true, err := true, treeValid := false, treeEmpty := false, codesValid := false,
           bwFlushed := false, decShort := false }

/-- Every stored data register unspecified (60 R188), each under its index of 10 R13. -/
def DataRegs.unspecified (n : Nat) : DataRegs where
  inLen := Config.free n (.reg 0x08) 64
  origSize := Config.free n (.reg 0x09) 64
  totalBits := Config.free n (.reg 0x0A) 64
  fdata := Config.free n (.reg 0x0B) 64
  outLen := Config.free n (.reg 0x10) 64
  bwBits := Config.free n (.reg 0x11) 64
  brPos := Config.free n (.reg 0x12) 64
  bitval := Config.free n (.reg 0x13) 1
  root := Config.free n (.reg 0x16) 9
  nodeInfo := Config.free n (.reg 0x17) 28
  nodeFreq := Config.free n (.reg 0x18) 64
  clen := Config.free n (.reg 0x19) 8
  cbits0 := Config.free n (.reg 0x1A) 64
  cbits1 := Config.free n (.reg 0x1B) 64
  cbits2 := Config.free n (.reg 0x1C) 64
  cbits3 := Config.free n (.reg 0x1D) 64

/-- A node record of unspecified fields, named by `item`. -/
def Node.unspecified (n : Nat) (item : Nat → Unspecified) : Node where
  isLeaf := (Config.free n (item 0) 1).getLsbD 0
  ph := (Config.free n (item 1) 1).getLsbD 0
  sym := Config.free n (item 2) 8
  freq := Config.free n (item 3) 64
  left := Config.free n (item 4) 9
  right := Config.free n (item 5) 9

/-- Unspecified counts (60 R188). -/
def unspecifiedFreq (n : Nat) : Table Word := Vector.ofFn (fun s => Config.free n (.freq s.val) 64)

/-- An unspecified number of unspecified node records, `nn` in 9 bits (60 R188, 10 R26). -/
def unspecifiedNodes (n : Nat) : List Node :=
  (List.range (Config.free n .nodeCount 9).toNat).map (fun i => Node.unspecified n (Unspecified.node i))

/-- An unspecified number, 0 to 256, of unspecified heap entries (60 R188, 10 R28). -/
def unspecifiedHeap (n : Nat) : List NodeIdx :=
  (List.range ((Config.free n .heapSize 9).toNat % 257)).map (fun i => Config.free n (.heap i) 9)

/-- Unspecified codes of unspecified lengths, each at most 255 bits (60 R188, 10 R27). -/
def unspecifiedCodes (n : Nat) : Table Bits :=
  Vector.ofFn (fun s =>
    (List.range (Config.free n (.codeLen s.val) 8).toNat).map
      (fun i => (Config.free n (.code s.val) 255).getLsbD i))

/-- Everything 60 R188 calls unspecified, drawn afresh: every piece of state of 10 R10, the latched word among them, but
the registers R188 defines and `IBUF`, `IRQ_EN`, `ID`, which keep their values (93 U1, log 4). -/
def State.unspecify (s : State) : State :=
  { s with
    cmd := Config.free s.draws .latched 64
    regs := .unspecified s.draws
    freq := unspecifiedFreq s.draws
    node := unspecifiedNodes s.draws
    heap := unspecifiedHeap s.draws
    code := unspecifiedCodes s.draws
    bwAcc := Config.free s.draws .acc 8
    obuf := .unspecified s.draws
    draws := s.draws + 1 }

/-- TAKING AN EXCEPTION: the error completion of 60 R188. -/
def errorCompletion (r : Raise) (s : State) : State :=
  { s.unspecify with status := s.status.failed, errcode := r.code.code, errinfo := r.info }

/-- THE RETURN FROM IT: every piece of state to its reset value, except `IRQ_EN` and the buffers' contents (45 R155,
70 R202, 60 R193). The host's side, `rst_n` among it, and the draw counter are not the core's state and go on. -/
def sessionReset (s : State) : State :=
  { State.resetFor s.params with
    irqEn := s.irqEn
    ibuf := s.ibuf
    obuf := s.obuf
    regRdata := s.regRdata
    bufRdata := s.bufRdata
    rstN := s.rstN
    host := s.host
    draws := s.draws }

/-- `rst_n` goes low (70 R200, R201): the reset state, both buffers unspecified, whatever was running abandoned. -/
def hardReset (s : State) : State :=
  { State.resetFor s.params with
    ibuf := .unspecified s.draws
    obuf := .unspecified s.draws
    regRdata := s.regRdata
    bufRdata := s.bufRdata
    rstN := false
    host := s.host
    draws := s.draws + 1 }

/-- The normal complete event's handshake: `BUSY <- 0 ; DONE <- 1` (45 R150). -/
def complete (s : State) : State := { s with status := { s.status with busy := false, done := true } }

/-- The complete event of a command performed on `s`: its pseudocode ended normally or in a `raise` (45 R150, 60 R188).
After a `raise` nothing of the pseudocode's partial effects is left that is not unspecified. -/
def finish (s : State) : Except Raise State → Host.Outcome State Fault Refusal
  | .ok t => .next (complete t)
  | .error r => .next (errorCompletion r s)

/-! ## Checks and loops -/

/-- `requires F`: `if F = 0 then raise E_SEQ(cmd)` (00 R9). -/
def requires (flag : Bool) (body : State → Except Raise State) (s : State) : Except Raise State :=
  if flag then body s else .error { code := .seq, info := s.cmd }

/-- `for i = first to first + count - 1: body`, stopping at the first `raise`. -/
def forUp {σ : Type} (body : Nat → σ → Except Raise σ) : Nat → Nat → σ → Except Raise σ
  | 0, _, s => .ok s
  | count + 1, first, s =>
    match body first s with
    | .error r => .error r
    | .ok t => forUp body count (first + 1) t

/-- `ibuf_get(i)` (20 R44). -/
def ibufGet (i : Word) (s : State) : Except Raise Byte :=
  if s.regs.inLen.toNat ≤ i.toNat ∨ s.params.ibufCap ≤ i.toNat then .error { code := .ibufRange, info := i }
  else .ok (s.ibuf.read .ibuf i.toNat)

/-- `obuf_put(i, v)` (20 R45). -/
def obufPut (i : Word) (v : Byte) (s : State) : Except Raise State :=
  if s.params.obufCap ≤ i.toNat then .error { code := .obufFull, info := i }
  else .ok { s with obuf := s.obuf.write i.toNat v }

/-- The bytes of `OBUF` at and above `OUT_LEN` become unspecified, after a flush or a `DEC_RUN` (20 R41, log 7). -/
def forgetAboveOutLen (s : State) : State :=
  { s with obuf := s.obuf.forgetFrom s.regs.outLen.toNat s.draws, draws := s.draws + 1 }

end Sys2Proof.Machine
end

