-- ==== Sys2Proof/Machine/Flags.lean ====
section
/-! DEFINITION. The flags of `STATUS` (10 R17, R32) and the interrupt output (60 R192). -/

namespace Sys2Proof.Machine

/-- `STATUS` as read: nine bits, bit 0 `BUSY` to bit 8 `DEC_SHORT` (10 R17). -/
def Status.bits (f : Status) : BitVec 9 :=
  BitVec.ofBool f.decShort ++ BitVec.ofBool f.bwFlushed ++ BitVec.ofBool f.codesValid ++ BitVec.ofBool f.treeEmpty ++
    BitVec.ofBool f.treeValid ++ BitVec.ofBool f.ovr ++ BitVec.ofBool f.err ++ BitVec.ofBool f.done ++
    BitVec.ofBool f.busy

/-- A host write to `STATUS`: `DONE` and `OVR` are write-one-to-clear, the rest ignored (10 R17). -/
def Status.clearedBy (f : Status) (v : Word) : Status :=
  { f with done := f.done && !v.getLsbD 1, ovr := f.ovr && !v.getLsbD 3 }

/-- Any change of the frequency table makes tree and codes stale (10 R32, 70 R206). -/
def Status.tableChanged (f : Status) : Status := { f with treeValid := false, codesValid := false }

/-- Normal completion of `TB_BUILD` (10 R32, 41 R99). -/
def Status.treeBuilt (f : Status) (empty : Bool) : Status :=
  { f with treeValid := true, treeEmpty := empty, codesValid := false }

/-- The accept event's flags: `BUSY <- 1 ; DONE <- 0` (45 R150). -/
def Status.accepted (f : Status) : Status := { f with busy := true, done := false }

/-- `irq = (DONE & IRQ_EN[0]) | (ERR & IRQ_EN[1])` (60 R192). -/
def State.irq (s : State) : Bool := (s.status.done && s.irqEn.getLsbD 0) || (s.status.err && s.irqEn.getLsbD 1)

end Sys2Proof.Machine
end

