-- ==== Sys2Proof/Machine/Operands.lean ====
section
/-! DEFINITION. Every operand form of the commands: the counts, the node records, the codes, the bits of a byte, and
the values the read-out registers pack (10 R22 to R27, 20 R46, 00 R8). -/

namespace Sys2Proof.Machine

/-- `ceil8(n) = (n >> 3) + (1 if (n & 7) != 0 else 0)` (00 R8). -/
def ceil8 (n : Word) : Word := (n >>> 3) + (if n &&& 7 = 0 then 0 else 1)

/-- Bit position `7 - (p & 7)` of a byte, most significant bit first (20 R46). -/
def bitOfByte (v : Byte) (p : Word) : Bool := v.getLsbD (7 - (p &&& 7).toNat)

/-- The eight bits of a byte, most significant first (43 R125). -/
def byteBits (v : Byte) : Bits := (List.range 8).map (fun j => v.getLsbD (7 - j))

/-- `freq[s]`. -/
def State.freqOf (s : State) (sym : Byte) : Word := Table.get s.freq sym

/-- `NSYM`: the number of symbols `s` with `freq[s] > 0` (10 R22). -/
def distinctCount (f : Table Word) : Nat := allSyms.countP (fun s => Table.get f s != 0)

/-- `nn` (10 R23). -/
def State.nn (s : State) : Nat := s.node.length

/-- `hsize` (10 R28). -/
def State.hsize (s : State) : Nat := s.heap.length

/-- `node[i]`: a record in use, or an unspecified one at or above `nn` (10 R26). -/
def State.nodeAt (s : State) (i : NodeIdx) : Node :=
  match s.node[i.toNat]? with
  | some n => n
  | none => Node.unspecified s.draws (Unspecified.spare i.toNat)

/-- `code[s]`. -/
def State.codeOf (s : State) (sym : Byte) : Bits := Table.get s.code sym

/-- `clen[s]`, 0 for an absent entry (10 R27). -/
def State.clenOf (s : State) (sym : Byte) : BitVec 8 := BitVec.ofNat 8 (s.codeOf sym).length

/-- `cval`: the code as an unsigned integer, first bit most significant (10 R27). -/
def codeValue (c : Bits) : Nat := c.foldl (fun v b => 2 * v + b.toNat) 0

/-- The bits `BW_PUTSYM` appends: the code, or the raw byte for an absent entry (43 R125). -/
def State.symBits (s : State) (sym : Byte) : Bits := if s.codeOf sym = [] then byteBits sym else s.codeOf sym

/-- The layout of `NODE_INFO` (10 R24, 41 R104). -/
def Node.info (n : Node) : BitVec 28 :=
  if n.isLeaf then 1 ||| (BitVec.ofBool n.ph).setWidth 28 <<< 1 ||| n.sym.setWidth 28 <<< 2
  else n.left.setWidth 28 <<< 10 ||| n.right.setWidth 28 <<< 19

end Sys2Proof.Machine
end

