-- ==== Sys2Proof/Machine/Bitstream.lean ====
section
/-! DEFINITION. The bit writer and the bit reader (43 R120 to R130). -/

namespace Sys2Proof.Machine

/-- `bw_acc | (b << (7 - j))`, from 0 when `j = 0` (43 R122). -/
def accWith (acc : Byte) (j : Word) (b : Bool) : Byte :=
  (if j = 0 then 0 else acc) ||| ((BitVec.ofBool b).setWidth 8 <<< (7 - j.toNat))

/-- `bw_put(b)` (43 R122). The store of a full byte goes through `obuf_put` (20 R41, R45, log 14). That `bw_acc` keeps the
full byte until the next one starts, as R122's pseudocode leaves it, and is not 0, as R121's invariant would have it,
is the model's choice (log 25). -/
def bwPut (b : Bool) (s : State) : Except Raise State :=
  let i := s.regs.bwBits >>> 3
  let j := s.regs.bwBits &&& 7
  if s.status.bwFlushed then .error { code := .seq, info := s.cmd }
  else if j = 0 ∧ s.params.obufCap ≤ i.toNat then .error { code := .obufFull, info := i }
  else
    let t := { s with bwAcc := accWith s.bwAcc j b, regs := { s.regs with bwBits := s.regs.bwBits + 1 } }
    if j = 7 then obufPut i (accWith s.bwAcc j b) t else .ok t

/-- `bw_put` of each bit in order. -/
def bwPutAll : Bits → State → Except Raise State
  | [], s => .ok s
  | b :: rest, s =>
    match bwPut b s with
    | .error r => .error r
    | .ok t => bwPutAll rest t

/-- `bw_putsym(s)` (43 R125). -/
def bwPutsym (sym : Byte) (s : State) : Except Raise State := bwPutAll (s.symBits sym) s

/-- `bw_reset()` (43 R123). -/
def bwReset (s : State) : State :=
  { s with bwAcc := 0, regs := { s.regs with bwBits := 0, outLen := 0 },
           status := { s.status with bwFlushed := false } }

/-- The store of the pending partial byte at a flush (43 R126, log 14). -/
def storePartial (s : State) : Except Raise State :=
  if s.regs.bwBits &&& 7 = 0 then .ok s else obufPut (s.regs.bwBits >>> 3) s.bwAcc s

/-- `bw_flush()` (43 R126). Bytes at and above the new `OUT_LEN` become unspecified (20 R41, log 7). -/
def bwFlush (s : State) : Except Raise State :=
  if s.status.bwFlushed then .error { code := .seq, info := s.cmd }
  else
    match storePartial s with
    | .error r => .error r
    | .ok t =>
      .ok (forgetAboveOutLen
        { t with regs := { t.regs with outLen := ceil8 t.regs.bwBits }, status := { t.status with bwFlushed := true } })

/-- `br_get()` (43 R128): the bit and the state with the cursor moved. -/
def brGet (s : State) : Except Raise (Bool × State) :=
  if s.regs.totalBits ≤ s.regs.brPos then .error { code := .brEnd, info := s.regs.brPos }
  else
    match ibufGet (s.regs.brPos >>> 3) s with
    | .error r => .error r
    | .ok v => .ok (bitOfByte v s.regs.brPos, { s with regs := { s.regs with brPos := s.regs.brPos + 1 } })

/-- `BW_RESET` (43 R123). -/
def execBwReset (s : State) : Host.Outcome State Fault Refusal := finish s (.ok (bwReset s))

/-- `BW_PUT bit` (43 R124). -/
def execBwPut (bit : Bool) (s : State) : Host.Outcome State Fault Refusal := finish s (bwPut bit s)

/-- `BW_PUTSYM sym` (43 R125). -/
def execBwPutsym (sym : Byte) (s : State) : Host.Outcome State Fault Refusal :=
  finish s (requires s.status.codesValid (bwPutsym sym) s)

/-- `BW_FLUSH` (43 R126). -/
def execBwFlush (s : State) : Host.Outcome State Fault Refusal := finish s (bwFlush s)

/-- `BR_RESET` (43 R129). -/
def execBrReset (s : State) : Host.Outcome State Fault Refusal :=
  finish s (.ok { s with regs := { s.regs with brPos := 0, bitval := 0 } })

/-- `BITVAL <- br_get()` (43 R130). -/
def readBit (s : State) : Except Raise State :=
  match brGet s with
  | .error r => .error r
  | .ok (b, t) => .ok { t with regs := { t.regs with bitval := BitVec.ofBool b } }

/-- `BR_GET` (43 R130). -/
def execBrGet (s : State) : Host.Outcome State Fault Refusal := finish s (readBit s)

end Sys2Proof.Machine
end

