-- ==== Sys2Proof/Machine/CodeDeriver.lean ====
section
/-! DEFINITION. The code deriver (42 R110 to R115). -/

namespace Sys2Proof.Machine

/-- `walk(n, p)` (42 R114), left subtree first. `fuel` is the number of levels a path of at most 255 bits still has
(42 R113); it runs out only on a node store no `TB_BUILD` leaves (log 10). -/
def walk (nodeAt : NodeIdx → Node) : Nat → NodeIdx → Bits → Table Bits → Table Bits
  | 0, _, _, t => t
  | fuel + 1, n, p, t =>
    if (nodeAt n).isLeaf then
      if (nodeAt n).ph then t else Table.put t (nodeAt n).sym p
    else
      walk nodeAt fuel (nodeAt n).right (p ++ [true]) (walk nodeAt fuel (nodeAt n).left (p ++ [false]) t)

/-- The code table of the tree in the state: all entries cleared, then `walk(root, ε)` unless the tree is empty
(42 R112, R114). -/
def State.derivedCodes (s : State) : Table Bits :=
  if s.status.treeEmpty then Vector.replicate 256 []
  else walk s.nodeAt 256 s.regs.root [] (Vector.replicate 256 [])

/-- The body of `CT_DERIVE` (42 R114). -/
def deriveCodes (s : State) : Except Raise State :=
  .ok { s with code := s.derivedCodes, status := { s.status with codesValid := true } }

/-- `CT_DERIVE` (42 R114). -/
def execCtDerive (s : State) : Host.Outcome State Fault Refusal :=
  finish s (requires s.status.treeValid deriveCodes s)

/-- Copy a code to the read-out registers (42 R115). -/
def readCode (sym : Byte) (s : State) : Except Raise State :=
  let cval := BitVec.ofNat 256 (codeValue (s.codeOf sym))
  .ok { s with regs := { s.regs with clen := s.clenOf sym, cbits0 := cval.extractLsb' 0 64,
                                     cbits1 := cval.extractLsb' 64 64, cbits2 := cval.extractLsb' 128 64,
                                     cbits3 := cval.extractLsb' 192 64 } }

/-- `CT_READ sym` (42 R115). -/
def execCtRead (sym : Byte) (s : State) : Host.Outcome State Fault Refusal :=
  finish s (requires s.status.codesValid (readCode sym) s)

end Sys2Proof.Machine
end

