-- ==== Sys2Proof/Machine/Codec.lean ====
section
/-! DEFINITION. The encode loop (44 R136) and the tree-walk decoder (44 R138 to R144). -/

namespace Sys2Proof.Machine

/-- One iteration of `ENC_RUN`: `bw_putsym(ibuf_get(i))` (44 R136). -/
def encByte (i : Nat) (s : State) : Except Raise State :=
  match ibufGet (BitVec.ofNat 64 i) s with
  | .error r => .error r
  | .ok v => bwPutsym v s

/-- The body of `ENC_RUN` (44 R136). -/
def encRun (s : State) : Except Raise State :=
  if s.params.ibufCap < s.regs.inLen.toNat then .error { code := .ibufRange, info := s.regs.inLen }
  else
    match forUp encByte s.regs.inLen.toNat 0 (bwReset s) with
    | .error r => .error r
    | .ok t => bwFlush t

/-- `ENC_RUN` (44 R136). -/
def execEncRun (s : State) : Host.Outcome State Fault Refusal :=
  finish s (requires s.status.codesValid encRun s)

/-- The child a bit leads to: 0 left, 1 right (44 R138). -/
def Node.child (n : Node) (b : Bool) : NodeIdx := if b then n.right else n.left

/-- The loop of `DEC_RUN` with its locals `cur` and `produced` (44 R140). It takes at most `TOTAL_BITS` iterations, the
first `fuel`. -/
def decLoop : Nat → NodeIdx → Word → State → Except Raise (Word × State)
  | 0, _, produced, s => .ok (produced, s)
  | fuel + 1, cur, produced, s =>
    if produced < s.regs.origSize ∧ s.regs.brPos < s.regs.totalBits then
      match brGet s with
      | .error r => .error r
      | .ok (b, t) =>
        let next := (t.nodeAt cur).child b
        if (t.nodeAt next).isLeaf then
          match obufPut produced (t.nodeAt next).sym t with
          | .error r => .error r
          | .ok u => decLoop fuel u.regs.root (produced + 1) u
        else decLoop fuel next produced t
    else .ok (produced, s)

/-- The walk from the root, nothing when there is no tree (44 R140, R141). -/
def decWalk (s : State) : Except Raise (Word × State) :=
  if s.status.treeEmpty then .ok (0, s) else decLoop s.regs.totalBits.toNat s.regs.root 0 s

/-- `OUT_LEN <- produced ; if produced < ORIG_SIZE then DEC_SHORT <- 1` (44 R140). Bytes at and above `OUT_LEN` become
unspecified (20 R41, log 7). -/
def decDone (produced : Word) (s : State) : State :=
  forgetAboveOutLen
    { s with regs := { s.regs with outLen := produced },
             status := { s.status with decShort := decide (produced < s.regs.origSize) } }

/-- `br_pos <- 0 ; DEC_SHORT <- 0` (44 R140). -/
def decStart (s : State) : State :=
  { s with regs := { s.regs with brPos := 0 }, status := { s.status with decShort := false } }

/-- The body of `DEC_RUN` (44 R140). -/
def decRun (s : State) : Except Raise State :=
  if s.params.ibufCap < s.regs.inLen.toNat then .error { code := .ibufRange, info := s.regs.inLen }
  else if s.regs.inLen < ceil8 s.regs.totalBits then .error { code := .ibufRange, info := ceil8 s.regs.totalBits }
  else
    match decWalk (decStart s) with
    | .error r => .error r
    | .ok (produced, t) => .ok (decDone produced t)

/-- `DEC_RUN` (44 R140). -/
def execDecRun (s : State) : Host.Outcome State Fault Refusal :=
  finish s (requires s.status.treeValid decRun s)

end Sys2Proof.Machine
end

