-- ==== Sys2Proof/Machine/FreqTable.lean ====
section
/-! DEFINITION. The frequency table commands (40 R81 to R85). -/

namespace Sys2Proof.Machine

/-- `ft_acc(s)` (40 R82). -/
def ftAcc (sym : Byte) (s : State) : Except Raise State :=
  if s.freqOf sym = BitVec.allOnes 64 then .error { code := .cntOvf, info := sym.setWidth 64 }
  else .ok { s with freq := Table.put s.freq sym (s.freqOf sym + 1) }

/-- One iteration of `FT_ACCBUF`: `ft_acc(ibuf_get(i))` (40 R83). -/
def ftAccByte (i : Nat) (s : State) : Except Raise State :=
  match ibufGet (BitVec.ofNat 64 i) s with
  | .error r => .error r
  | .ok v => ftAcc v s

/-- The flags every change of the table clears (10 R32). -/
def tableChanged (s : State) : State := { s with status := s.status.tableChanged }

/-- `FT_CLEAR` (40 R81). -/
def execFtClear (s : State) : Host.Outcome State Fault Refusal :=
  finish s (.ok (tableChanged { s with freq := Vector.replicate 256 0 }))

/-- `FT_ACC sym` (40 R82). -/
def execFtAcc (sym : Byte) (s : State) : Host.Outcome State Fault Refusal :=
  finish s (ftAcc sym (tableChanged s))

/-- The body of `FT_ACCBUF` (40 R83). -/
def ftAccbuf (s : State) : Except Raise State :=
  if s.params.ibufCap < s.regs.inLen.toNat then .error { code := .ibufRange, info := s.regs.inLen }
  else forUp ftAccByte s.regs.inLen.toNat 0 (tableChanged s)

/-- `FT_ACCBUF` (40 R83). -/
def execFtAccbuf (s : State) : Host.Outcome State Fault Refusal := finish s (ftAccbuf s)

/-- `FT_LOAD sym` (40 R84). -/
def execFtLoad (sym : Byte) (s : State) : Host.Outcome State Fault Refusal :=
  finish s (.ok (tableChanged { s with freq := Table.put s.freq sym s.regs.fdata }))

/-- `FT_READ sym` (40 R85). -/
def execFtRead (sym : Byte) (s : State) : Host.Outcome State Fault Refusal :=
  finish s (.ok { s with regs := { s.regs with fdata := s.freqOf sym } })

end Sys2Proof.Machine
end

