-- ==== Sys2Proof/Machine/System.lean ====
section
/-! DEFINITION. The system commands (45 R154, R155). -/

namespace Sys2Proof.Machine

/-- `NOP` (45 R154). -/
def execNop (s : State) : Host.Outcome State Fault Refusal := finish s (.ok s)

/-- `SESSION_RESET` (45 R155). -/
def execSessionReset (s : State) : Host.Outcome State Fault Refusal := finish s (.ok (sessionReset s))

end Sys2Proof.Machine
end

