-- ==== Sys2Proof/Machine/Heap.lean ====
section
/-! DEFINITION. The min-heap: its key and the array operations `heap_push` and `heap_pop` (41 R91 to R95). The heap is
the list `heap[0 .. hsize-1]`. -/

namespace Sys2Proof.Machine

/-- `node[n].freq`. Every index in the heap is below `nn`, so the other case never arises (log 15). -/
def freqAt (node : List Node) (n : NodeIdx) : Word :=
  match node[n.toNat]? with
  | some r => r.freq
  | none => 0

/-- `key(a) < key(b)`, the pairs (frequency, index) compared lexicographically (41 R91). -/
def keyLt (node : List Node) (a b : NodeIdx) : Bool :=
  decide (freqAt node a < freqAt node b) || (freqAt node a == freqAt node b && decide (a < b))

/-- `heap[i]`. -/
def heapAt (h : List NodeIdx) (i : Nat) : NodeIdx := h.getD i 0

/-- `swap heap[i], heap[j]`. -/
def swapAt (h : List NodeIdx) (i j : Nat) : List NodeIdx := (h.set i (heapAt h j)).set j (heapAt h i)

/-- The loop of `heap_push`, at position `i`; `fuel` bounds the levels climbed (41 R93). -/
def siftUp (node : List Node) : Nat → List NodeIdx → Nat → List NodeIdx
  | 0, h, _ => h
  | fuel + 1, h, i =>
    if i = 0 then h
    else if keyLt node (heapAt h i) (heapAt h ((i - 1) / 2)) then
      siftUp node fuel (swapAt h i ((i - 1) / 2)) ((i - 1) / 2)
    else h

/-- `heap_push(n)` (41 R93). -/
def heapPush (node : List Node) (h : List NodeIdx) (n : NodeIdx) : List NodeIdx :=
  siftUp node h.length (h ++ [n]) h.length

/-- The position of least key among `i` and its children (41 R95). -/
def leastChild (node : List Node) (h : List NodeIdx) (i : Nat) : Nat :=
  let l := 2 * i + 1
  let g := 2 * i + 2
  let m := if l < h.length && keyLt node (heapAt h l) (heapAt h i) then l else i
  if g < h.length && keyLt node (heapAt h g) (heapAt h m) then g else m

/-- The loop of `heap_pop`, at position `i`; `fuel` bounds the levels descended (41 R95). -/
def siftDown (node : List Node) : Nat → List NodeIdx → Nat → List NodeIdx
  | 0, h, _ => h
  | fuel + 1, h, i =>
    if leastChild node h i = i then h
    else siftDown node fuel (swapAt h i (leastChild node h i)) (leastChild node h i)

/-- `heap_pop()`: the entry of least key and the heap without it; none for an empty heap, where the spec's
precondition fails (41 R95). -/
def heapPop (node : List Node) : List NodeIdx → Option (NodeIdx × List NodeIdx)
  | [] => none
  | r :: t =>
    if t = [] then some (r, [])
    else some (r, siftDown node t.length (((r :: t).set 0 (heapAt (r :: t) t.length)).take t.length) 0)

end Sys2Proof.Machine
end

