-- ==== Sys2Proof/Machine/TreeBuilder.lean ====
section
/-! DEFINITION. The tree builder (41 R94 to R100) and the node read-out (41 R104). -/

namespace Sys2Proof.Machine

/-- What the builder works on: the node store and the heap. -/
structure Build where
  node : List Node
  heap : List NodeIdx
  deriving DecidableEq, Repr

/-- What it yields: the node store, `root` and `TREE_EMPTY`. -/
structure Tree where
  node : List Node
  root : NodeIdx
  empty : Bool
  deriving DecidableEq, Repr

/-- A leaf record (41 R94). -/
def leafNode (sym : Byte) (freq : Word) : Node :=
  { isLeaf := true, ph := false, sym := sym, freq := freq, left := 0, right := 0 }

/-- The placeholder leaf (41 R97). -/
def placeholderNode (phSym : Byte) : Node :=
  { isLeaf := true, ph := true, sym := phSym, freq := 0, left := 0, right := 0 }

/-- An internal record (41 R96). -/
def internalNode (freq : Word) (left right : NodeIdx) : Node :=
  { isLeaf := false, ph := false, sym := 0, freq := freq, left := left, right := right }

/-- `node[nn] <- r ; heap_push(nn) ; nn <- nn + 1`. -/
def Build.add (b : Build) (r : Node) : Build where
  node := b.node ++ [r]
  heap := heapPush (b.node ++ [r]) b.heap (BitVec.ofNat 9 b.node.length)

/-- One symbol of the leaf enumeration (41 R94). -/
def addLeaf (freq : Table Word) (b : Build) (sym : Byte) : Build :=
  if Table.get freq sym = 0 then b else b.add (leafNode sym (Table.get freq sym))

/-- The leaf enumeration, ascending (41 R94). -/
def enumerateLeaves (freq : Table Word) : Build := allSyms.foldl (addLeaf freq) { node := [], heap := [] }

/-- One merge: pop `a`, pop `b`, add their parent (41 R96), or `E_FREQ_OVF` (41 R100). -/
def mergeOnce (b : Build) : Except Raise Build :=
  match heapPop b.node b.heap with
  | none => .ok b
  | some (x, h1) =>
    match heapPop b.node h1 with
    | none => .ok b
    | some (y, h2) =>
      if 2 ^ 64 ≤ (freqAt b.node x).toNat + (freqAt b.node y).toNat then
        .error { code := .freqOvf, info := BitVec.ofNat 64 b.node.length }
      else .ok (Build.add { b with heap := h2 } (internalNode (freqAt b.node x + freqAt b.node y) x y))

/-- `while hsize > 1`; every merge takes one entry away, so `fuel` = `hsize` suffices (41 R96). -/
def mergeAll : Nat → Build → Except Raise Build
  | 0, b => .ok b
  | fuel + 1, b =>
    if 1 < b.heap.length then
      match mergeOnce b with
      | .error r => .error r
      | .ok c => mergeAll fuel c
    else .ok b

/-- The final `root <- heap_pop()` (41 R99). -/
def popRoot (b : Build) : Tree :=
  match heapPop b.node b.heap with
  | none => { node := b.node, root := 0, empty := false }
  | some (r, _) => { node := b.node, root := r, empty := false }

/-- The body of `TB_BUILD`, a function of `freq` and `PH_SYM` alone (41 R99, R101). -/
def buildTree (phSym : Byte) (freq : Table Word) : Except Raise Tree :=
  let b := enumerateLeaves freq
  match b.node with
  | [] => .ok { node := [], root := 0, empty := true }
  | [leaf] => .ok { node := [leaf, placeholderNode phSym, internalNode leaf.freq 0 1], root := 2, empty := false }
  | _ :: _ :: _ =>
    match mergeAll b.heap.length b with
    | .error r => .error r
    | .ok c => .ok (popRoot c)

/-- The built tree in the state; `hsize` = 0 (10 R28, 41 R99). -/
def State.withTree (s : State) (t : Tree) : State :=
  { s with node := t.node, heap := [], regs := { s.regs with root := t.root }, status := s.status.treeBuilt t.empty }

/-- The body of `TB_BUILD` (41 R99). -/
def tbBuild (s : State) : Except Raise State :=
  match buildTree s.params.phSym s.freq with
  | .error r => .error r
  | .ok t => .ok (s.withTree t)

/-- `TB_BUILD` (41 R99). -/
def execTbBuild (s : State) : Host.Outcome State Fault Refusal := finish s (tbBuild s)

/-- Copy a node record to the read-out registers, or `E_NODE_RANGE` (41 R104). -/
def readNode (idx : NodeIdx) (s : State) : Except Raise State :=
  if s.nn ≤ idx.toNat then .error { code := .nodeRange, info := idx.setWidth 64 }
  else .ok { s with regs := { s.regs with nodeFreq := (s.nodeAt idx).freq, nodeInfo := (s.nodeAt idx).info } }

/-- `ND_READ idx` (41 R104). -/
def execNdRead (idx : NodeIdx) (s : State) : Host.Outcome State Fault Refusal :=
  finish s (requires s.status.treeValid (readNode idx) s)

end Sys2Proof.Machine
end

