-- ==== Sys2Proof/Machine/Dispatch.lean ====
section
/-! DEFINITION. One arm per command: the whole complete event of the command on the state at its accept (45 R150). -/

namespace Sys2Proof.Machine

def exec (i : Instr) (s : State) : Host.Outcome State Fault Refusal :=
  match i with
  | .nop => Sys2Proof.Machine.execNop s
  | .sessionReset => Sys2Proof.Machine.execSessionReset s
  | .ftClear => Sys2Proof.Machine.execFtClear s
  | .ftAcc sym => Sys2Proof.Machine.execFtAcc sym s
  | .ftAccbuf => Sys2Proof.Machine.execFtAccbuf s
  | .ftLoad sym => Sys2Proof.Machine.execFtLoad sym s
  | .ftRead sym => Sys2Proof.Machine.execFtRead sym s
  | .tbBuild => Sys2Proof.Machine.execTbBuild s
  | .ndRead idx => Sys2Proof.Machine.execNdRead idx s
  | .ctDerive => Sys2Proof.Machine.execCtDerive s
  | .ctRead sym => Sys2Proof.Machine.execCtRead sym s
  | .bwReset => Sys2Proof.Machine.execBwReset s
  | .bwPut bit => Sys2Proof.Machine.execBwPut bit s
  | .bwPutsym sym => Sys2Proof.Machine.execBwPutsym sym s
  | .bwFlush => Sys2Proof.Machine.execBwFlush s
  | .brReset => Sys2Proof.Machine.execBrReset s
  | .brGet => Sys2Proof.Machine.execBrGet s
  | .encRun => Sys2Proof.Machine.execEncRun s
  | .decRun => Sys2Proof.Machine.execDecRun s

end Sys2Proof.Machine
end

