-- ==== Sys2Proof/WellFormed.lean ====
section
/-! DEFINITION. Well-formedness: of a command's operand (30 R61, R65), of a script statement (30 R66) and of the
parameters (00 R7). The operand types of `Instr` are exactly as wide as the fields of the command word, so every
`Instr` is well formed; what can be ill formed is what a script writes and what an instance is built with. -/

namespace Sys2Proof

/-- One more than the largest operand a format's field holds (30 R61). -/
def Format.bound : Format → Nat
  | .n => 1
  | .s => 2 ^ 8
  | .b => 2
  | .x => 2 ^ 9

/-- A command is well formed when its operand fits its format's field. -/
def Instr.wf (i : Instr) : Bool := decide (i.operand < i.mnemonic.format.bound)

/-- `<MNEMONIC> [operand]` has an operand exactly when the format has a field for it, and it fits (30 R61, R66). -/
def operandOk (f : Format) : Option Nat → Bool
  | none => f == .n
  | some v => f != .n && decide (v < f.bound)

/-- A script statement is well formed when its numbers fit what they are written to. -/
def Stmt.wf : Stmt → Bool
  | .wr _ v => decide (v < 2 ^ 64)
  | .rd _ => true
  | .ib a b => decide (a < 2 ^ 64) && decide (b < 2 ^ 8)
  | .ibs a bs => decide (a + bs.length ≤ 2 ^ 64) && bs.all (fun b => decide (b < 2 ^ 8))
  | .ob a => decide (a < 2 ^ 64)
  | .cmd m o => operandOk m.format o
  | .wait => true
  | .loadInput bs => decide (bs.length < 2 ^ 64) && bs.all (fun b => decide (b < 2 ^ 8))
  | .encode => true
  | .decode => true

/-- The constraint column of 00 R7. -/
def Params.wf (p : Params) : Bool :=
  decide (1 ≤ p.ibufCap) && decide (p.ibufCap ≤ 2 ^ 64 - 1) && decide (1 ≤ p.obufCap) && decide (p.obufCap ≤ 2 ^ 61 - 1)

end Sys2Proof
end

