-- ==== Sys2Proof/Decode.lean ====
section
/-! DEFINITION. Command decoding (30 R60 to R65), the encoder written from the same table, and the assembler of the
script language (30 R66). -/

namespace Sys2Proof

/-- Why a command word is illegal (30 R64). -/
inductive DecodeError where
  /-- `cmd[7:0]` is none of the nineteen opcodes -/
  | unknownOpcode (op : Byte)
  /-- a reserved bit of the format is 1 -/
  | reservedBit (m : Mnemonic)
  deriving DecidableEq, Repr

/-- The opcode column of 30 R63. -/
def Mnemonic.opcode : Mnemonic → Byte
  | .nop => 0x00
  | .sessionReset => 0x01
  | .ftClear => 0x10
  | .ftAcc => 0x11
  | .ftAccbuf => 0x12
  | .ftLoad => 0x13
  | .ftRead => 0x14
  | .tbBuild => 0x20
  | .ndRead => 0x21
  | .ctDerive => 0x30
  | .ctRead => 0x31
  | .bwReset => 0x40
  | .bwPut => 0x41
  | .bwPutsym => 0x42
  | .bwFlush => 0x43
  | .brReset => 0x48
  | .brGet => 0x49
  | .encRun => 0x50
  | .decRun => 0x58

/-- The nineteen rows, in the order of 30 R63. -/
def opcodeTable : List Mnemonic :=
  [.nop, .sessionReset, .ftClear, .ftAcc, .ftAccbuf, .ftLoad, .ftRead, .tbBuild, .ndRead, .ctDerive, .ctRead,
   .bwReset, .bwPut, .bwPutsym, .bwFlush, .brReset, .brGet, .encRun, .decRun]

/-- The masks of 30 R61: the bits a format fixes to the opcode value. -/
def Format.mask : Format → Word
  | .n => 0xFFFFFFFFFFFFFFFF
  | .s => 0xFFFFFFFFFFFF00FF
  | .b => 0xFFFFFFFFFFFFFEFF
  | .x => 0xFFFFFFFFFFFE00FF

/-- `cmd[7:0]` (30 R60). -/
def opcodeField (w : Word) : Byte := w.extractLsb' 0 8

/-- `cmd.sym = cmd[15:8]` (30 R61). -/
def symField (w : Word) : Byte := w.extractLsb' 8 8

/-- `cmd.bit = cmd[8]` (30 R61). -/
def bitField (w : Word) : Bool := w.getLsbD 8

/-- `cmd.idx = cmd[16:8]` (30 R61). -/
def idxField (w : Word) : NodeIdx := w.extractLsb' 8 9

/-- The row's command with the operand fields of `w` (30 R63). -/
def Mnemonic.withFields (m : Mnemonic) (w : Word) : Instr :=
  match m with
  | .nop => .nop
  | .sessionReset => .sessionReset
  | .ftClear => .ftClear
  | .ftAcc => .ftAcc (symField w)
  | .ftAccbuf => .ftAccbuf
  | .ftLoad => .ftLoad (symField w)
  | .ftRead => .ftRead (symField w)
  | .tbBuild => .tbBuild
  | .ndRead => .ndRead (idxField w)
  | .ctDerive => .ctDerive
  | .ctRead => .ctRead (symField w)
  | .bwReset => .bwReset
  | .bwPut => .bwPut (bitField w)
  | .bwPutsym => .bwPutsym (symField w)
  | .bwFlush => .bwFlush
  | .brReset => .brReset
  | .brGet => .brGet
  | .encRun => .encRun
  | .decRun => .decRun

/-- The decoder of 30 R63: look `cmd[7:0]` up, then check `cmd & mask = op`. -/
def decode (w : Word) : Except DecodeError Instr :=
  match opcodeTable.find? (fun m => m.opcode == opcodeField w) with
  | none => .error (.unknownOpcode (opcodeField w))
  | some m =>
    if w &&& m.format.mask = m.opcode.setWidth 64 then .ok (m.withFields w) else .error (.reservedBit m)

/-- The word of a command: `opcode | (operand << 8)` (30 R61, R66). -/
def encode (i : Instr) : Word := i.mnemonic.opcode.setWidth 64 ||| (BitVec.ofNat 64 i.operand <<< 8)

/-- The assembler for `<MNEMONIC> [operand]` (30 R66); refuses an ill-formed operand. -/
def assemble (m : Mnemonic) (operand : Option Nat) : Option Instr :=
  if operandOk m.format operand then some (m.withFields (BitVec.ofNat 64 (operand.getD 0) <<< 8)) else none

/-- The 64-bit command word whose low `nbits` bits are those of `w`, numbered as spec/opcode_table.json does. -/
def tableWord (nbits w : Nat) : Word := BitVec.ofNat 64 (w % 2 ^ nbits)

/-- The command the decoder reads from a table row's bits. -/
def decodeTableWord (nbits w : Nat) : Option Instr :=
  match decode (tableWord nbits w) with
  | .ok i => some i
  | .error _ => none

end Sys2Proof
end

