-- ==== Sys2Proof/Machine/Ports.lean ====
section
/-! DEFINITION. The host's side: the register port (10 R13, R14), the buffer port (20 R42), command issue (45 R150,
R151), accesses while a command runs (45 R153), hardware reset (70 R200). -/

namespace Sys2Proof

/-- The index column of 10 R13. -/
def RegName.index : RegName → BitVec 8
  | .id => 0x00
  | .cmd => 0x01
  | .status => 0x02
  | .errcode => 0x03
  | .errinfo => 0x04
  | .irqEn => 0x05
  | .inLen => 0x08
  | .origSize => 0x09
  | .totalBits => 0x0A
  | .fdata => 0x0B
  | .outLen => 0x10
  | .bwBits => 0x11
  | .brPos => 0x12
  | .bitval => 0x13
  | .nsym => 0x14
  | .nnodes => 0x15
  | .root => 0x16
  | .nodeInfo => 0x17
  | .nodeFreq => 0x18
  | .clen => 0x19
  | .cbits0 => 0x1A
  | .cbits1 => 0x1B
  | .cbits2 => 0x1C
  | .cbits3 => 0x1D

/-- Every register of 10 R13, in index order. -/
def allRegs : List RegName :=
  [.id, .cmd, .status, .errcode, .errinfo, .irqEn, .inLen, .origSize, .totalBits, .fdata, .outLen, .bwBits, .brPos,
   .bitval, .nsym, .nnodes, .root, .nodeInfo, .nodeFreq, .clen, .cbits0, .cbits1, .cbits2, .cbits3]

/-- The register at an index; none for a reserved index (10 R13). -/
def regAt (idx : BitVec 8) : Option RegName := allRegs.find? (fun r => r.index == idx)

/-- The always-accessible registers (10 R14). -/
def RegName.alwaysAccessible : RegName → Bool
  | .id | .status | .errcode | .errinfo | .irqEn => true
  | .cmd | .inLen | .origSize | .totalBits | .fdata | .outLen | .bwBits | .brPos | .bitval | .nsym | .nnodes | .root
  | .nodeInfo | .nodeFreq | .clen | .cbits0 | .cbits1 | .cbits2 | .cbits3 => false

namespace Machine

/-- What a register reads as, zero-extended (10 R13 to R27); `CMD` reads 0 (10 R16). -/
def State.regValue (s : State) : RegName → Word
  | .id => s.params.idValue
  | .cmd => 0
  | .status => s.status.bits.setWidth 64
  | .errcode => s.errcode.setWidth 64
  | .errinfo => s.errinfo
  | .irqEn => s.irqEn.setWidth 64
  | .inLen => s.regs.inLen
  | .origSize => s.regs.origSize
  | .totalBits => s.regs.totalBits
  | .fdata => s.regs.fdata
  | .outLen => s.regs.outLen
  | .bwBits => s.regs.bwBits
  | .brPos => s.regs.brPos
  | .bitval => s.regs.bitval.setWidth 64
  | .nsym => BitVec.ofNat 64 (distinctCount s.freq)
  | .nnodes => BitVec.ofNat 64 s.nn
  | .root => s.regs.root.setWidth 64
  | .nodeInfo => s.regs.nodeInfo.setWidth 64
  | .nodeFreq => s.regs.nodeFreq
  | .clen => s.regs.clen.setWidth 64
  | .cbits0 => s.regs.cbits0
  | .cbits1 => s.regs.cbits1
  | .cbits2 => s.regs.cbits2
  | .cbits3 => s.regs.cbits3

/-- A write of `w` to `CMD` is accepted when no command runs and no error is recorded, `SESSION_RESET` also in error
(45 R150). -/
def State.accepts (s : State) (w : Word) : Bool := !s.status.busy && (!s.status.err || w == encode .sessionReset)

/-- The accept event: latch the word, `BUSY <- 1`, `DONE <- 0` (45 R150). -/
def accept (w : Word) (s : State) : State := { s with cmd := w, status := s.status.accepted }

/-- A write to `CMD`: accepted, or dropped with `OVR <- 1` (45 R150, R151). -/
def issue (w : Word) (s : State) : State :=
  if s.accepts w then accept w s else { s with status := { s.status with ovr := true } }

/-- A write to a data register, dropped while a command runs (45 R153). In the error state it is the model's choice that
the written value defines the register, as 10 R14 says, though 93 U1 calls the operand registers unspecified until
`SESSION_RESET` (log 22). -/
def writeData (f : DataRegs → DataRegs) (s : State) : State :=
  if s.status.busy then s else { s with regs := f s.regs }

/-- A write through the register port (10 R14). Writes to read-only registers and reserved indices are ignored. -/
def hostRegWrite (idx : BitVec 8) (v : Word) (s : State) : State :=
  match regAt idx with
  | none => s
  | some .cmd => issue v s
  | some .status => { s with status := s.status.clearedBy v }
  | some .irqEn => { s with irqEn := v.setWidth 2 }
  | some .inLen => writeData (fun r => { r with inLen := v }) s
  | some .origSize => writeData (fun r => { r with origSize := v }) s
  | some .totalBits => writeData (fun r => { r with totalBits := v }) s
  | some .fdata => writeData (fun r => { r with fdata := v }) s
  | some .id | some .errcode | some .errinfo | some .outLen | some .bwBits | some .brPos | some .bitval | some .nsym
  | some .nnodes | some .root | some .nodeInfo | some .nodeFreq | some .clen | some .cbits0 | some .cbits1
  | some .cbits2 | some .cbits3 => s

/-- A read through the register port: the register's value; 0 at a reserved index; unspecified for a data register
while a command runs (10 R14, 45 R153, log 12). -/
def hostRegRead (idx : BitVec 8) (s : State) : State :=
  match regAt idx with
  | none => { s with regRdata := 0 }
  | some r =>
    if s.status.busy && !r.alwaysAccessible then
      { s with regRdata := Config.free s.draws .portWord 64, draws := s.draws + 1 }
    else { s with regRdata := s.regValue r }

/-- A write through the buffer port: dropped while a command runs or at or above the capacity (20 R42, 45 R153). -/
def hostBufWrite (id : BufId) (a : Word) (v : Byte) (s : State) : State :=
  if s.status.busy ∨ s.cap id ≤ a.toNat then s
  else
    match id with
    | .ibuf => { s with ibuf := s.ibuf.write a.toNat v }
    | .obuf => { s with obuf := s.obuf.write a.toNat v }

/-- A read through the buffer port: unspecified while a command runs or at or above the capacity (20 R42, 45 R153). -/
def hostBufRead (id : BufId) (a : Word) (s : State) : State :=
  if s.status.busy ∨ s.cap id ≤ a.toNat then
    { s with bufRdata := Config.free s.draws .portByte 8, draws := s.draws + 1 }
  else { s with bufRdata := (s.buf id).read id a.toNat }

/-- A write while `rst_n` is low has no effect: the core is in the reset state all that time (70 R200, log 16). -/
def unlessReset (write : State → State) (s : State) : State := if s.rstN then write s else s

/-- The host drives `rst_n`: low puts the core into the reset state and keeps it there; high leaves it in that state
(70 R200). -/
def driveReset (level : Bool) (s : State) : State := if level then { s with rstN := true } else hardReset s

/-- One host access (45 R156, 70 R200). A `wait` that is over does nothing; that its reads of `STATUS` (30 R66) leave
`reg_rdata` as it was is the model's choice (log 11). -/
def hostAccess (a : HostAccess) (s : State) : State :=
  match a with
  | .regWrite idx v => unlessReset (hostRegWrite idx v) s
  | .regRead idx => hostRegRead idx s
  | .bufWrite id a v => unlessReset (hostBufWrite id a v) s
  | .bufRead id a => hostBufRead id a s
  | .wait => s
  | .rstN level => driveReset level s

/-- The host leaves the turn to the sequencer: it waits, or has nothing more to do (20 R51, log 2). -/
def State.hostYields (s : State) : Bool :=
  match s.host with
  | [] => true
  | .wait :: _ => true
  | .regWrite _ _ :: _ => false
  | .regRead _ :: _ => false
  | .bufWrite _ _ _ :: _ => false
  | .bufRead _ _ :: _ => false
  | .rstN _ :: _ => false

/-- The host's next access, if it has one; a core with nothing to do stays as it is (70 R204). -/
def hostTurn (s : State) : State :=
  match s.host with
  | [] => s
  | a :: rest => hostAccess a { s with host := rest }

end Machine
end Sys2Proof
end

