-- ==== Sys2Proof/Machine/Sequencer.lean ====
section
/-! DEFINITION. The sequencer's turn: the command in the latched word is decoded and performed (45 R150, 10 R12). -/

namespace Sys2Proof.Machine

/-- The latched word: what stands in the place of a fetch (10 R12, 20 R53). -/
def fetch (s : State) : Word := s.cmd

/-- Perform the command in progress; an illegal word raises `E_ILLEGAL_CMD` before anything else (30 R64, 60 R182). -/
def perform (s : State) : Host.Outcome State Fault Refusal :=
  match decode (fetch s) with
  | .ok i => exec i s
  | .error _ => finish s (.error { code := .illegalCmd, info := fetch s })

/-- The sequencer moves when a command is in progress, `rst_n` is high and the host leaves it the turn (20 R51, 70 R200,
log 2). -/
def State.sequencerMoves (s : State) : Bool := s.rstN && s.status.busy && s.hostYields

/-- Put a command word where `perform` fetches it: latched as by an accept (45 R150), `rst_n` high, the host
waiting. -/
def State.latch (s : State) (w : Word) : State :=
  { accept w s with
    rstN := true
    host := if s.hostYields then s.host else .wait :: s.host }

end Sys2Proof.Machine
end

