-- ==== Sys2Proof/Machine/Step.lean ====
section
/-! DEFINITION. One step: the sequencer's complete event, or one host access (45 R150, 20 R51, log 2). -/

namespace Sys2Proof.Machine

/-- The step of the machine. -/
def step (s : State) : Host.Outcome State Fault Refusal :=
  if s.sequencerMoves then perform s else .next (hostTurn s)

/-- `s` with the table row's word accepted, so that the next step performs it (log 3). -/
def State.withFetchWord (s : State) (nbits w : Nat) : State := s.latch (tableWord nbits w)

end Sys2Proof.Machine
end

