-- ==== Sys2Proof/Machine/Container.lean ====
section
/-! DEFINITION. The container format of the host (46 R160, R161) and its parser (46 R165). Host software, not state of
the core (00 R3); `MAGIC` is an argument (00 R7, log 18). -/

namespace Sys2Proof.Machine

/-- The host's error kinds that concern the core (46 R170, R171). `IntegrityMismatch` is a result, not a failure (46
R169); `ResourceError` belongs to the file collaborator and never involves the core. -/
inductive HostError where
  | formatError
  | capacityError
  deriving DecidableEq, Repr

/-- The fields of a container (46 R160); `symbol_count` is the number of pairs. -/
structure Container where
  originalSize : Word
  checksum : BitVec 32
  pairs : List (Byte × Word)
  totalBits : Word
  payload : List Byte
  deriving DecidableEq, Repr

/-- `n` bytes of `v`, least significant first (00 R8 `LE32`, `LE64`). -/
def leBytes (n v : Nat) : List Byte := (List.range n).map (fun i => BitVec.ofNat 8 (v >>> (8 * i)))

/-- The value of little-endian bytes. -/
def ofLeBytes (bs : List Byte) : Nat := bs.foldr (fun b v => b.toNat + 256 * v) 0

/-- `ceil8` in unbounded integers (46 R165). -/
def ceil8Nat (n : Nat) : Nat := (n + 7) / 8

/-- One pair of the symbol table (46 R161). -/
def pairBytes (p : Byte × Word) : List Byte := p.1 :: leBytes 8 p.2.toNat

/-- The container's bytes (46 R160, R161). -/
def Container.bytes (magic : Vector Byte 4) (c : Container) : List Byte :=
  magic.toList ++ leBytes 8 c.originalSize.toNat ++ leBytes 4 c.checksum.toNat ++ leBytes 4 c.pairs.length ++
    c.pairs.flatMap pairBytes ++ leBytes 8 c.totalBits.toNat ++ c.payload

/-- `n` bytes at an offset. -/
def slice (bs : List Byte) (offset n : Nat) : List Byte := (bs.drop offset).take n

/-- The pair at index `i` of the symbol table (46 R161, R165). -/
def pairAt (bs : List Byte) (i : Nat) : Byte × Word :=
  (BitVec.ofNat 8 (ofLeBytes (slice bs (20 + 9 * i) 1)), BitVec.ofNat 64 (ofLeBytes (slice bs (21 + 9 * i) 8)))

/-- `parse(c)` with its checks in the order of 46 R165; bytes after the payload are ignored. -/
def parseContainer (magic : Vector Byte 4) (bs : List Byte) : Except HostError Container :=
  if bs.length < 20 then .error .formatError
  else if slice bs 0 4 ≠ magic.toList then .error .formatError
  else
    let sc := ofLeBytes (slice bs 16 4)
    if bs.length < 20 + 9 * sc + 8 then .error .formatError
    else
      let tb := ofLeBytes (slice bs (20 + 9 * sc) 8)
      if bs.length - (28 + 9 * sc) < ceil8Nat tb then .error .formatError
      else
        .ok { originalSize := BitVec.ofNat 64 (ofLeBytes (slice bs 4 8))
              checksum := BitVec.ofNat 32 (ofLeBytes (slice bs 12 4))
              pairs := (List.range sc).map (pairAt bs)
              totalBits := BitVec.ofNat 64 tb
              payload := slice bs (28 + 9 * sc) (ceil8Nat tb) }

end Sys2Proof.Machine
end

