-- ==== Sys2Proof/Machine/Script.lean ====
section
/-! DEFINITION. Host programs: the script statements as host accesses (30 R66), the macros (30 R67), and running them
on the machine. -/

namespace Sys2Proof

/-- The macros' expansions (30 R67); every other statement is itself. -/
def Stmt.expand : Stmt → List Stmt
  | .wr r v => [.wr r v]
  | .rd r => [.rd r]
  | .ib a b => [.ib a b]
  | .ibs a bs => [.ibs a bs]
  | .ob a => [.ob a]
  | .cmd m o => [.cmd m o]
  | .wait => [.wait]
  | .loadInput bs => [.ibs 0 bs, .wr .inLen bs.length]
  | .encode => [.cmd .ftClear none, .cmd .ftAccbuf none, .cmd .tbBuild none, .cmd .ctDerive none, .cmd .encRun none]
  | .decode => [.cmd .tbBuild none, .cmd .decRun none]

namespace Machine

/-- Issue a command and wait for it: `WR CMD, <word>` with its implied `WAIT` (30 R66). -/
def commandAccesses (i : Instr) : List HostAccess := [.regWrite RegName.cmd.index (encode i), .wait]

/-- Bytes into `IBUF` from an address up (30 R66 `IBS`). -/
def loadAccesses (addr : Nat) (bytes : List Byte) : List HostAccess :=
  bytes.zipIdx.map (fun p => .bufWrite .ibuf (BitVec.ofNat 64 (addr + p.2)) p.1)

/-- The accesses a statement makes (30 R66); an ill-formed command statement makes none (log 19). That a value, address or
byte too wide for its port, which `Stmt.wf` refuses, is cut to the port's width is the model's choice (log 24). -/
def stmtAccesses : Stmt → List HostAccess
  | .wr r v => [.regWrite r.index (BitVec.ofNat 64 v)]
  | .rd r => [.regRead r.index]
  | .ib a b => [.bufWrite .ibuf (BitVec.ofNat 64 a) (BitVec.ofNat 8 b)]
  | .ibs a bs => loadAccesses a (bs.map (BitVec.ofNat 8))
  | .ob a => [.bufRead .obuf (BitVec.ofNat 64 a)]
  | .cmd m o =>
    match assemble m o with
    | some i => commandAccesses i
    | none => []
  | .wait => [.wait]
  | .loadInput bs => loadAccesses 0 (bs.map (BitVec.ofNat 8)) ++
      [.regWrite RegName.inLen.index (BitVec.ofNat 64 bs.length)]
  | .encode => [Instr.ftClear, .ftAccbuf, .tbBuild, .ctDerive, .encRun].flatMap commandAccesses
  | .decode => [Instr.tbBuild, .decRun].flatMap commandAccesses

/-- The state after a step; the machine never faults or refuses. -/
def advance (s : State) : State :=
  match step s with
  | .next t => t
  | .fault _ => s
  | .refused _ => s

/-- `n` steps. -/
def advanceBy : Nat → State → State
  | 0, s => s
  | n + 1, s => advanceBy n (advance s)

/-- The machine after the host has made these accesses and the core is idle: an access is one step, a wait at most two,
and a command still running at the end one more; further steps change nothing. -/
def play (accesses : List HostAccess) (s : State) : State :=
  advanceBy (2 * accesses.length + 1) { s with host := accesses }

/-- A command completed with `ERR = 1` between these two states: nothing but an error completion sets `ERR`, and while it
is set no command is accepted that could complete with it (10 R17, 45 R150). -/
def completedInError (s t : State) : Bool := !s.status.err && t.status.err

/-- Run a script; it stops at the first command that completes with `ERR = 1`, however it was issued (30 R67). A dropped
command does not complete and stops nothing (45 R151, log 19). That a raw `WR CMD`, which has no implied `WAIT`, has
completed before the next statement is the model's choice, since latency is open (70 R212, log 21). -/
def runStmts : List Stmt → State → State
  | [], s => s
  | st :: rest, s =>
    if completedInError s (play (stmtAccesses st) s) then play (stmtAccesses st) s
    else runStmts rest (play (stmtAccesses st) s)

/-- Run a script with its macros expanded (30 R66, R67). -/
def runScript (script : List Stmt) (s : State) : State := runStmts (script.flatMap Stmt.expand) s

end Machine
end Sys2Proof
end

