-- ==== Sys2Proof/Machine/Driver.lean ====
section
/-! DEFINITION. The host's driver sequences on the machine: `encode` (46 R162 to R164) and `decode` (46 R166 to R169).
Host software; `MAGIC` and the checksum are arguments (00 R7, 46 R163, log 18). -/

namespace Sys2Proof.Machine

/-- `RD <reg>` (30 R66): the state after the read holds the value in `regRdata`. -/
def readRegister (r : RegName) (s : State) : State := play [.regRead r.index] s

/-- `OB? first .. first + n - 1` (30 R66): the bytes read and the state after. -/
def readOutput : Nat → Nat → State → List Byte × State
  | 0, _, s => ([], s)
  | n + 1, first, s =>
    let t := play [.bufRead .obuf (BitVec.ofNat 64 first)] s
    let rest := readOutput n (first + 1) t
    (t.bufRdata :: rest.1, rest.2)

/-- The symbol table of 46 R162, R164: `FT_READ s ; f <- RD FDATA`, kept when `f > 0`. -/
def readTable : List Byte → State → List (Byte × Word) × State
  | [], s => ([], s)
  | sym :: rest, s =>
    let t := readRegister .fdata (play (commandAccesses (.ftRead sym)) s)
    let more := readTable rest t
    (if t.regRdata = 0 then more.1 else (sym, t.regRdata) :: more.1, more.2)

/-- The host's encode sequence (46 R162): the container's bytes or the failure, and the machine after it. -/
def hostEncode (magic : Vector Byte 4) (checksum : List Byte → BitVec 32) (raw : List Byte) (s : State) :
    Except HostError (List Byte) × State :=
  if s.params.ibufCap < raw.length then (.error .capacityError, s)
  else
    let loaded := play (commandAccesses .sessionReset ++ loadAccesses 0 raw ++
      [.regWrite RegName.inLen.index (BitVec.ofNat 64 raw.length)]) s
    let done := runScript [.encode] loaded
    if done.status.err then (.error .capacityError, done)
    else
      let a := readRegister .nsym done
      let b := readRegister .bwBits a
      let c := readRegister .outLen b
      let table := readTable allSyms c
      let out := readOutput c.regRdata.toNat 0 table.2
      (.ok (magic.toList ++ leBytes 8 raw.length ++ leBytes 4 (checksum raw).toNat ++ leBytes 4 a.regRdata.toNat ++
        table.1.flatMap pairBytes ++ leBytes 8 b.regRdata.toNat ++ out.1), out.2)

/-- `WR FDATA, f ; FT_LOAD s` for each pair in container order, the last pair of a symbol winning (46 R166). -/
def loadTable (pairs : List (Byte × Word)) : List HostAccess :=
  pairs.flatMap (fun p => .regWrite RegName.fdata.index p.2 :: commandAccesses (.ftLoad p.1))

/-- The host's decode sequence (46 R167 to R169): the bytes and whether the checksum matched, or the failure. That an
`E_IBUF_RANGE` of `DEC_RUN`, which cannot occur here, is a CapacityError, as the pseudocode of R167 says, and not a
FormatError, as 60 R195 says, is the model's choice (log 23). -/
def hostDecode (magic : Vector Byte 4) (checksum : List Byte → BitVec 32) (bytes : List Byte) (s : State) :
    Except HostError (List Byte × Bool) × State :=
  match parseContainer magic bytes with
  | .error e => (.error e, s)
  | .ok c =>
    if s.params.ibufCap < ceil8Nat c.totalBits.toNat then (.error .capacityError, s)
    else
      let loaded := play (commandAccesses .sessionReset ++ commandAccesses .ftClear ++ loadTable c.pairs ++
        loadAccesses 0 c.payload ++
        [.regWrite RegName.inLen.index (BitVec.ofNat 64 (ceil8Nat c.totalBits.toNat)),
         .regWrite RegName.totalBits.index c.totalBits, .regWrite RegName.origSize.index c.originalSize]) s
      let done := runScript [.decode] loaded
      if done.status.err then
        (if done.errcode = ErrCode.freqOvf.code then .error .formatError else .error .capacityError, done)
      else if done.status.decShort then (.error .formatError, done)
      else
        let a := readRegister .outLen done
        let out := readOutput a.regRdata.toNat 0 a
        (.ok (out.1, decide (checksum out.1 = c.checksum)), out.2)

end Sys2Proof.Machine
end

