-- ==== Sys2Proof/Safety.lean ====
section
/-! DEFINITION. The terms the claims use: what a safe run is, the invariants, and the rules' own descriptions of results
that the machine computes another way (streams of bits, the shape of a tree, the decode walk over a bit-string, the
priority queue of 41 R103). -/

namespace Sys2Proof.Machine

/-! ## Runs -/

/-- A state whose step neither faults nor refuses. -/
def State.Safe (s : State) : Prop := ∃ t, step s = .next t

/-- The state after these commands, each performed to its completion; none if one does not complete. -/
def runCommands : List Instr → State → Option State
  | [], s => some s
  | i :: rest, s =>
    match exec i s with
    | .next t => runCommands rest t
    | .fault _ => none
    | .refused _ => none

/-! ## Completions -/

/-- The handshake flags after any completion (45 R150). -/
def Status.finished (f : Status) : Status := { f with busy := false, done := true }

/-- What 60 R188 defines of the state after an error completion with code `c` and information `info`, from the state
`s`: everything it does not call unspecified. The last four fields speak of what is no state of 10 R10: the parameters,
the level of `rst_n` and the model's own fields (logs 2, 11). -/
structure FailedWith (c : ErrCode) (info : Word) (s t : State) : Prop where
  err : t.status.err = true
  errcode : t.errcode = c.code
  errinfo : t.errinfo = info
  busy : t.status.busy = false
  done : t.status.done = true
  treeValid : t.status.treeValid = false
  treeEmpty : t.status.treeEmpty = false
  codesValid : t.status.codesValid = false
  bwFlushed : t.status.bwFlushed = false
  decShort : t.status.decShort = false
  ovr : t.status.ovr = s.status.ovr
  irqEn : t.irqEn = s.irqEn
  ibuf : t.ibuf = s.ibuf
  params : t.params = s.params
  rstN : t.rstN = s.rstN
  host : t.host = s.host
  ports : t.regRdata = s.regRdata ∧ t.bufRdata = s.bufRdata

/-- The "raised by" column of 60 R181. -/
def raisable : Instr → List ErrCode
  | .nop | .sessionReset | .ftClear | .ftLoad _ | .ftRead _ | .bwReset | .brReset => []
  | .ftAcc _ => [.cntOvf]
  | .ftAccbuf => [.ibufRange, .cntOvf]
  | .tbBuild => [.freqOvf]
  | .ndRead _ => [.seq, .nodeRange]
  | .ctDerive | .ctRead _ | .bwFlush => [.seq]
  | .bwPut _ | .bwPutsym _ => [.seq, .obufFull]
  | .brGet => [.ibufRange, .brEnd]
  | .encRun | .decRun => [.seq, .ibufRange, .obufFull]

/-! ## Bytes and bits -/

/-- `IBUF[0 .. IN_LEN-1]`, in order. -/
def State.inputBytes (s : State) : List Byte :=
  (List.range s.regs.inLen.toNat).map (fun a => s.ibuf.read .ibuf a)

/-- The count of input byte number `k` when `FT_ACCBUF` reaches it: the count at the start and the occurrences before it
(40 R83, ascending order). -/
def State.countBefore (s : State) (k : Nat) : Nat :=
  (s.freqOf (s.inputBytes.getD k 0)).toNat + (s.inputBytes.take k).count (s.inputBytes.getD k 0)

/-- Bit number `p` of a stream of bytes, most significant first (20 R46). -/
def streamBit (byteAt : Nat → Byte) (p : Nat) : Bool := (byteAt (p / 8)).getMsbD (p % 8)

/-- The first `n` bits of a byte memory (20 R46). -/
def Memory.bits (id : BufId) (m : Memory) (n : Nat) : Bits :=
  (List.range n).map (streamBit (fun a => m.read id a))

/-- The bit sequence the writer holds: stored bytes, then the accumulator (43 R121). -/
def State.writtenBits (s : State) : Bits :=
  (List.range s.regs.bwBits.toNat).map
    (streamBit (fun a => if a < s.regs.bwBits.toNat / 8 then s.obuf.read .obuf a else s.bwAcc))

/-- The writer's invariant (43 R121): the count fits the buffer, and a byte in progress has zeros below its bits. Where no
byte is in progress nothing is said of `bw_acc` (the model's choice, log 25). -/
def State.WriterOk (s : State) : Prop :=
  s.regs.bwBits.toNat ≤ 8 * s.params.obufCap ∧
    ∀ k, s.regs.bwBits.toNat % 8 ≠ 0 → k < 8 - s.regs.bwBits.toNat % 8 → s.bwAcc.getLsbD k = false

/-- What `ENC_RUN` packs: the code, or the raw byte, of each input byte in order (44 R135). -/
def State.encodedBits (s : State) : Bits := s.inputBytes.flatMap s.symBits

/-- The payload bits the declared count announces (43 R127). -/
def State.payloadBits (s : State) : Bits := s.ibuf.bits .ibuf s.regs.totalBits.toNat

/-- The decode walk of 44 R138, R139 over a bit-string: from `cur`, with `left` bytes still wanted, the bytes emitted
and the number of bits consumed. -/
def decodeBits (nodeAt : NodeIdx → Node) (root : NodeIdx) : Bits → NodeIdx → Nat → List Byte × Nat
  | [], _, _ => ([], 0)
  | _ :: _, _, 0 => ([], 0)
  | b :: bs, cur, left + 1 =>
    let next := if b then (nodeAt cur).right else (nodeAt cur).left
    if (nodeAt next).isLeaf then
      ((nodeAt next).sym :: (decodeBits nodeAt root bs root left).1, (decodeBits nodeAt root bs root left).2 + 1)
    else
      ((decodeBits nodeAt root bs next (left + 1)).1, (decodeBits nodeAt root bs next (left + 1)).2 + 1)

/-! ## Trees -/

/-- The sum of all counts (40 R86). -/
def totalCount (f : Table Word) : Nat := (allSyms.map (fun x => (Table.get f x).toNat)).sum

/-- The leaves of the enumeration, in ascending byte value (41 R94). -/
def distinctLeaves (f : Table Word) : List Node :=
  (allSyms.filter (fun x => Table.get f x != 0)).map (fun x => leafNode x (Table.get f x))

/-- The node a path leads to from `n`, through internal nodes only (42 R110). -/
def follow (nodeAt : NodeIdx → Node) : NodeIdx → Bits → Option NodeIdx
  | n, [] => some n
  | n, b :: p => if (nodeAt n).isLeaf then none else follow nodeAt (if b then (nodeAt n).right else (nodeAt n).left) p

/-- 10 R33 and 41 R102: the first `m` records are leaves and the rest internal nodes whose two children stand before
them and whose frequency is the children's sum; every record but the last, the root, is the child of exactly one
internal node; leaves that are not the placeholder carry distinct byte values. -/
structure TreeShape (m : Nat) (node : List Node) : Prop where
  two : 2 ≤ m
  bound : m ≤ 256
  size : node.length = 2 * m - 1
  leaves : ∀ (i : Nat) (n : Node), node[i]? = some n → (n.isLeaf = true ↔ i < m)
  children : ∀ (i : Nat) (n : Node), node[i]? = some n → n.isLeaf = false →
    n.ph = false ∧ n.left.toNat < i ∧ n.right.toNat < i ∧
      n.freq.toNat = (freqAt node n.left).toNat + (freqAt node n.right).toNat
  parents : ((node.drop m).flatMap (fun n => [n.left.toNat, n.right.toNat])).Perm (List.range (2 * m - 2))
  distinct : ((node.filter (fun n => n.isLeaf && !n.ph)).map (fun n => n.sym)).Nodup

/-! ## The heap and the queue it may be replaced by -/

/-- The heap invariant (41 R92). -/
def HeapOk (node : List Node) (h : List NodeIdx) : Prop :=
  ∀ i, 0 < i → i < h.length → keyLt node (heapAt h ((i - 1) / 2)) (heapAt h i) = true

/-- The entry of least key of a queue (41 R103). -/
def leastKey (node : List Node) : List NodeIdx → Option NodeIdx
  | [] => none
  | a :: rest =>
    match leastKey node rest with
    | none => some a
    | some b => if keyLt node b a then some b else some a

/-- One merge with a plain queue in the heap's place (41 R96, R103). -/
def queueMerge (b : Build) : Except Raise Build :=
  match leastKey b.node b.heap with
  | none => .ok b
  | some x =>
    match leastKey b.node (b.heap.erase x) with
    | none => .ok b
    | some y =>
      if 2 ^ 64 ≤ (freqAt b.node x).toNat + (freqAt b.node y).toNat then
        .error { code := .freqOvf, info := BitVec.ofNat 64 b.node.length }
      else
        .ok { node := b.node ++ [internalNode (freqAt b.node x + freqAt b.node y) x y]
              heap := BitVec.ofNat 9 b.node.length :: ((b.heap.erase x).erase y) }

/-- The reduction with a plain queue (41 R96, R103). -/
def queueMergeAll : Nat → Build → Except Raise Build
  | 0, b => .ok b
  | fuel + 1, b =>
    if 1 < b.heap.length then
      match queueMerge b with
      | .error r => .error r
      | .ok c => queueMergeAll fuel c
    else .ok b

/-- The tree of a table with at least two distinct symbols, built with a plain queue: the indices of the leaves, merged
two least keys at a time, the last one the root (41 R94, R96, R103). -/
def queueTree (f : Table Word) : Except Raise Tree :=
  match queueMergeAll (distinctLeaves f).length
      { node := distinctLeaves f, heap := (List.range (distinctLeaves f).length).map (BitVec.ofNat 9) } with
  | .error r => .error r
  | .ok b => .ok { node := b.node, root := b.heap.headD 0, empty := false }

/-! ## Invariants -/

/-- The core is in the reset state, both buffers unspecified (70 R200, R201); the host's side and the draw counter are not
its state. -/
structure State.InResetState (s : State) : Prop where
  core : s = { State.resetFor s.params with
    ibuf := s.ibuf
    obuf := s.obuf
    regRdata := s.regRdata
    bufRdata := s.bufRdata
    rstN := s.rstN
    host := s.host
    draws := s.draws }
  ibuf : s.ibuf.cells = []
  obuf : s.obuf.cells = []

/-- What every state of a run satisfies (10 R10 to R32, 20 R40, R41, 45 R150, 60 R188, 70 R200). -/
structure State.Inv (s : State) : Prop where
  params : s.params.wf = true
  ibufWf : s.ibuf.wf
  obufWf : s.obuf.wf
  ibufIn : ∀ c ∈ s.ibuf.cells, c.1 < s.params.ibufCap
  obufIn : ∀ c ∈ s.obuf.cells, c.1 < s.params.obufCap
  nodes : s.node.length ≤ 511
  heap : s.heap.length ≤ 256
  heapIdle : s.status.err = false → s.heap = []
  codes : ∀ sym, (s.codeOf sym).length ≤ 255
  noError : s.status.err = false → s.errcode = 0 ∧ s.errinfo = 0
  inError : s.status.err = true → 1 ≤ s.errcode.toNat ∧ s.errcode.toNat ≤ 8 ∧ s.status.treeValid = false ∧
    s.status.treeEmpty = false ∧ s.status.codesValid = false ∧ s.status.bwFlushed = false ∧ s.status.decShort = false
  onlyReset : s.status.busy = true → s.status.err = true → s.cmd = encode .sessionReset
  codesTree : s.status.codesValid = true → s.status.treeValid = true
  emptyTree : s.status.treeValid = true → s.status.treeEmpty = true → s.node = [] ∧ s.regs.root = 0
  writer : s.status.err = false → s.WriterOk
  heldInReset : s.rstN = false → s.InResetState

/-- What `TREE_VALID` and `CODES_VALID` say (10 R17): the tree is `TB_BUILD`'s of the current table, the codes are
`CT_DERIVE`'s of the current tree. -/
structure State.FlagsOk (s : State) : Prop where
  tree : s.status.treeValid = true →
    buildTree s.params.phSym s.freq = .ok { node := s.node, root := s.regs.root, empty := s.status.treeEmpty }
  codes : s.status.codesValid = true →
    ∃ u : State, u.node = s.node ∧ u.regs.root = s.regs.root ∧ u.status.treeEmpty = s.status.treeEmpty ∧
      s.code = u.derivedCodes

end Sys2Proof.Machine
end

