-- ==== Sys2Proof/Certificates/Slice0/Obligations.lean ====
section
/-! DEFINITION. The statements for the provers. Each docstring cites the rule of the spec it formalises. Where a result
is given as `t = { s with … }`, that equation is the frame: every field not named is unchanged. The frame also speaks of
the model's own fields (`host`, log 2; `regRdata` and `bufRdata`, log 11; `draws`, log 5), which are no state of the spec. -/

open Sys2Proof Sys2Proof.Machine

/-! ## Reset -/

/-- 70 R201: after reset every register reads 0 but `ID`, every table entry is 0 or empty, no node record and no heap
entry is in use, no buffer byte has a known value, `irq` is 0; for every choice of the parameters. -/
def Obligations.ResetClearsRegistersAndTables : Prop :=
  ∀ p : Params,
    (∀ r : RegName, (State.resetFor p).regValue r = if r = .id then p.idValue else 0) ∧
    (State.resetFor p).cmd = 0 ∧
    (∀ sym, (State.resetFor p).freqOf sym = 0 ∧ (State.resetFor p).codeOf sym = [] ∧ (State.resetFor p).clenOf sym = 0) ∧
    (State.resetFor p).nn = 0 ∧ (State.resetFor p).hsize = 0 ∧ (State.resetFor p).bwAcc = 0 ∧
    (State.resetFor p).irq = false ∧ (State.resetFor p).ibuf.cells = [] ∧ (State.resetFor p).obuf.cells = []

/-- The reset state of every legal instance satisfies both invariants (70 R201). -/
def Obligations.ResetMeetsTheInvariants : Prop :=
  ∀ p : Params, p.wf = true → (State.resetFor p).Inv ∧ (State.resetFor p).FlagsOk

/-- 70 R200: `rst_n` low is taken at any time, also while a command runs, and reaches the reset state with both buffers
unspecified; while it is low no write, no command and no waiting changes the core; when it goes high the core is as it
was. (That the host's list and the port values go on, the draw counter advances and a write made while `rst_n` is low is
lost is the model's choice, log 16. That the core is in the reset state all the time `rst_n` is low is part of
`State.Inv`.) -/
def Obligations.HardResetReachesResetState : Prop :=
  ∀ (s : State) (rest : List HostAccess),
    (s.host = .rstN false :: rest →
      step s = .next { State.resetFor s.params with
        ibuf := Memory.unspecified s.draws, obuf := Memory.unspecified s.draws, regRdata := s.regRdata,
        bufRdata := s.bufRdata, rstN := false, host := rest, draws := s.draws + 1 }) ∧
    (s.rstN = false →
      (∀ a, s.host = a :: rest →
        (∃ idx v, a = .regWrite idx v) ∨ (∃ id x v, a = .bufWrite id x v) ∨ a = .wait →
        step s = .next { s with host := rest }) ∧
      (s.host = [] → step s = .next s)) ∧
    (s.host = .rstN true :: rest → step s = .next { s with rstN := true, host := rest })

/-! ## Decoding and the step -/

/-- 30 R63 and the vectors V-EN1 to V-EN16: words written out from the encodings decode to their commands, the illegal
ones to none. -/
def Obligations.DecodeReadsTheSpecsWords : Prop :=
  decode 0x0000000000000000 = .ok .nop ∧ decode 0x0000000000000001 = .ok .sessionReset ∧
  decode 0x0000000000004111 = .ok (.ftAcc 0x41) ∧ decode 0x000000000000FF13 = .ok (.ftLoad 0xFF) ∧
  decode 0x0000000000000014 = .ok (.ftRead 0x00) ∧ decode 0x0000000000000421 = .ok (.ndRead 4) ∧
  decode 0x000000000001FE21 = .ok (.ndRead 510) ∧ decode 0x0000000000004331 = .ok (.ctRead 0x43) ∧
  decode 0x0000000000000041 = .ok (.bwPut false) ∧ decode 0x0000000000000141 = .ok (.bwPut true) ∧
  decode 0x0000000000004242 = .ok (.bwPutsym 0x42) ∧ decode 0x0000000000000058 = .ok .decRun ∧
  decode 0x0000000000000002 = .error (.unknownOpcode 0x02) ∧ decode 0x0000000000000100 = .error (.reservedBit .nop) ∧
  decode 0x0000000000000241 = .error (.reservedBit .bwPut) ∧ decode 0x0000000000020021 = .error (.reservedBit .ndRead) ∧
  decode 0x8000000000004111 = .error (.reservedBit .ftAcc) ∧ decode 0x000000000001FF21 = .ok (.ndRead 511)

/-- 30 R61, R63, R66: decoding the encoded word of a well-formed command gives the command back, every operand at every
value. -/
def Obligations.DecodeOfEncodeIsTheCommand : Prop :=
  ∀ i : Instr, i.wf = true → decode (encode i) = .ok i

/-- 30 R61, R64: a word that decodes is the one word of its command; no bit of it is ignored. -/
def Obligations.EncodeOfDecodeIsTheWord : Prop :=
  ∀ (w : Word) (i : Instr), decode w = .ok i → encode i = w

/-- 30 R64: a word is illegal exactly when its opcode is none of the nineteen or a reserved bit of its format is 1
(bits 63:8 of format N, 63:16 of S, 63:9 of B, 63:17 of X). -/
def Obligations.IllegalWordsAreTheUnassignedAndReserved : Prop :=
  ∀ w : Word, (∃ e, decode w = .error e) ↔
    (∀ m : Mnemonic, m.opcode ≠ w.setWidth 8) ∨
    ∃ (m : Mnemonic) (b : Nat), m.opcode = w.setWidth 8 ∧ w.getLsbD b = true ∧
      (match m.format with | .n => 8 | .s => 16 | .b => 9 | .x => 17) ≤ b

/-- 45 R150, 10 R12: when a command is in progress, `rst_n` is high and the host waits, the step performs the command the latched word
decodes to. -/
def Obligations.StepPerformsTheLatchedCommand : Prop :=
  ∀ (s : State) (i : Instr), s.rstN = true → s.status.busy = true → s.hostYields = true → decode s.cmd = .ok i →
    step s = exec i s

/-- 60 R182: an illegal word raises `E_ILLEGAL_CMD` with the word as information. (That it is then the sequencer's turn,
`hostYields`, is the model's choice, log 2.) -/
def Obligations.IllegalWordRaisesIllegalCmd : Prop :=
  ∀ (s : State) (e : DecodeError), s.rstN = true → s.status.busy = true → s.hostYields = true →
    decode s.cmd = .error e →
    ∃ t, step s = .next t ∧ FailedWith .illegalCmd s.cmd s t

/-- 70 R213: no command can hang and nothing stops the machine: every state has a next state. -/
def Obligations.EveryStateHasANextState : Prop :=
  (∀ s : State, s.Safe) ∧ ∀ (i : Instr) (s : State), ∃ t, exec i s = .next t

/-! ## The host's accesses

Writes are stated with `rst_n` high; with it low `HardResetReachesResetState` says that they are lost. -/

/-- 45 R150, R151: a write to `CMD` is accepted when no command runs and no error is recorded, or in error when the word
is `SESSION_RESET`'s; otherwise it changes nothing but `OVR`. -/
def Obligations.CmdWriteIsAcceptedOrDropped : Prop :=
  ∀ (s : State) (w : Word) (rest : List HostAccess), s.rstN = true → s.host = .regWrite 0x01 w :: rest →
    (s.status.busy = false → (s.status.err = false ∨ w = 0x0000000000000001) →
      step s = .next { s with host := rest, cmd := w, status := { s.status with busy := true, done := false } }) ∧
    ((s.status.busy = true ∨ (s.status.err = true ∧ w ≠ 0x0000000000000001)) →
      step s = .next { s with host := rest, status := { s.status with ovr := true } })

/-- 10 R17: the bits of `STATUS` as read, and the write-one-to-clear of `DONE` and `OVR`, at any time. -/
def Obligations.StatusReadsAndClearsAsR17Says : Prop :=
  (∀ s : State, ∀ b < 64, (s.regValue .status).getLsbD b =
    ([s.status.busy, s.status.done, s.status.err, s.status.ovr, s.status.treeValid, s.status.treeEmpty,
      s.status.codesValid, s.status.bwFlushed, s.status.decShort].getD b false)) ∧
  ∀ (s : State) (v : Word) (rest : List HostAccess), s.rstN = true → s.host = .regWrite 0x02 v :: rest →
    step s = .next { s with host := rest, status := { s.status with
      done := s.status.done && !v.getLsbD 1, ovr := s.status.ovr && !v.getLsbD 3 } }

/-- 10 R13, R14: what a write to each index does while no command runs: the four operand registers and `IRQ_EN` keep the
low bits of the value, read-only registers and reserved indices ignore it. (That the operand registers do so in the
error state too is the model's choice, log 22.) -/
def Obligations.IdleRegisterWritesFollowTheMap : Prop :=
  ∀ (s : State) (idx : BitVec 8) (v : Word) (rest : List HostAccess), s.rstN = true →
    s.host = .regWrite idx v :: rest → s.status.busy = false → idx ≠ 0x01 → idx ≠ 0x02 →
    step s = .next (
      if idx = 0x05 then { s with host := rest, irqEn := v.setWidth 2 }
      else if idx = 0x08 then { s with host := rest, regs := { s.regs with inLen := v } }
      else if idx = 0x09 then { s with host := rest, regs := { s.regs with origSize := v } }
      else if idx = 0x0A then { s with host := rest, regs := { s.regs with totalBits := v } }
      else if idx = 0x0B then { s with host := rest, regs := { s.regs with fdata := v } }
      else { s with host := rest })

/-- 10 R13 to R24: what a read of each index puts on the port while no command runs; a read has no side effect. -/
def Obligations.IdleRegisterReadsFollowTheMap : Prop :=
  ∀ (s : State) (idx : BitVec 8) (rest : List HostAccess), s.host = .regRead idx :: rest → s.status.busy = false →
    step s = .next { s with host := rest, regRdata :=
      ([(0x00, s.params.idValue), (0x01, 0), (0x02, s.regValue .status), (0x03, s.errcode.setWidth 64),
        (0x04, s.errinfo), (0x05, s.irqEn.setWidth 64), (0x08, s.regs.inLen), (0x09, s.regs.origSize),
        (0x0A, s.regs.totalBits), (0x0B, s.regs.fdata), (0x10, s.regs.outLen), (0x11, s.regs.bwBits),
        (0x12, s.regs.brPos), (0x13, s.regs.bitval.setWidth 64),
        (0x14, BitVec.ofNat 64 (allSyms.filter (fun x => s.freqOf x ≠ 0)).length), (0x15, BitVec.ofNat 64 s.nn),
        (0x16, s.regs.root.setWidth 64), (0x17, s.regs.nodeInfo.setWidth 64), (0x18, s.regs.nodeFreq),
        (0x19, s.regs.clen.setWidth 64), (0x1A, s.regs.cbits0), (0x1B, s.regs.cbits1), (0x1C, s.regs.cbits2),
        (0x1D, s.regs.cbits3)].lookup idx).getD (0 : Word) }

/-- 45 R153, 10 R14: while a command runs, writes to data registers and buffers are dropped, and reads of them change
nothing but the port's value, which is unspecified (and the model's draw counter, log 5). That `CMD` is among them, and
that a reserved index reads 0 also then, is the model's choice (log 12). -/
def Obligations.DataAccessesWhileBusyAreDropped : Prop :=
  ∀ (s : State) (a : HostAccess) (rest : List HostAccess), s.rstN = true → s.host = a :: rest → s.status.busy = true →
    (∀ idx v, a = .regWrite idx v → idx ≠ 0x01 → idx ≠ 0x02 → idx ≠ 0x05 → step s = .next { s with host := rest }) ∧
    (∀ v, a = .regWrite 0x05 v → step s = .next { s with host := rest, irqEn := v.setWidth 2 }) ∧
    (∀ id x v, a = .bufWrite id x v → step s = .next { s with host := rest }) ∧
    (∀ r : RegName, a = .regRead r.index → r.alwaysAccessible = false →
      ∃ v, step s = .next { s with host := rest, regRdata := v, draws := s.draws + 1 }) ∧
    (∀ r : RegName, a = .regRead r.index → r.alwaysAccessible = true →
      step s = .next { s with host := rest, regRdata := s.regValue r }) ∧
    (∀ idx, a = .regRead idx → (∀ r : RegName, r.index ≠ idx) → step s = .next { s with host := rest, regRdata := 0 }) ∧
    (∀ id x, a = .bufRead id x → ∃ v, step s = .next { s with host := rest, bufRdata := v, draws := s.draws + 1 })

/-- 20 R42, R43: a byte written through the buffer port of an idle core is the byte read there afterwards, every other
byte of both buffers is unchanged, and no register or flag changes; a read returns the byte and changes nothing else; at
or above the capacity nothing is written and a read is unspecified (and moves the model's draw counter, log 5). -/
def Obligations.BufferPortMovesOneByte : Prop :=
  ∀ (s : State) (id : BufId) (x : Word) (rest : List HostAccess), s.status.busy = false →
    (∀ v : Byte, s.host = .bufWrite id x v :: rest →
      (s.cap id ≤ x.toNat → step s = .next { s with host := rest }) ∧
      (s.rstN = true → x.toNat < s.cap id → ∃ t, step s = .next t ∧
        (∀ (id' : BufId) (a : Nat), (t.buf id').read id' a =
          if id' = id ∧ a = x.toNat then v else (s.buf id').read id' a) ∧
        t = { s with host := rest, ibuf := t.ibuf, obuf := t.obuf })) ∧
    (s.host = .bufRead id x :: rest →
      (x.toNat < s.cap id → step s = .next { s with host := rest, bufRdata := (s.buf id).read id x.toNat }) ∧
      (s.cap id ≤ x.toNat → ∃ v, step s = .next { s with host := rest, bufRdata := v, draws := s.draws + 1 }))

/-- 60 R192: the interrupt output, and that after reset it is 0 whatever the core does until the host enables it. -/
def Obligations.IrqIsTheMaskedLevel : Prop :=
  (∀ s : State, s.irq = true ↔
    (s.status.done = true ∧ s.irqEn.getLsbD 0 = true) ∨ (s.status.err = true ∧ s.irqEn.getLsbD 1 = true)) ∧
  ∀ (i : Instr) (s t : State), s.irqEn = 0 → exec i s = .next t → t.irq = false

/-! ## System commands -/

/-- 45 R154: `NOP` writes nothing beyond the handshake. -/
def Obligations.NopWritesOnlyTheHandshake : Prop :=
  decode 0x0000000000000000 = .ok .nop ∧
  ∀ s : State, exec .nop s = .next { s with status := { s.status with busy := false, done := true } }

/-- 45 R155, 70 R202: `SESSION_RESET` returns every piece of state to its reset value except `IRQ_EN` and the buffers,
and completes with `DONE` = 1. (The level of `rst_n` is the host's; the port values, the host's list and the draw counter are the model's own fields.) -/
def Obligations.SessionResetKeepsOnlyIrqEnAndBuffers : Prop :=
  decode 0x0000000000000001 = .ok .sessionReset ∧
  ∀ s : State, exec .sessionReset s = .next { State.resetFor s.params with
    irqEn := s.irqEn, ibuf := s.ibuf, obuf := s.obuf, regRdata := s.regRdata, bufRdata := s.bufRdata, rstN := s.rstN,
    host := s.host, draws := s.draws, status := { Status.reset with done := true } }

/-! ## Frequency table -/

/-- 40 R81: `FT_CLEAR` zeroes every count, makes tree and codes stale, changes nothing else. -/
def Obligations.FtClearZeroesEveryCount : Prop :=
  decode 0x0000000000000010 = .ok .ftClear ∧
  ∀ s : State, ∃ t, exec .ftClear s = .next t ∧ (∀ x, t.freqOf x = 0) ∧ t.regValue .nsym = 0 ∧
    t = { s with freq := t.freq,
                 status := { s.status with busy := false, done := true, treeValid := false, codesValid := false } }

/-- 40 R82: `FT_ACC` adds 1 to one count; at 2^64 - 1 it raises `E_CNT_OVF`. -/
def Obligations.FtAccCountsOneOrOverflows : Prop :=
  (∀ sym : Byte, decode (0x11 ||| sym.setWidth 64 <<< 8) = .ok (.ftAcc sym)) ∧
  ∀ (s : State) (sym : Byte),
    ((s.freqOf sym).toNat < 2 ^ 64 - 1 → ∃ t, exec (.ftAcc sym) s = .next t ∧
      (t.freqOf sym).toNat = (s.freqOf sym).toNat + 1 ∧ (∀ x, x ≠ sym → t.freqOf x = s.freqOf x) ∧
      t = { s with freq := t.freq,
                   status := { s.status with busy := false, done := true, treeValid := false, codesValid := false } }) ∧
    ((s.freqOf sym).toNat = 2 ^ 64 - 1 → ∃ t, exec (.ftAcc sym) s = .next t ∧
      FailedWith .cntOvf (sym.setWidth 64) s t)

/-- 40 R83, 60 R184, R186: `FT_ACCBUF` adds to each count the number of its occurrences in `IBUF[0 .. IN_LEN-1]`; it
raises `E_IBUF_RANGE(IN_LEN)` for an `IN_LEN` beyond the buffer, and, when a count would pass 2^64 - 1, `E_CNT_OVF` of the
first byte, in ascending index order, whose count then stands at 2^64 - 1. -/
def Obligations.FtAccbufCountsEveryByte : Prop :=
  decode 0x0000000000000012 = .ok .ftAccbuf ∧
  ∀ s : State,
    (s.regs.inLen.toNat ≤ s.params.ibufCap → (∀ x, (s.freqOf x).toNat + s.inputBytes.count x < 2 ^ 64) →
      ∃ t, exec .ftAccbuf s = .next t ∧
        (∀ x, (t.freqOf x).toNat = (s.freqOf x).toNat + s.inputBytes.count x) ∧
        t = { s with freq := t.freq,
                     status := { s.status with busy := false, done := true, treeValid := false,
                                               codesValid := false } }) ∧
    (s.params.ibufCap < s.regs.inLen.toNat → ∃ t, exec .ftAccbuf s = .next t ∧
      FailedWith .ibufRange s.regs.inLen s t) ∧
    (s.regs.inLen.toNat ≤ s.params.ibufCap → (∃ x, 2 ^ 64 ≤ (s.freqOf x).toNat + s.inputBytes.count x) →
      ∃ t k, exec .ftAccbuf s = .next t ∧ k < s.regs.inLen.toNat ∧ s.countBefore k = 2 ^ 64 - 1 ∧
        (∀ j < k, s.countBefore j < 2 ^ 64 - 1) ∧
        FailedWith .cntOvf ((s.inputBytes.getD k 0).setWidth 64) s t)

/-- 40 R84, R85: `FT_LOAD` stores `FDATA` into one count and makes tree and codes stale; `FT_READ` copies one count to
`FDATA` and writes no flag beyond the handshake's. -/
def Obligations.FtLoadAndFtReadMoveOneCount : Prop :=
  (∀ sym : Byte, decode (0x13 ||| sym.setWidth 64 <<< 8) = .ok (.ftLoad sym) ∧
    decode (0x14 ||| sym.setWidth 64 <<< 8) = .ok (.ftRead sym)) ∧
  ∀ (s : State) (sym : Byte),
    (∃ t, exec (.ftLoad sym) s = .next t ∧ t.freqOf sym = s.regs.fdata ∧ (∀ x, x ≠ sym → t.freqOf x = s.freqOf x) ∧
      t = { s with freq := t.freq,
                   status := { s.status with busy := false, done := true, treeValid := false,
                                             codesValid := false } }) ∧
    exec (.ftRead sym) s = .next { s with
      regs := { s.regs with fdata := s.freqOf sym }, status := { s.status with busy := false, done := true } }

/-- 40 R86: after `FT_CLEAR` and `FT_ACCBUF` the counts sum to `IN_LEN` and each is the number of its symbol's
occurrences. -/
def Obligations.ClearedCountsSumToInLen : Prop :=
  ∀ s : State, s.regs.inLen.toNat ≤ s.params.ibufCap →
    ∃ t, runCommands [.ftClear, .ftAccbuf] s = some t ∧ t.status.err = s.status.err ∧
      totalCount t.freq = s.regs.inLen.toNat ∧ ∀ x, (t.freqOf x).toNat = s.inputBytes.count x

/-! ## Tree builder -/

/-- 41 R92, R93: `heap_push` keeps the heap invariant and adds exactly its entry. -/
def Obligations.HeapPushKeepsTheHeap : Prop :=
  ∀ (node : List Node) (h : List NodeIdx) (n : NodeIdx), HeapOk node h → n ∉ h → h.Nodup →
    HeapOk node (heapPush node h n) ∧ (heapPush node h n).Perm (n :: h)

/-- 41 R92, R95, R103: `heap_pop` returns the entry of least key, leaves exactly the others, and keeps the invariant. -/
def Obligations.HeapPopTakesTheLeastKey : Prop :=
  ∀ (node : List Node) (h : List NodeIdx), HeapOk node h → h.Nodup → h ≠ [] →
    ∃ r h', heapPop node h = some (r, h') ∧ h.Perm (r :: h') ∧ (∀ x ∈ h', keyLt node r x = true) ∧ HeapOk node h'

/-- 41 R103: with at least two distinct symbols the array heap builds the tree that a plain queue, popped by least key,
builds. -/
def Obligations.ArrayHeapBuildsTheQueuesTree : Prop :=
  ∀ (phSym : Byte) (f : Table Word), 2 ≤ distinctCount f → buildTree phSym f = queueTree f

/-- 41 R98: an all-zero table yields no tree. -/
def Obligations.TbBuildOfEmptyTable : Prop :=
  ∀ s : State, (∀ x, s.freqOf x = 0) →
    exec .tbBuild s = .next { s with
      node := []
      heap := []
      regs := { s.regs with root := 0 }
      status := { s.status with
        busy := false
        done := true
        treeValid := true
        treeEmpty := true
        codesValid := false } }

/-- 41 R97: one distinct symbol yields the real leaf, the placeholder and their root. -/
def Obligations.TbBuildOfSingleSymbol : Prop :=
  ∀ (s : State) (x : Byte), s.freqOf x ≠ 0 → (∀ y, y ≠ x → s.freqOf y = 0) →
    exec .tbBuild s = .next { s with
      node := [{ isLeaf := true, ph := false, sym := x, freq := s.freqOf x, left := 0, right := 0 },
               { isLeaf := true, ph := true, sym := s.params.phSym, freq := 0, left := 0, right := 0 },
               { isLeaf := false, ph := false, sym := 0, freq := s.freqOf x, left := 0, right := 1 }],
      heap := [], regs := { s.regs with root := 2 },
      status := { s.status with busy := false, done := true, treeValid := true, treeEmpty := false,
                                codesValid := false } }

/-- 41 R94, R96, R102: with `k ≥ 2` distinct symbols and a sum below 2^64, `TB_BUILD` completes with `2k - 1` nodes: the
leaves in ascending byte value, then the internal nodes, the last one the root, whose frequency is the sum of all
counts; nothing else changes. -/
def Obligations.TbBuildBuildsTheTree : Prop :=
  ∀ s : State, 2 ≤ distinctCount s.freq → totalCount s.freq < 2 ^ 64 →
    ∃ t, exec .tbBuild s = .next t ∧ TreeShape (distinctCount s.freq) t.node ∧
      t.node.take (distinctCount s.freq) = distinctLeaves s.freq ∧
      t.regs.root.toNat = 2 * distinctCount s.freq - 2 ∧
      (freqAt t.node t.regs.root).toNat = totalCount s.freq ∧
      (∀ i j, distinctCount s.freq ≤ i → i ≤ j → j < t.nn →
        (freqAt t.node (BitVec.ofNat 9 i)).toNat ≤ (freqAt t.node (BitVec.ofNat 9 j)).toNat) ∧
      t = { s with node := t.node, heap := [], regs := { s.regs with root := t.regs.root },
                   status := { s.status with busy := false, done := true, treeValid := true, treeEmpty := false,
                                             codesValid := false } }

/-- 41 R100, 60 R187: with counts that sum to 2^64 or more `TB_BUILD` raises `E_FREQ_OVF` with the index of an internal
node that was being created. -/
def Obligations.TbBuildOverflowRaises : Prop :=
  ∀ s : State, 2 ≤ distinctCount s.freq → 2 ^ 64 ≤ totalCount s.freq →
    ∃ (t : State) (n : Nat), exec .tbBuild s = .next t ∧ distinctCount s.freq ≤ n ∧ n ≤ 2 * distinctCount s.freq - 2 ∧
      FailedWith .freqOvf (BitVec.ofNat 64 n) s t

/-- 10 R33: in a state whose tree is the builder's, a valid, non-empty tree has the shape of R33: two children for
every internal node, one parent for every node but the root, distinct byte values, frequencies that add up. -/
def Obligations.ValidTreesHaveTheShapeOfR33 : Prop :=
  ∀ s : State, s.FlagsOk → s.status.treeValid = true → s.status.treeEmpty = false →
    ∃ m, TreeShape m s.node ∧ s.regs.root.toNat = 2 * m - 2

/-- 41 R104: `ND_READ` copies a record to `NODE_FREQ` and `NODE_INFO` in the layout of 10 R24; without a valid tree it
raises `E_SEQ`, at or above `nn` `E_NODE_RANGE`. -/
def Obligations.NdReadCopiesTheRecord : Prop :=
  (∀ idx : NodeIdx, decode (0x21 ||| idx.setWidth 64 <<< 8) = .ok (.ndRead idx)) ∧
  ∀ (s : State) (idx : NodeIdx),
    (∀ n : Node, s.status.treeValid = true → s.node[idx.toNat]? = some n → ∃ t, exec (.ndRead idx) s = .next t ∧
      t.regs.nodeFreq = n.freq ∧
      t.regs.nodeInfo.toNat = (if n.isLeaf then 1 + 2 * n.ph.toNat + 4 * n.sym.toNat
        else 2 ^ 10 * n.left.toNat + 2 ^ 19 * n.right.toNat) ∧
      t = { s with regs := { s.regs with nodeFreq := t.regs.nodeFreq, nodeInfo := t.regs.nodeInfo },
                   status := { s.status with busy := false, done := true } }) ∧
    (s.status.treeValid = false → ∃ t, exec (.ndRead idx) s = .next t ∧ FailedWith .seq s.cmd s t) ∧
    (s.status.treeValid = true → s.nn ≤ idx.toNat →
      ∃ t, exec (.ndRead idx) s = .next t ∧ FailedWith .nodeRange (idx.setWidth 64) s t)

/-! ## Code deriver -/

/-- 42 R112, R114: `CT_DERIVE` needs a valid tree, writes the code table and `CODES_VALID` only; with an empty tree every
entry is absent. -/
def Obligations.CtDeriveWritesTheCodeTable : Prop :=
  ∀ s : State,
    (s.status.treeValid = true → ∃ t, exec .ctDerive s = .next t ∧
      (s.status.treeEmpty = true → ∀ sym, t.codeOf sym = [] ∧ t.clenOf sym = 0) ∧
      t = { s with code := t.code, status := { s.status with busy := false, done := true, codesValid := true } }) ∧
    (s.status.treeValid = false → ∃ t, exec .ctDerive s = .next t ∧ FailedWith .seq s.cmd s t)

/-- 42 R110, R111, R114: the code of a symbol is the path from the root to its leaf; the placeholder gets no entry; the
symbols with an entry are those with a count. -/
def Obligations.CodesAreRootToLeafPaths : Prop :=
  ∀ s : State, s.FlagsOk → s.status.treeValid = true → s.status.treeEmpty = false →
    ∃ t, exec .ctDerive s = .next t ∧
      (∀ (n : NodeIdx) (r : Node), s.node[n.toNat]? = some r → r.isLeaf = true → r.ph = false →
        follow s.nodeAt s.regs.root (t.codeOf r.sym) = some n) ∧
      ∀ sym, t.codeOf sym ≠ [] ↔ s.freqOf sym ≠ 0

/-- 42 R113: every code has between 1 and `max 1 (k - 1)` bits, `k` the number of distinct symbols. -/
def Obligations.CodeLengthsAreBounded : Prop :=
  ∀ s : State, s.FlagsOk → s.status.treeValid = true → s.status.treeEmpty = false →
    ∃ t, exec .ctDerive s = .next t ∧ ∀ sym, s.freqOf sym ≠ 0 →
      1 ≤ (t.codeOf sym).length ∧ (t.codeOf sym).length ≤ max 1 (distinctCount s.freq - 1) ∧
      (t.codeOf sym).length ≤ 255

/-- 42 R116: no code is a prefix of another code. -/
def Obligations.CodesArePrefixFree : Prop :=
  ∀ s t : State, s.FlagsOk → s.status.treeValid = true → exec .ctDerive s = .next t →
    ∀ a b : Byte, a ≠ b → t.codeOf a ≠ [] → t.codeOf b ≠ [] → ¬ t.codeOf a <+: t.codeOf b

/-- 42 R115: `CT_READ` writes the length and `cval` in four words; absent entries read 0; without valid codes it raises
`E_SEQ`. -/
def Obligations.CtReadWritesLengthAndValue : Prop :=
  (∀ sym : Byte, decode (0x31 ||| sym.setWidth 64 <<< 8) = .ok (.ctRead sym)) ∧
  ∀ (s : State) (sym : Byte),
    (s.status.codesValid = true → (s.codeOf sym).length ≤ 255 → ∃ t, exec (.ctRead sym) s = .next t ∧
      t.regs.clen.toNat = (s.codeOf sym).length ∧
      t.regs.cbits0.toNat + 2 ^ 64 * t.regs.cbits1.toNat + 2 ^ 128 * t.regs.cbits2.toNat +
          2 ^ 192 * t.regs.cbits3.toNat =
        ((List.range (s.codeOf sym).length).map
          (fun i => ((s.codeOf sym).getD i false).toNat * 2 ^ ((s.codeOf sym).length - 1 - i))).sum ∧
      t = { s with regs := { s.regs with clen := t.regs.clen, cbits0 := t.regs.cbits0, cbits1 := t.regs.cbits1,
                                         cbits2 := t.regs.cbits2, cbits3 := t.regs.cbits3 },
                   status := { s.status with busy := false, done := true } }) ∧
    (s.status.codesValid = false → ∃ t, exec (.ctRead sym) s = .next t ∧ FailedWith .seq s.cmd s t)

/-! ## Bit writer and reader -/

/-- 43 R123: `BW_RESET` starts an empty sequence and leaves `OBUF` as it is. -/
def Obligations.BwResetStartsEmpty : Prop :=
  decode 0x0000000000000040 = .ok .bwReset ∧
  ∀ s : State, exec .bwReset s = .next { s with
    bwAcc := 0
    regs := { s.regs with bwBits := 0, outLen := 0 }
    status := { s.status with busy := false, done := true, bwFlushed := false } }

/-- 43 R122, R124: `BW_PUT` sets bit position `7 - j` of the accumulator (begun from 0 when `j = 0`), stores the byte at
`bw_bits >> 3` exactly when it is full, and counts the bit; every other byte of `OBUF` is unchanged. After a flush it
raises `E_SEQ`; a bit that would start byte `OBUF_CAP` raises `E_OBUF_FULL`; the flush check comes first. (That the bytes
above the writer's position keep their stale values, log 7, and `bw_acc` the full byte, log 25, is the model's choice.) -/
def Obligations.BwPutFillsTheAccumulator : Prop :=
  decode 0x0000000000000041 = .ok (.bwPut false) ∧ decode 0x0000000000000141 = .ok (.bwPut true) ∧
  ∀ (s : State) (b : Bool),
    (s.params.wf = true → s.status.bwFlushed = false → s.regs.bwBits.toNat < 8 * s.params.obufCap →
      ∃ t, exec (.bwPut b) s = .next t ∧
        (∀ k < 8, t.bwAcc.getLsbD k =
          ((k == 7 - s.regs.bwBits.toNat % 8 && b) || (s.regs.bwBits.toNat % 8 != 0 && s.bwAcc.getLsbD k))) ∧
        t.regs.bwBits.toNat = s.regs.bwBits.toNat + 1 ∧
        (∀ a, t.obuf.read .obuf a =
          if s.regs.bwBits.toNat % 8 = 7 ∧ a = s.regs.bwBits.toNat / 8 then t.bwAcc else s.obuf.read .obuf a) ∧
        t = { s with bwAcc := t.bwAcc, obuf := t.obuf, regs := { s.regs with bwBits := t.regs.bwBits },
                     status := { s.status with busy := false, done := true } }) ∧
    (s.status.bwFlushed = true → ∃ t, exec (.bwPut b) s = .next t ∧ FailedWith .seq s.cmd s t) ∧
    (s.status.bwFlushed = false → s.regs.bwBits.toNat % 8 = 0 → s.params.obufCap ≤ s.regs.bwBits.toNat / 8 →
      ∃ t, exec (.bwPut b) s = .next t ∧ FailedWith .obufFull (s.regs.bwBits >>> 3) s t)

/-- 43 R125: `BW_PUTSYM` appends the symbol's code, or the raw byte most significant bit first when it has none, to the
bits the writer holds; bytes of `OBUF` outside the ones filled are unchanged (those above the writer's position by the
model's choice, log 7). Without valid codes or after a flush it
raises `E_SEQ`; when the bits do not fit, `E_OBUF_FULL` with the byte index `OBUF_CAP`. -/
def Obligations.BwPutsymAppendsTheCode : Prop :=
  (∀ sym : Byte, decode (0x42 ||| sym.setWidth 64 <<< 8) = .ok (.bwPutsym sym)) ∧
  ∀ (s : State) (sym : Byte) (bits : Bits),
    bits = (if s.codeOf sym = [] then (List.range 8).map (fun j => sym.getMsbD j) else s.codeOf sym) →
    (s.params.wf = true → s.WriterOk → s.status.codesValid = true → s.status.bwFlushed = false →
      s.regs.bwBits.toNat + bits.length ≤ 8 * s.params.obufCap →
      ∃ t, exec (.bwPutsym sym) s = .next t ∧ t.writtenBits = s.writtenBits ++ bits ∧ t.WriterOk ∧
        t.regs.bwBits.toNat = s.regs.bwBits.toNat + bits.length ∧
        (∀ a, a < s.regs.bwBits.toNat / 8 ∨ t.regs.bwBits.toNat / 8 ≤ a → t.obuf.read .obuf a = s.obuf.read .obuf a) ∧
        t = { s with bwAcc := t.bwAcc, obuf := t.obuf, regs := { s.regs with bwBits := t.regs.bwBits },
                     status := { s.status with busy := false, done := true } }) ∧
    ((s.status.codesValid = false ∨ s.status.bwFlushed = true) →
      ∃ t, exec (.bwPutsym sym) s = .next t ∧ FailedWith .seq s.cmd s t) ∧
    (s.params.wf = true → s.WriterOk → s.status.codesValid = true → s.status.bwFlushed = false →
      8 * s.params.obufCap < s.regs.bwBits.toNat + bits.length →
      ∃ t, exec (.bwPutsym sym) s = .next t ∧ FailedWith .obufFull (BitVec.ofNat 64 s.params.obufCap) s t)

/-- 43 R120, R126: after `BW_FLUSH` the first `bw_bits` bits of `OBUF` are the bits the writer held, the rest of the last
byte is zero, `OUT_LEN` is the ceiling of the bit count over 8; a second flush raises `E_SEQ`. (Bytes at and above
`OUT_LEN` become unspecified, 20 R41, log 7.) -/
def Obligations.BwFlushPublishesTheStream : Prop :=
  decode 0x0000000000000043 = .ok .bwFlush ∧
  ∀ s : State,
    (s.params.wf = true → s.WriterOk → s.status.bwFlushed = false → ∃ t, exec .bwFlush s = .next t ∧
      t.regs.outLen.toNat = (s.regs.bwBits.toNat + 7) / 8 ∧
      t.obuf.bits .obuf s.regs.bwBits.toNat = s.writtenBits ∧
      (∀ p, s.regs.bwBits.toNat ≤ p → p < 8 * t.regs.outLen.toNat →
        streamBit (fun a => t.obuf.read .obuf a) p = false) ∧
      (∀ a, a < s.regs.bwBits.toNat / 8 → t.obuf.read .obuf a = s.obuf.read .obuf a) ∧
      t = { s with obuf := t.obuf, draws := s.draws + 1, regs := { s.regs with outLen := t.regs.outLen },
                   status := { s.status with busy := false, done := true, bwFlushed := true } }) ∧
    (s.status.bwFlushed = true → ∃ t, exec .bwFlush s = .next t ∧ FailedWith .seq s.cmd s t)

/-- 43 R129: `BR_RESET` moves the cursor to the first bit. -/
def Obligations.BrResetRewindsTheCursor : Prop :=
  decode 0x0000000000000048 = .ok .brReset ∧
  ∀ s : State, exec .brReset s = .next { s with
    regs := { s.regs with brPos := 0, bitval := 0 }
    status := { s.status with busy := false, done := true } }

/-- 43 R128, R130, 20 R46: `BR_GET` reads stream bit `br_pos` of `IBUF` into `BITVAL` and moves the cursor on. At or past
`TOTAL_BITS` it raises `E_BR_END`, before it looks at the buffer; a byte at or beyond `IN_LEN` or `IBUF_CAP` raises
`E_IBUF_RANGE`. -/
def Obligations.BrGetReadsTheNextBit : Prop :=
  decode 0x0000000000000049 = .ok .brGet ∧
  ∀ s : State,
    (s.regs.brPos.toNat < s.regs.totalBits.toNat → s.regs.brPos.toNat / 8 < s.regs.inLen.toNat →
      s.regs.brPos.toNat / 8 < s.params.ibufCap →
      exec .brGet s = .next { s with
        regs := { s.regs with
          bitval := BitVec.ofBool (streamBit (fun a => s.ibuf.read .ibuf a) s.regs.brPos.toNat)
          brPos := s.regs.brPos + 1 }
        status := { s.status with busy := false, done := true } }) ∧
    (s.regs.totalBits.toNat ≤ s.regs.brPos.toNat →
      ∃ t, exec .brGet s = .next t ∧ FailedWith .brEnd s.regs.brPos s t) ∧
    (s.regs.brPos.toNat < s.regs.totalBits.toNat →
      (s.regs.inLen.toNat ≤ s.regs.brPos.toNat / 8 ∨ s.params.ibufCap ≤ s.regs.brPos.toNat / 8) →
      ∃ t, exec .brGet s = .next t ∧ FailedWith .ibufRange (s.regs.brPos >>> 3) s t)

/-- 43 R131: writer and reader are inverse. -/
def Obligations.ReaderReturnsWhatTheWriterPacked : Prop :=
  ∀ (s : State) (w : Bits), s.params.wf = true → s.regs.bwBits = 0 → s.status.bwFlushed = false →
    w.length ≤ 8 * s.params.obufCap →
    ∃ u, runCommands (w.map Instr.bwPut ++ [.bwFlush]) s = some u ∧ u.status.err = s.status.err ∧
      u.regs.outLen.toNat = (w.length + 7) / 8 ∧
      ∀ r : State, r.status.err = false → r.regs.inLen = u.regs.outLen → r.regs.inLen.toNat ≤ r.params.ibufCap →
        r.regs.totalBits.toNat = w.length → r.regs.brPos = 0 →
        (∀ a, a < u.regs.outLen.toNat → r.ibuf.read .ibuf a = u.obuf.read .obuf a) →
        (∀ i, i < w.length → ∃ v, runCommands (List.replicate (i + 1) .brGet) r = some v ∧ v.status.err = false ∧
          v.regs.bitval = BitVec.ofBool (w.getD i false)) ∧
        ∃ v, runCommands (List.replicate (w.length + 1) .brGet) r = some v ∧ v.status.err = true ∧
          v.errcode = ErrCode.brEnd.code ∧ v.errinfo = BitVec.ofNat 64 w.length

/-! ## Encode and decode -/

/-- 44 R135, R136, 20 R46: `ENC_RUN` packs the codes of the input bytes in order, most significant bit first, pads with
zeros, and writes `BW_BITS`, `OUT_LEN`, `BW_FLUSHED`, whatever the writer held. (Bytes at and above `OUT_LEN` become
unspecified, 20 R41, log 7.) -/
def Obligations.EncRunPacksTheCodes : Prop :=
  ∀ s : State, s.params.wf = true → s.status.codesValid = true → s.regs.inLen.toNat ≤ s.params.ibufCap →
    s.encodedBits.length ≤ 8 * s.params.obufCap →
    ∃ t, exec .encRun s = .next t ∧ t.regs.bwBits.toNat = s.encodedBits.length ∧
      t.regs.outLen.toNat = (s.encodedBits.length + 7) / 8 ∧
      t.obuf.bits .obuf s.encodedBits.length = s.encodedBits ∧
      (∀ p, s.encodedBits.length ≤ p → p < 8 * t.regs.outLen.toNat →
        streamBit (fun a => t.obuf.read .obuf a) p = false) ∧
      t = { s with bwAcc := t.bwAcc, obuf := t.obuf, draws := s.draws + 1,
                   regs := { s.regs with bwBits := t.regs.bwBits, outLen := t.regs.outLen },
                   status := { s.status with busy := false, done := true, bwFlushed := true } }

/-- 44 R136, 60 R183 to R185, R191: `ENC_RUN`'s three errors, in their order. -/
def Obligations.EncRunRaisesInOrder : Prop :=
  ∀ s : State,
    (s.status.codesValid = false → ∃ t, exec .encRun s = .next t ∧ FailedWith .seq s.cmd s t) ∧
    (s.status.codesValid = true → s.params.ibufCap < s.regs.inLen.toNat →
      ∃ t, exec .encRun s = .next t ∧ FailedWith .ibufRange s.regs.inLen s t) ∧
    (s.params.wf = true → s.status.codesValid = true → s.regs.inLen.toNat ≤ s.params.ibufCap →
      8 * s.params.obufCap < s.encodedBits.length →
      ∃ t, exec .encRun s = .next t ∧ FailedWith .obufFull (BitVec.ofNat 64 s.params.obufCap) s t)

/-- 44 R138 to R142: `DEC_RUN` stores the bytes of the walk over the declared payload bits, none when there is no tree,
and writes `OUT_LEN`, `BR_POS` and `DEC_SHORT` from it. (Bytes at and above `OUT_LEN` become unspecified, 20 R41, log 7.) -/
def Obligations.DecRunStoresTheWalk : Prop :=
  ∀ (s : State) (out : List Byte) (used : Nat), s.status.treeValid = true →
    s.regs.inLen.toNat ≤ s.params.ibufCap → (s.regs.totalBits.toNat + 7) / 8 ≤ s.regs.inLen.toNat →
    (out, used) = (if s.status.treeEmpty then ([], 0)
      else decodeBits s.nodeAt s.regs.root s.payloadBits s.regs.root s.regs.origSize.toNat) →
    out.length ≤ s.params.obufCap →
    ∃ t, exec .decRun s = .next t ∧ t.regs.outLen.toNat = out.length ∧ t.regs.brPos.toNat = used ∧
      (∀ i, i < out.length → t.obuf.read .obuf i = out.getD i 0) ∧
      t.status.decShort = decide (out.length < s.regs.origSize.toNat) ∧
      t = { s with obuf := t.obuf, draws := s.draws + 1,
                   regs := { s.regs with outLen := t.regs.outLen, brPos := t.regs.brPos },
                   status := { s.status with busy := false, done := true, decShort := t.status.decShort } }

/-- 44 R140, 60 R183 to R185, R191: `DEC_RUN`'s errors, in their order. -/
def Obligations.DecRunRaisesInOrder : Prop :=
  ∀ s : State,
    (s.status.treeValid = false → ∃ t, exec .decRun s = .next t ∧ FailedWith .seq s.cmd s t) ∧
    (s.status.treeValid = true → s.params.ibufCap < s.regs.inLen.toNat →
      ∃ t, exec .decRun s = .next t ∧ FailedWith .ibufRange s.regs.inLen s t) ∧
    (s.status.treeValid = true → s.regs.inLen.toNat ≤ s.params.ibufCap →
      s.regs.inLen.toNat < (s.regs.totalBits.toNat + 7) / 8 →
      ∃ t, exec .decRun s = .next t ∧
        FailedWith .ibufRange (BitVec.ofNat 64 ((s.regs.totalBits.toNat + 7) / 8)) s t) ∧
    (s.params.wf = true → s.status.treeValid = true → s.status.treeEmpty = false →
      s.regs.inLen.toNat ≤ s.params.ibufCap → (s.regs.totalBits.toNat + 7) / 8 ≤ s.regs.inLen.toNat →
      s.params.obufCap < (decodeBits s.nodeAt s.regs.root s.payloadBits s.regs.root s.regs.origSize.toNat).1.length →
      ∃ t, exec .decRun s = .next t ∧ FailedWith .obufFull (BitVec.ofNat 64 s.params.obufCap) s t)

/-- 44 R143: the round trip through the core. A core that counts, builds, derives and encodes its input without error
gives a payload from which a core with the same table and `PH_SYM` decodes the input. -/
def Obligations.DecodeOfEncodeIsTheInput : Prop :=
  ∀ s t r : State, s.params.wf = true → r.params.wf = true → s.status.err = false → r.status.err = false →
    s.regs.inLen.toNat ≤ s.params.ibufCap →
    runCommands [.ftClear, .ftAccbuf, .tbBuild, .ctDerive, .encRun] s = some t → t.status.err = false →
    r.freq = t.freq → r.params.phSym = s.params.phSym → r.regs.inLen = t.regs.outLen →
    r.regs.inLen.toNat ≤ r.params.ibufCap → r.regs.totalBits = t.regs.bwBits → r.regs.origSize = s.regs.inLen →
    (∀ a, a < t.regs.outLen.toNat → r.ibuf.read .ibuf a = t.obuf.read .obuf a) →
    s.regs.inLen.toNat ≤ r.params.obufCap →
    ∃ u, runCommands [.tbBuild, .decRun] r = some u ∧ u.status.err = false ∧ u.regs.outLen = s.regs.inLen ∧
      (List.range s.regs.inLen.toNat).map (fun a => u.obuf.read .obuf a) = s.inputBytes ∧
      u.regs.brPos = t.regs.bwBits ∧ u.status.decShort = false

/-! ## Whole-machine rules -/

/-- 60 R181, R188: a command raises only the codes of its row of R181's table, and the error completion leaves what R188
defines; the commands R181 lists as raising nothing never set `ERR`. The invariant is assumed because without it the bit
writer could hold more bits than `OBUF` does, and a flush store beyond the capacity (log 14). -/
def Obligations.ErrorsAreTheListedOnes : Prop :=
  ∀ (i : Instr) (s t : State), s.Inv → s.status.err = false → exec i s = .next t → t.status.err = true →
    ∃ c ∈ raisable i, ∃ info, FailedWith c info s t

/-- 10 R32: which command writes which flag. -/
def Obligations.FlagsChangeAsR32Says : Prop :=
  ∀ (i : Instr) (s t : State), s.status.err = false → exec i s = .next t →
    (t.status.err = true → t.status.treeValid = false ∧ t.status.treeEmpty = false ∧ t.status.codesValid = false ∧
      t.status.bwFlushed = false ∧ t.status.decShort = false) ∧
    (t.status.err = false →
      t.status.treeValid = (if i.mnemonic ∈ [.ftClear, .ftAcc, .ftAccbuf, .ftLoad, .sessionReset] then false
        else if i = .tbBuild then true else s.status.treeValid) ∧
      t.status.treeEmpty = (if i = .sessionReset then false
        else if i = .tbBuild then (distinctCount s.freq == 0) else s.status.treeEmpty) ∧
      t.status.codesValid = (if i.mnemonic ∈ [.ftClear, .ftAcc, .ftAccbuf, .ftLoad, .tbBuild, .sessionReset] then false
        else if i = .ctDerive then true else s.status.codesValid) ∧
      t.status.bwFlushed = (if i = .bwFlush ∨ i = .encRun then true
        else if i = .bwReset ∨ i = .sessionReset then false else s.status.bwFlushed) ∧
      t.status.decShort = (if i = .decRun then decide (t.regs.outLen < s.regs.origSize)
        else if i = .sessionReset then false else s.status.decShort))

/-- 10 R20 to R29, 20 R50: which command writes which register, table and buffer, on a completion without error. -/
def Obligations.EachItemHasItsWriters : Prop :=
  ∀ (i : Instr) (s t : State), s.status.err = false → exec i s = .next t → t.status.err = false →
    i ≠ .sessionReset →
    (i.mnemonic ∉ [.ftClear, .ftAcc, .ftAccbuf, .ftLoad] → t.freq = s.freq) ∧
    (i ≠ .tbBuild → t.node = s.node ∧ t.regs.root = s.regs.root ∧ t.heap = s.heap) ∧
    (i ≠ .ctDerive → t.code = s.code) ∧
    (i.mnemonic ∉ [.bwPut, .bwPutsym, .bwFlush, .encRun, .decRun] → t.obuf = s.obuf ∧ t.draws = s.draws) ∧
    (i.mnemonic ∉ [.bwReset, .bwPut, .bwPutsym, .encRun] → t.regs.bwBits = s.regs.bwBits ∧ t.bwAcc = s.bwAcc) ∧
    (i.mnemonic ∉ [.bwReset, .bwFlush, .encRun, .decRun] → t.regs.outLen = s.regs.outLen) ∧
    (i.mnemonic ∉ [.brReset, .brGet, .decRun] → t.regs.brPos = s.regs.brPos) ∧
    (i.mnemonic ∉ [.brReset, .brGet] → t.regs.bitval = s.regs.bitval) ∧
    (i.mnemonic ≠ .ftRead → t.regs.fdata = s.regs.fdata) ∧
    (i.mnemonic ≠ .ndRead → t.regs.nodeInfo = s.regs.nodeInfo ∧ t.regs.nodeFreq = s.regs.nodeFreq) ∧
    (i.mnemonic ≠ .ctRead → t.regs.clen = s.regs.clen ∧ t.regs.cbits0 = s.regs.cbits0 ∧
      t.regs.cbits1 = s.regs.cbits1 ∧ t.regs.cbits2 = s.regs.cbits2 ∧ t.regs.cbits3 = s.regs.cbits3) ∧
    t.regs.inLen = s.regs.inLen ∧ t.regs.origSize = s.regs.origSize ∧ t.regs.totalBits = s.regs.totalBits ∧
    t.cmd = s.cmd ∧ t.errcode = s.errcode ∧ t.errinfo = s.errinfo ∧ t.status.ovr = s.status.ovr

/-- 20 R40, R50, 10 R19, 45 R150: no command, whatever its completion, changes `IBUF`, `IRQ_EN`, the parameters or the
host's side; every completion leaves `BUSY` 0 and `DONE` 1. -/
def Obligations.NoCommandTouchesIbufOrIrqEn : Prop :=
  ∀ (i : Instr) (s t : State), exec i s = .next t →
    t.ibuf = s.ibuf ∧ t.irqEn = s.irqEn ∧ t.params = s.params ∧ t.host = s.host ∧ t.regRdata = s.regRdata ∧
    t.bufRdata = s.bufRdata ∧ t.rstN = s.rstN ∧ t.status.busy = false ∧ t.status.done = true

/-- 45 R151, 60 R193: while an error is recorded and no command runs, no step but a `SESSION_RESET` issue or a hardware
reset changes the error record or starts a command. -/
def Obligations.ErrorStateIsLeftOnlyByReset : Prop :=
  ∀ s t : State, s.status.err = true → s.status.busy = false → step s = .next t →
    (∀ rest, s.host ≠ .rstN false :: rest) → (∀ rest, s.host ≠ .regWrite 0x01 0x0000000000000001 :: rest) →
    t.status.err = true ∧ t.status.busy = false ∧ t.errcode = s.errcode ∧ t.errinfo = s.errinfo ∧ t.cmd = s.cmd

/-- The invariant of the machine's state is kept by every step (10 R10 to R32, 20 R40, R41, 70 R200).
That the core stays in the reset state while `rst_n` is low rests on the lost writes of log 16, the model's choice. -/
def Obligations.EveryStepKeepsTheInvariant : Prop :=
  ∀ s t : State, s.Inv → step s = .next t → t.Inv

/-- 10 R17, 70 R206: every step keeps what `TREE_VALID` and `CODES_VALID` say: the tree is the builder's of the current
table, the codes the deriver's of the current tree. -/
def Obligations.EveryStepKeepsTheFlagsTrue : Prop :=
  ∀ s t : State, s.FlagsOk → step s = .next t → t.FlagsOk

/-! ## Container -/

/-- 46 R160, R161, R165: parsing a container's bytes gives its fields back, and bytes after the payload are ignored. -/
def Obligations.ParseOfContainerBytes : Prop :=
  ∀ (magic : Vector Byte 4) (c : Container) (extra : List Byte), c.pairs.length < 2 ^ 32 →
    c.payload.length = ceil8Nat c.totalBits.toNat → parseContainer magic (c.bytes magic ++ extra) = .ok c

/-- 46 R160, R165: a container has `28 + 9*sc + ceil8(tb)` bytes, and every proper beginning of it is a FormatError. -/
def Obligations.TruncatedContainersAreRejected : Prop :=
  ∀ (magic : Vector Byte 4) (c : Container), c.pairs.length < 2 ^ 32 →
    c.payload.length = ceil8Nat c.totalBits.toNat →
    (c.bytes magic).length = 28 + 9 * c.pairs.length + ceil8Nat c.totalBits.toNat ∧
    ∀ n, n < (c.bytes magic).length → parseContainer magic ((c.bytes magic).take n) = .error .formatError

/-- 46 R162, R173: encoding the empty input on an idle core gives the 28 bytes of a container with original_size,
symbol_count and total_bits 0. -/
def Obligations.EncodeOfEmptyInput : Prop :=
  ∀ (magic : Vector Byte 4) (checksum : List Byte → BitVec 32) (s : State), s.params.wf = true →
    s.rstN = true → s.status.busy = false →
    (hostEncode magic checksum [] s).1 = .ok (magic.toList ++ leBytes 8 0 ++ leBytes 4 (checksum []).toNat ++
      leBytes 4 0 ++ leBytes 8 0)
end

