-- ==== Sys2Proof/Laws/PerInstr.lean ====
section
/-! SUPPORT. A law of every command as syntax: its encoded word has its row's opcode and no reserved bit (30 R61). -/

namespace Sys2Proof.Laws.RowShape

/-- Under the mask of its row's format, a command's word is the row's opcode. -/
def Statement (i : Instr) : Prop := encode i &&& i.mnemonic.format.mask = i.mnemonic.opcode.setWidth 64

theorem nop : Statement .nop := by unfold Statement; decide
theorem sessionReset : Statement .sessionReset := by unfold Statement; decide
theorem ftClear : Statement .ftClear := by unfold Statement; decide
theorem ftAcc (sym : Byte) : Statement (.ftAcc sym) := by revert sym; unfold Statement; decide +kernel
theorem ftAccbuf : Statement .ftAccbuf := by unfold Statement; decide
theorem ftLoad (sym : Byte) : Statement (.ftLoad sym) := by revert sym; unfold Statement; decide +kernel
theorem ftRead (sym : Byte) : Statement (.ftRead sym) := by revert sym; unfold Statement; decide +kernel
theorem tbBuild : Statement .tbBuild := by unfold Statement; decide
theorem ndRead (idx : NodeIdx) : Statement (.ndRead idx) := by revert idx; unfold Statement; decide +kernel
theorem ctDerive : Statement .ctDerive := by unfold Statement; decide
theorem ctRead (sym : Byte) : Statement (.ctRead sym) := by revert sym; unfold Statement; decide +kernel
theorem bwReset : Statement .bwReset := by unfold Statement; decide
theorem bwPut (bit : Bool) : Statement (.bwPut bit) := by revert bit; unfold Statement; decide
theorem bwPutsym (sym : Byte) : Statement (.bwPutsym sym) := by revert sym; unfold Statement; decide +kernel
theorem bwFlush : Statement .bwFlush := by unfold Statement; decide
theorem brReset : Statement .brReset := by unfold Statement; decide
theorem brGet : Statement .brGet := by unfold Statement; decide
theorem encRun : Statement .encRun := by unfold Statement; decide
theorem decRun : Statement .decRun := by unfold Statement; decide

end Sys2Proof.Laws.RowShape
end

