-- ==== Sys2Proof/Laws/Decode.lean ====
section
/-! SUPPORT. The opcode table: no two rows share an opcode, every mnemonic has its row, and looking an opcode up finds its
row (30 R63). -/

namespace Sys2Proof.Laws

theorem opcode_rows_disjoint : opcodeTable.Pairwise (fun m n => m.opcode ≠ n.opcode) := by decide

theorem mem_opcodeTable (m : Mnemonic) : m ∈ opcodeTable := by cases m <;> decide

theorem find_opcode (m : Mnemonic) : opcodeTable.find? (fun n => n.opcode == m.opcode) = some m := by
  cases m <;> decide

theorem opcode_injective {m n : Mnemonic} (h : m.opcode = n.opcode) : m = n := by
  have := find_opcode m
  rw [h, find_opcode n, Option.some.injEq] at this
  exact this.symm

theorem wf_all (i : Instr) : i.wf = true := by
  cases i <;> refine decide_eq_true ?_ <;> first | exact Nat.zero_lt_one | exact BitVec.isLt _ | exact Bool.toNat_lt _

/-- Everything decoding a word to a command says: the row's opcode stands in bits 7:0, and no reserved bit is 1. -/
theorem decode_ok {w : Word} {i : Instr} (h : decode w = .ok i) :
    ∃ m : Mnemonic, m.opcode = opcodeField w ∧ w &&& m.format.mask = m.opcode.setWidth 64 ∧ i = m.withFields w := by
  unfold decode at h
  cases hf : opcodeTable.find? (fun m => m.opcode == opcodeField w) with
  | none => simp [hf] at h
  | some m =>
    simp only [hf] at h
    split_ifs at h with hm
    exact ⟨m, by simpa using List.find?_some hf, hm, by simpa using h.symm⟩

end Sys2Proof.Laws
end

