-- ==== Sys2Proof/Laws/Heap.lean ====
section
/-! SUPPORT. The key of the heap is a strict total order (41 R91), and what the heap operations do to its size. -/

namespace Sys2Proof.Laws

open Sys2Proof.Machine

/-- The key as a pair of numbers. -/
theorem keyLt_iff (node : List Node) (a b : NodeIdx) :
    keyLt node a b = true ↔ (freqAt node a).toNat < (freqAt node b).toNat ∨
      (freqAt node a).toNat = (freqAt node b).toNat ∧ a.toNat < b.toNat := by
  simp [keyLt, BitVec.lt_def, BitVec.toNat_inj]

theorem keyLt_irrefl (node : List Node) (a : NodeIdx) : keyLt node a a = false := by
  rw [← Bool.not_eq_true, keyLt_iff]
  omega

theorem keyLt_trans {node : List Node} {a b c : NodeIdx} (h1 : keyLt node a b = true) (h2 : keyLt node b c = true) :
    keyLt node a c = true := by
  rw [keyLt_iff] at *
  omega

theorem keyLt_total {node : List Node} {a b : NodeIdx} (h : a ≠ b) : keyLt node a b = true ∨ keyLt node b a = true := by
  have : a.toNat ≠ b.toNat := fun e => h (BitVec.eq_of_toNat_eq e)
  rw [keyLt_iff, keyLt_iff]
  omega

@[simp] theorem swapAt_length (h : List NodeIdx) (i j : Nat) : (swapAt h i j).length = h.length := by simp [swapAt]

@[simp] theorem siftUp_length (node : List Node) (fuel : Nat) (h : List NodeIdx) (i : Nat) :
    (siftUp node fuel h i).length = h.length := by
  induction fuel generalizing h i with
  | zero => rfl
  | succ n ih =>
    unfold siftUp
    split_ifs <;> simp [ih]

@[simp] theorem heapPush_length (node : List Node) (h : List NodeIdx) (n : NodeIdx) :
    (heapPush node h n).length = h.length + 1 := by simp [heapPush]

@[simp] theorem siftDown_length (node : List Node) (fuel : Nat) (h : List NodeIdx) (i : Nat) :
    (siftDown node fuel h i).length = h.length := by
  induction fuel generalizing h i with
  | zero => rfl
  | succ n ih =>
    unfold siftDown
    split_ifs <;> simp [ih]

theorem heapPop_length {node : List Node} {h h' : List NodeIdx} {r : NodeIdx} (e : heapPop node h = some (r, h')) :
    h.length = h'.length + 1 := by
  cases h with
  | nil => simp [heapPop] at e
  | cons a t =>
    simp only [heapPop] at e
    split_ifs at e with ht
    · simp_all
    · simp only [Option.some.injEq, Prod.mk.injEq] at e
      rw [← e.2]
      simp

theorem heapPop_none {node : List Node} {h : List NodeIdx} (e : heapPop node h = none) : h = [] := by
  cases h with
  | nil => rfl
  | cons a t =>
    simp only [heapPop] at e
    split_ifs at e

/-- A merge takes one entry from the heap and adds one record to the node store. -/
theorem mergeOnce_sizes {b c : Build} (h2 : 1 < b.heap.length) (h : mergeOnce b = .ok c) :
    c.node.length = b.node.length + 1 ∧ c.heap.length + 1 = b.heap.length := by
  unfold mergeOnce at h
  cases h1 : heapPop b.node b.heap with
  | none => simp [heapPop_none h1] at h2
  | some p =>
    obtain ⟨x, m⟩ := p
    have l1 := heapPop_length h1
    simp only [h1] at h
    cases h3 : heapPop b.node m with
    | none =>
      rw [heapPop_none h3] at l1
      simp only [List.length_nil] at l1
      omega
    | some q =>
      obtain ⟨y, m'⟩ := q
      have l2 := heapPop_length h3
      simp only [h3] at h
      split_ifs at h
      rw [Except.ok.injEq] at h
      subst h
      refine ⟨by simp [Build.add], ?_⟩
      simp only [Build.add, heapPush_length]
      omega

end Sys2Proof.Laws
end

