-- ==== Sys2Proof/Laws/Memory.lean ====
section
/-! SUPPORT. The laws of byte memories and symbol tables: read after write, the canonical form, what forgetting keeps. -/

namespace Sys2Proof.Laws

open Sys2Proof.Machine

/-! ## Cells -/

theorem cellAt_setCell_same (l : List Host.Cell) (a : Nat) (v : Byte) : cellAt (setCell l a v) a = some v := by
  induction l with
  | nil => simp [setCell, cellAt]
  | cons p rest ih =>
    obtain ⟨b, w⟩ := p
    by_cases h1 : a < b
    · simp [setCell, cellAt, h1]
    · by_cases h2 : a = b
      · simp [setCell, cellAt, h2]
      · simp [setCell, cellAt, h1, h2, ih]

theorem cellAt_setCell_other (l : List Host.Cell) {a b : Nat} (v : Byte) (h : b ≠ a) :
    cellAt (setCell l a v) b = cellAt l b := by
  induction l with
  | nil => simp [setCell, cellAt, h]
  | cons p rest ih =>
    obtain ⟨c, w⟩ := p
    by_cases h1 : a < c
    · simp [setCell, cellAt, h1, h]
    · by_cases h2 : a = c
      · subst h2; simp [setCell, cellAt, h]
      · simp [setCell, cellAt, h1, h2, ih]

theorem mem_setCell {l : List Host.Cell} {a : Nat} {v : Byte} {c : Host.Cell} (h : c ∈ setCell l a v) :
    c = (a, v) ∨ c ∈ l := by
  induction l with
  | nil => simpa [setCell] using h
  | cons p rest ih =>
    obtain ⟨b, w⟩ := p
    simp only [setCell] at h
    split_ifs at h <;> simp only [List.mem_cons] at h ⊢ <;> rcases h with h | h
    · exact .inl h
    · exact .inr h
    · exact .inl h
    · exact .inr (.inr h)
    · exact .inr (.inl h)
    · exact (ih h).imp_right .inr

theorem setCell_rising {l : List Host.Cell} (a : Nat) (v : Byte) (h : l.Pairwise (fun p q => p.1 < q.1)) :
    (setCell l a v).Pairwise (fun p q => p.1 < q.1) := by
  induction l with
  | nil => simp [setCell]
  | cons p rest ih =>
    obtain ⟨b, w⟩ := p
    rw [List.pairwise_cons] at h
    simp only [setCell]
    split_ifs with h1 h2
    · refine List.pairwise_cons.2 ⟨fun q hq => ?_, List.pairwise_cons.2 h⟩
      rcases List.mem_cons.1 hq with rfl | hq
      · exact h1
      · exact h1.trans (h.1 q hq)
    · subst h2
      exact List.pairwise_cons.2 h
    · refine List.pairwise_cons.2 ⟨fun q hq => ?_, ih h.2⟩
      rcases mem_setCell hq with rfl | hq
      · show b < a
        omega
      · exact h.1 q hq

theorem cellAt_filter_below (l : List Host.Cell) {a start : Nat} (h : a < start) :
    cellAt (l.filter (fun p => decide (p.1 < start))) a = cellAt l a := by
  induction l with
  | nil => rfl
  | cons p rest ih =>
    obtain ⟨b, w⟩ := p
    by_cases h1 : b < start
    · simp [cellAt, h1, ih]
    · have : a ≠ b := by omega
      simp [cellAt, h1, ih, this]

/-! ## Memories -/

@[simp] theorem read_write_same (id : BufId) (m : Memory) (a : Nat) (v : Byte) : (m.write a v).read id a = v := by
  simp [Memory.read, Memory.write, cellAt_setCell_same]

theorem read_write_other (id : BufId) (m : Memory) {a b : Nat} (v : Byte) (h : b ≠ a) :
    (m.write a v).read id b = m.read id b := by
  simp [Memory.read, Memory.write, cellAt_setCell_other _ _ h]

theorem read_write (id : BufId) (m : Memory) (a b : Nat) (v : Byte) :
    (m.write a v).read id b = if b = a then v else m.read id b := by
  by_cases h : b = a
  · simp [h]
  · simp [h, read_write_other]

theorem epochAt_filter_below (l : List (Nat × Nat)) {a start : Nat} (h : a < start) :
    epochAt (l.filter (fun p => decide (p.1 < start))) a = epochAt l a := by
  induction l with
  | nil => rfl
  | cons p rest ih =>
    obtain ⟨b, w⟩ := p
    by_cases h1 : b < start
    · simp [epochAt, h1, ih]
    · have : ¬ b ≤ a := by omega
      simp [epochAt, h1, ih, this]

/-- Below the address from which bytes are forgotten, every byte reads as before. -/
theorem read_forgetFrom_below (id : BufId) (m : Memory) {a start : Nat} (draw : Nat) (h : a < start) :
    (m.forgetFrom start draw).read id a = m.read id a := by
  have h' : ¬ start ≤ a := by omega
  simp [Memory.read, Memory.forgetFrom, cellAt_filter_below _ h, epochAt, h', epochAt_filter_below _ h]

theorem write_wf {m : Memory} (a : Nat) (v : Byte) (h : m.wf) : (m.write a v).wf :=
  ⟨setCell_rising a v h.1, h.2⟩

theorem forgetFrom_wf {m : Memory} (start draw : Nat) (h : m.wf) : (m.forgetFrom start draw).wf := by
  refine ⟨h.1.filter _, List.pairwise_cons.2 ⟨fun q hq => ?_, h.2.filter _⟩⟩
  simpa using (List.mem_filter.1 hq).2

theorem unspecified_wf (draw : Nat) : (Memory.unspecified draw).wf := by simp [Memory.unspecified, Memory.wf]

theorem reset_memory_wf : State.reset.ibuf.wf ∧ State.reset.obuf.wf := ⟨unspecified_wf 0, unspecified_wf 0⟩

/-- A write below a bound keeps every listed address below it. -/
theorem write_cells_lt {m : Memory} {a cap : Nat} (v : Byte) (ha : a < cap) (h : ∀ c ∈ m.cells, c.1 < cap) :
    ∀ c ∈ (m.write a v).cells, c.1 < cap := by
  intro c hc
  rcases mem_setCell hc with rfl | hc
  · exact ha
  · exact h c hc

theorem forgetFrom_cells_lt {m : Memory} {cap : Nat} (start draw : Nat) (h : ∀ c ∈ m.cells, c.1 < cap) :
    ∀ c ∈ (m.forgetFrom start draw).cells, c.1 < cap :=
  fun c hc => h c (List.mem_filter.1 hc).1

/-! ## Symbol tables -/

@[simp] theorem get_put_same {α : Type} (t : Table α) (s : Byte) (v : α) : Table.get (Table.put t s v) s = v := by
  simp [Table.get, Table.put]

theorem get_put_other {α : Type} (t : Table α) {s x : Byte} (v : α) (h : x ≠ s) :
    Table.get (Table.put t s v) x = Table.get t x := by
  have : s.toNat ≠ x.toNat := fun e => h (BitVec.eq_of_toNat_eq e.symm)
  simp [Table.get, Table.put, Vector.getElem_set_ne _ _ this]

@[simp] theorem get_replicate {α : Type} (v : α) (s : Byte) : Table.get (Vector.replicate 256 v) s = v := by
  simp [Table.get]

theorem mem_allSyms (s : Byte) : s ∈ allSyms :=
  List.mem_map.2 ⟨s.toNat, List.mem_range.2 s.isLt, by simp⟩

theorem allSyms_nodup : allSyms.Nodup := by
  refine (List.nodup_map_iff_inj_on List.nodup_range).2 fun a ha b hb h => ?_
  have ha' := List.mem_range.1 ha
  have hb' := List.mem_range.1 hb
  have := congrArg BitVec.toNat h
  simp only [BitVec.toNat_ofNat] at this
  omega

end Sys2Proof.Laws
end

