-- ==== Sys2Proof/Laws/State.lean ====
section
/-! SUPPORT. What each named update does to each field of the state, so that no proof unfolds a record update. -/

namespace Sys2Proof.Laws

open Sys2Proof.Machine

/-! ## complete -/

@[simp] theorem complete_rstN (s : State) : (complete s).rstN = s.rstN := rfl
@[simp] theorem complete_params (s : State) : (complete s).params = s.params := rfl
@[simp] theorem complete_cmd (s : State) : (complete s).cmd = s.cmd := rfl
@[simp] theorem complete_status (s : State) : (complete s).status = { s.status with busy := false, done := true } := rfl
@[simp] theorem complete_errcode (s : State) : (complete s).errcode = s.errcode := rfl
@[simp] theorem complete_errinfo (s : State) : (complete s).errinfo = s.errinfo := rfl
@[simp] theorem complete_irqEn (s : State) : (complete s).irqEn = s.irqEn := rfl
@[simp] theorem complete_regs (s : State) : (complete s).regs = s.regs := rfl
@[simp] theorem complete_freq (s : State) : (complete s).freq = s.freq := rfl
@[simp] theorem complete_node (s : State) : (complete s).node = s.node := rfl
@[simp] theorem complete_heap (s : State) : (complete s).heap = s.heap := rfl
@[simp] theorem complete_code (s : State) : (complete s).code = s.code := rfl
@[simp] theorem complete_bwAcc (s : State) : (complete s).bwAcc = s.bwAcc := rfl
@[simp] theorem complete_ibuf (s : State) : (complete s).ibuf = s.ibuf := rfl
@[simp] theorem complete_obuf (s : State) : (complete s).obuf = s.obuf := rfl
@[simp] theorem complete_regRdata (s : State) : (complete s).regRdata = s.regRdata := rfl
@[simp] theorem complete_bufRdata (s : State) : (complete s).bufRdata = s.bufRdata := rfl
@[simp] theorem complete_host (s : State) : (complete s).host = s.host := rfl
@[simp] theorem complete_draws (s : State) : (complete s).draws = s.draws := rfl

/-! ## tableChanged -/

@[simp] theorem tableChanged_rstN (s : State) : (tableChanged s).rstN = s.rstN := rfl
@[simp] theorem tableChanged_params (s : State) : (tableChanged s).params = s.params := rfl
@[simp] theorem tableChanged_cmd (s : State) : (tableChanged s).cmd = s.cmd := rfl
@[simp] theorem tableChanged_status (s : State) : (tableChanged s).status = s.status.tableChanged := rfl
@[simp] theorem tableChanged_errcode (s : State) : (tableChanged s).errcode = s.errcode := rfl
@[simp] theorem tableChanged_errinfo (s : State) : (tableChanged s).errinfo = s.errinfo := rfl
@[simp] theorem tableChanged_irqEn (s : State) : (tableChanged s).irqEn = s.irqEn := rfl
@[simp] theorem tableChanged_regs (s : State) : (tableChanged s).regs = s.regs := rfl
@[simp] theorem tableChanged_freq (s : State) : (tableChanged s).freq = s.freq := rfl
@[simp] theorem tableChanged_node (s : State) : (tableChanged s).node = s.node := rfl
@[simp] theorem tableChanged_heap (s : State) : (tableChanged s).heap = s.heap := rfl
@[simp] theorem tableChanged_code (s : State) : (tableChanged s).code = s.code := rfl
@[simp] theorem tableChanged_bwAcc (s : State) : (tableChanged s).bwAcc = s.bwAcc := rfl
@[simp] theorem tableChanged_ibuf (s : State) : (tableChanged s).ibuf = s.ibuf := rfl
@[simp] theorem tableChanged_obuf (s : State) : (tableChanged s).obuf = s.obuf := rfl
@[simp] theorem tableChanged_regRdata (s : State) : (tableChanged s).regRdata = s.regRdata := rfl
@[simp] theorem tableChanged_bufRdata (s : State) : (tableChanged s).bufRdata = s.bufRdata := rfl
@[simp] theorem tableChanged_host (s : State) : (tableChanged s).host = s.host := rfl
@[simp] theorem tableChanged_draws (s : State) : (tableChanged s).draws = s.draws := rfl

/-! ## accept -/

@[simp] theorem accept_rstN (w : Word) (s : State) : (accept w s).rstN = s.rstN := rfl
@[simp] theorem accept_params (w : Word) (s : State) : (accept w s).params = s.params := rfl
@[simp] theorem accept_cmd (w : Word) (s : State) : (accept w s).cmd = w := rfl
@[simp] theorem accept_status (w : Word) (s : State) : (accept w s).status = s.status.accepted := rfl
@[simp] theorem accept_errcode (w : Word) (s : State) : (accept w s).errcode = s.errcode := rfl
@[simp] theorem accept_errinfo (w : Word) (s : State) : (accept w s).errinfo = s.errinfo := rfl
@[simp] theorem accept_irqEn (w : Word) (s : State) : (accept w s).irqEn = s.irqEn := rfl
@[simp] theorem accept_regs (w : Word) (s : State) : (accept w s).regs = s.regs := rfl
@[simp] theorem accept_freq (w : Word) (s : State) : (accept w s).freq = s.freq := rfl
@[simp] theorem accept_node (w : Word) (s : State) : (accept w s).node = s.node := rfl
@[simp] theorem accept_heap (w : Word) (s : State) : (accept w s).heap = s.heap := rfl
@[simp] theorem accept_code (w : Word) (s : State) : (accept w s).code = s.code := rfl
@[simp] theorem accept_bwAcc (w : Word) (s : State) : (accept w s).bwAcc = s.bwAcc := rfl
@[simp] theorem accept_ibuf (w : Word) (s : State) : (accept w s).ibuf = s.ibuf := rfl
@[simp] theorem accept_obuf (w : Word) (s : State) : (accept w s).obuf = s.obuf := rfl
@[simp] theorem accept_regRdata (w : Word) (s : State) : (accept w s).regRdata = s.regRdata := rfl
@[simp] theorem accept_bufRdata (w : Word) (s : State) : (accept w s).bufRdata = s.bufRdata := rfl
@[simp] theorem accept_host (w : Word) (s : State) : (accept w s).host = s.host := rfl
@[simp] theorem accept_draws (w : Word) (s : State) : (accept w s).draws = s.draws := rfl

/-! ## withTree -/

@[simp] theorem withTree_rstN (s : State) (t : Tree) : (s.withTree t).rstN = s.rstN := rfl
@[simp] theorem withTree_params (s : State) (t : Tree) : (s.withTree t).params = s.params := rfl
@[simp] theorem withTree_cmd (s : State) (t : Tree) : (s.withTree t).cmd = s.cmd := rfl
@[simp] theorem withTree_status (s : State) (t : Tree) : (s.withTree t).status = s.status.treeBuilt t.empty := rfl
@[simp] theorem withTree_errcode (s : State) (t : Tree) : (s.withTree t).errcode = s.errcode := rfl
@[simp] theorem withTree_errinfo (s : State) (t : Tree) : (s.withTree t).errinfo = s.errinfo := rfl
@[simp] theorem withTree_irqEn (s : State) (t : Tree) : (s.withTree t).irqEn = s.irqEn := rfl
@[simp] theorem withTree_regs (s : State) (t : Tree) : (s.withTree t).regs = { s.regs with root := t.root } := rfl
@[simp] theorem withTree_freq (s : State) (t : Tree) : (s.withTree t).freq = s.freq := rfl
@[simp] theorem withTree_node (s : State) (t : Tree) : (s.withTree t).node = t.node := rfl
@[simp] theorem withTree_heap (s : State) (t : Tree) : (s.withTree t).heap = [] := rfl
@[simp] theorem withTree_code (s : State) (t : Tree) : (s.withTree t).code = s.code := rfl
@[simp] theorem withTree_bwAcc (s : State) (t : Tree) : (s.withTree t).bwAcc = s.bwAcc := rfl
@[simp] theorem withTree_ibuf (s : State) (t : Tree) : (s.withTree t).ibuf = s.ibuf := rfl
@[simp] theorem withTree_obuf (s : State) (t : Tree) : (s.withTree t).obuf = s.obuf := rfl
@[simp] theorem withTree_regRdata (s : State) (t : Tree) : (s.withTree t).regRdata = s.regRdata := rfl
@[simp] theorem withTree_bufRdata (s : State) (t : Tree) : (s.withTree t).bufRdata = s.bufRdata := rfl
@[simp] theorem withTree_host (s : State) (t : Tree) : (s.withTree t).host = s.host := rfl
@[simp] theorem withTree_draws (s : State) (t : Tree) : (s.withTree t).draws = s.draws := rfl

/-! ## bwReset -/

@[simp] theorem bwReset_rstN (s : State) : (bwReset s).rstN = s.rstN := rfl
@[simp] theorem bwReset_params (s : State) : (bwReset s).params = s.params := rfl
@[simp] theorem bwReset_cmd (s : State) : (bwReset s).cmd = s.cmd := rfl
@[simp] theorem bwReset_status (s : State) : (bwReset s).status = { s.status with bwFlushed := false } := rfl
@[simp] theorem bwReset_errcode (s : State) : (bwReset s).errcode = s.errcode := rfl
@[simp] theorem bwReset_errinfo (s : State) : (bwReset s).errinfo = s.errinfo := rfl
@[simp] theorem bwReset_irqEn (s : State) : (bwReset s).irqEn = s.irqEn := rfl
@[simp] theorem bwReset_regs (s : State) : (bwReset s).regs = { s.regs with bwBits := 0, outLen := 0 } := rfl
@[simp] theorem bwReset_freq (s : State) : (bwReset s).freq = s.freq := rfl
@[simp] theorem bwReset_node (s : State) : (bwReset s).node = s.node := rfl
@[simp] theorem bwReset_heap (s : State) : (bwReset s).heap = s.heap := rfl
@[simp] theorem bwReset_code (s : State) : (bwReset s).code = s.code := rfl
@[simp] theorem bwReset_bwAcc (s : State) : (bwReset s).bwAcc = 0 := rfl
@[simp] theorem bwReset_ibuf (s : State) : (bwReset s).ibuf = s.ibuf := rfl
@[simp] theorem bwReset_obuf (s : State) : (bwReset s).obuf = s.obuf := rfl
@[simp] theorem bwReset_regRdata (s : State) : (bwReset s).regRdata = s.regRdata := rfl
@[simp] theorem bwReset_bufRdata (s : State) : (bwReset s).bufRdata = s.bufRdata := rfl
@[simp] theorem bwReset_host (s : State) : (bwReset s).host = s.host := rfl
@[simp] theorem bwReset_draws (s : State) : (bwReset s).draws = s.draws := rfl

/-! ## forgetAboveOutLen -/

@[simp] theorem forgetAboveOutLen_rstN (s : State) : (forgetAboveOutLen s).rstN = s.rstN := rfl
@[simp] theorem forgetAboveOutLen_params (s : State) : (forgetAboveOutLen s).params = s.params := rfl
@[simp] theorem forgetAboveOutLen_cmd (s : State) : (forgetAboveOutLen s).cmd = s.cmd := rfl
@[simp] theorem forgetAboveOutLen_status (s : State) : (forgetAboveOutLen s).status = s.status := rfl
@[simp] theorem forgetAboveOutLen_errcode (s : State) : (forgetAboveOutLen s).errcode = s.errcode := rfl
@[simp] theorem forgetAboveOutLen_errinfo (s : State) : (forgetAboveOutLen s).errinfo = s.errinfo := rfl
@[simp] theorem forgetAboveOutLen_irqEn (s : State) : (forgetAboveOutLen s).irqEn = s.irqEn := rfl
@[simp] theorem forgetAboveOutLen_regs (s : State) : (forgetAboveOutLen s).regs = s.regs := rfl
@[simp] theorem forgetAboveOutLen_freq (s : State) : (forgetAboveOutLen s).freq = s.freq := rfl
@[simp] theorem forgetAboveOutLen_node (s : State) : (forgetAboveOutLen s).node = s.node := rfl
@[simp] theorem forgetAboveOutLen_heap (s : State) : (forgetAboveOutLen s).heap = s.heap := rfl
@[simp] theorem forgetAboveOutLen_code (s : State) : (forgetAboveOutLen s).code = s.code := rfl
@[simp] theorem forgetAboveOutLen_bwAcc (s : State) : (forgetAboveOutLen s).bwAcc = s.bwAcc := rfl
@[simp] theorem forgetAboveOutLen_ibuf (s : State) : (forgetAboveOutLen s).ibuf = s.ibuf := rfl
@[simp] theorem forgetAboveOutLen_obuf (s : State) : (forgetAboveOutLen s).obuf = s.obuf.forgetFrom s.regs.outLen.toNat s.draws := rfl
@[simp] theorem forgetAboveOutLen_regRdata (s : State) : (forgetAboveOutLen s).regRdata = s.regRdata := rfl
@[simp] theorem forgetAboveOutLen_bufRdata (s : State) : (forgetAboveOutLen s).bufRdata = s.bufRdata := rfl
@[simp] theorem forgetAboveOutLen_host (s : State) : (forgetAboveOutLen s).host = s.host := rfl
@[simp] theorem forgetAboveOutLen_draws (s : State) : (forgetAboveOutLen s).draws = s.draws + 1 := rfl

/-! ## decStart -/

@[simp] theorem decStart_rstN (s : State) : (decStart s).rstN = s.rstN := rfl
@[simp] theorem decStart_params (s : State) : (decStart s).params = s.params := rfl
@[simp] theorem decStart_cmd (s : State) : (decStart s).cmd = s.cmd := rfl
@[simp] theorem decStart_status (s : State) : (decStart s).status = { s.status with decShort := false } := rfl
@[simp] theorem decStart_errcode (s : State) : (decStart s).errcode = s.errcode := rfl
@[simp] theorem decStart_errinfo (s : State) : (decStart s).errinfo = s.errinfo := rfl
@[simp] theorem decStart_irqEn (s : State) : (decStart s).irqEn = s.irqEn := rfl
@[simp] theorem decStart_regs (s : State) : (decStart s).regs = { s.regs with brPos := 0 } := rfl
@[simp] theorem decStart_freq (s : State) : (decStart s).freq = s.freq := rfl
@[simp] theorem decStart_node (s : State) : (decStart s).node = s.node := rfl
@[simp] theorem decStart_heap (s : State) : (decStart s).heap = s.heap := rfl
@[simp] theorem decStart_code (s : State) : (decStart s).code = s.code := rfl
@[simp] theorem decStart_bwAcc (s : State) : (decStart s).bwAcc = s.bwAcc := rfl
@[simp] theorem decStart_ibuf (s : State) : (decStart s).ibuf = s.ibuf := rfl
@[simp] theorem decStart_obuf (s : State) : (decStart s).obuf = s.obuf := rfl
@[simp] theorem decStart_regRdata (s : State) : (decStart s).regRdata = s.regRdata := rfl
@[simp] theorem decStart_bufRdata (s : State) : (decStart s).bufRdata = s.bufRdata := rfl
@[simp] theorem decStart_host (s : State) : (decStart s).host = s.host := rfl
@[simp] theorem decStart_draws (s : State) : (decStart s).draws = s.draws := rfl

/-! ## decDone -/

@[simp] theorem decDone_rstN (n : Word) (s : State) : (decDone n s).rstN = s.rstN := rfl
@[simp] theorem decDone_params (n : Word) (s : State) : (decDone n s).params = s.params := rfl
@[simp] theorem decDone_cmd (n : Word) (s : State) : (decDone n s).cmd = s.cmd := rfl
@[simp] theorem decDone_status (n : Word) (s : State) : (decDone n s).status = { s.status with decShort := decide (n < s.regs.origSize) } := rfl
@[simp] theorem decDone_errcode (n : Word) (s : State) : (decDone n s).errcode = s.errcode := rfl
@[simp] theorem decDone_errinfo (n : Word) (s : State) : (decDone n s).errinfo = s.errinfo := rfl
@[simp] theorem decDone_irqEn (n : Word) (s : State) : (decDone n s).irqEn = s.irqEn := rfl
@[simp] theorem decDone_regs (n : Word) (s : State) : (decDone n s).regs = { s.regs with outLen := n } := rfl
@[simp] theorem decDone_freq (n : Word) (s : State) : (decDone n s).freq = s.freq := rfl
@[simp] theorem decDone_node (n : Word) (s : State) : (decDone n s).node = s.node := rfl
@[simp] theorem decDone_heap (n : Word) (s : State) : (decDone n s).heap = s.heap := rfl
@[simp] theorem decDone_code (n : Word) (s : State) : (decDone n s).code = s.code := rfl
@[simp] theorem decDone_bwAcc (n : Word) (s : State) : (decDone n s).bwAcc = s.bwAcc := rfl
@[simp] theorem decDone_ibuf (n : Word) (s : State) : (decDone n s).ibuf = s.ibuf := rfl
@[simp] theorem decDone_obuf (n : Word) (s : State) : (decDone n s).obuf = s.obuf.forgetFrom n.toNat s.draws := rfl
@[simp] theorem decDone_regRdata (n : Word) (s : State) : (decDone n s).regRdata = s.regRdata := rfl
@[simp] theorem decDone_bufRdata (n : Word) (s : State) : (decDone n s).bufRdata = s.bufRdata := rfl
@[simp] theorem decDone_host (n : Word) (s : State) : (decDone n s).host = s.host := rfl
@[simp] theorem decDone_draws (n : Word) (s : State) : (decDone n s).draws = s.draws + 1 := rfl

/-! ## errorCompletion -/

@[simp] theorem errorCompletion_rstN (r : Raise) (s : State) : (errorCompletion r s).rstN = s.rstN := rfl
@[simp] theorem errorCompletion_params (r : Raise) (s : State) : (errorCompletion r s).params = s.params := rfl
@[simp] theorem errorCompletion_cmd (r : Raise) (s : State) : (errorCompletion r s).cmd = Config.free s.draws .latched 64 := rfl
@[simp] theorem errorCompletion_status (r : Raise) (s : State) : (errorCompletion r s).status = s.status.failed := rfl
@[simp] theorem errorCompletion_errcode (r : Raise) (s : State) : (errorCompletion r s).errcode = r.code.code := rfl
@[simp] theorem errorCompletion_errinfo (r : Raise) (s : State) : (errorCompletion r s).errinfo = r.info := rfl
@[simp] theorem errorCompletion_irqEn (r : Raise) (s : State) : (errorCompletion r s).irqEn = s.irqEn := rfl
@[simp] theorem errorCompletion_regs (r : Raise) (s : State) : (errorCompletion r s).regs = .unspecified s.draws := rfl
@[simp] theorem errorCompletion_freq (r : Raise) (s : State) : (errorCompletion r s).freq = unspecifiedFreq s.draws := rfl
@[simp] theorem errorCompletion_node (r : Raise) (s : State) : (errorCompletion r s).node = unspecifiedNodes s.draws := rfl
@[simp] theorem errorCompletion_heap (r : Raise) (s : State) : (errorCompletion r s).heap = unspecifiedHeap s.draws := rfl
@[simp] theorem errorCompletion_code (r : Raise) (s : State) : (errorCompletion r s).code = unspecifiedCodes s.draws := rfl
@[simp] theorem errorCompletion_bwAcc (r : Raise) (s : State) : (errorCompletion r s).bwAcc = Config.free s.draws .acc 8 := rfl
@[simp] theorem errorCompletion_ibuf (r : Raise) (s : State) : (errorCompletion r s).ibuf = s.ibuf := rfl
@[simp] theorem errorCompletion_obuf (r : Raise) (s : State) : (errorCompletion r s).obuf = .unspecified s.draws := rfl
@[simp] theorem errorCompletion_regRdata (r : Raise) (s : State) : (errorCompletion r s).regRdata = s.regRdata := rfl
@[simp] theorem errorCompletion_bufRdata (r : Raise) (s : State) : (errorCompletion r s).bufRdata = s.bufRdata := rfl
@[simp] theorem errorCompletion_host (r : Raise) (s : State) : (errorCompletion r s).host = s.host := rfl
@[simp] theorem errorCompletion_draws (r : Raise) (s : State) : (errorCompletion r s).draws = s.draws + 1 := rfl

/-! ## sessionReset -/

@[simp] theorem sessionReset_rstN (s : State) : (sessionReset s).rstN = s.rstN := rfl
@[simp] theorem sessionReset_params (s : State) : (sessionReset s).params = s.params := rfl
@[simp] theorem sessionReset_cmd (s : State) : (sessionReset s).cmd = 0 := rfl
@[simp] theorem sessionReset_status (s : State) : (sessionReset s).status = .reset := rfl
@[simp] theorem sessionReset_errcode (s : State) : (sessionReset s).errcode = 0 := rfl
@[simp] theorem sessionReset_errinfo (s : State) : (sessionReset s).errinfo = 0 := rfl
@[simp] theorem sessionReset_irqEn (s : State) : (sessionReset s).irqEn = s.irqEn := rfl
@[simp] theorem sessionReset_regs (s : State) : (sessionReset s).regs = .reset := rfl
@[simp] theorem sessionReset_freq (s : State) : (sessionReset s).freq = Vector.replicate 256 0 := rfl
@[simp] theorem sessionReset_node (s : State) : (sessionReset s).node = [] := rfl
@[simp] theorem sessionReset_heap (s : State) : (sessionReset s).heap = [] := rfl
@[simp] theorem sessionReset_code (s : State) : (sessionReset s).code = Vector.replicate 256 [] := rfl
@[simp] theorem sessionReset_bwAcc (s : State) : (sessionReset s).bwAcc = 0 := rfl
@[simp] theorem sessionReset_ibuf (s : State) : (sessionReset s).ibuf = s.ibuf := rfl
@[simp] theorem sessionReset_obuf (s : State) : (sessionReset s).obuf = s.obuf := rfl
@[simp] theorem sessionReset_regRdata (s : State) : (sessionReset s).regRdata = s.regRdata := rfl
@[simp] theorem sessionReset_bufRdata (s : State) : (sessionReset s).bufRdata = s.bufRdata := rfl
@[simp] theorem sessionReset_host (s : State) : (sessionReset s).host = s.host := rfl
@[simp] theorem sessionReset_draws (s : State) : (sessionReset s).draws = s.draws := rfl

/-! ## hardReset -/

@[simp] theorem hardReset_rstN (s : State) : (hardReset s).rstN = false := rfl
@[simp] theorem hardReset_params (s : State) : (hardReset s).params = s.params := rfl
@[simp] theorem hardReset_cmd (s : State) : (hardReset s).cmd = 0 := rfl
@[simp] theorem hardReset_status (s : State) : (hardReset s).status = .reset := rfl
@[simp] theorem hardReset_errcode (s : State) : (hardReset s).errcode = 0 := rfl
@[simp] theorem hardReset_errinfo (s : State) : (hardReset s).errinfo = 0 := rfl
@[simp] theorem hardReset_irqEn (s : State) : (hardReset s).irqEn = 0 := rfl
@[simp] theorem hardReset_regs (s : State) : (hardReset s).regs = .reset := rfl
@[simp] theorem hardReset_freq (s : State) : (hardReset s).freq = Vector.replicate 256 0 := rfl
@[simp] theorem hardReset_node (s : State) : (hardReset s).node = [] := rfl
@[simp] theorem hardReset_heap (s : State) : (hardReset s).heap = [] := rfl
@[simp] theorem hardReset_code (s : State) : (hardReset s).code = Vector.replicate 256 [] := rfl
@[simp] theorem hardReset_bwAcc (s : State) : (hardReset s).bwAcc = 0 := rfl
@[simp] theorem hardReset_ibuf (s : State) : (hardReset s).ibuf = .unspecified s.draws := rfl
@[simp] theorem hardReset_obuf (s : State) : (hardReset s).obuf = .unspecified s.draws := rfl
@[simp] theorem hardReset_regRdata (s : State) : (hardReset s).regRdata = s.regRdata := rfl
@[simp] theorem hardReset_bufRdata (s : State) : (hardReset s).bufRdata = s.bufRdata := rfl
@[simp] theorem hardReset_host (s : State) : (hardReset s).host = s.host := rfl
@[simp] theorem hardReset_draws (s : State) : (hardReset s).draws = s.draws + 1 := rfl

end Sys2Proof.Laws
end

