-- ==== Sys2Proof/Laws/Ops.lean ====
section
/-! SUPPORT. What each shared operation can do: how a command completes, what a loop keeps, the checked accesses, the
counting, writing and reading of one item. -/

namespace Sys2Proof.Laws

open Sys2Proof.Machine

/-! ## Completions -/

/-- A command always completes, normally or in error. -/
theorem finish_next {s t : State} {r : Except Raise State} (h : finish s r = .next t) :
    (∃ u, r = .ok u ∧ t = complete u) ∨ ∃ e, r = .error e ∧ t = errorCompletion e s := by
  cases r with
  | ok u => exact .inl ⟨u, rfl, by simpa [finish] using h.symm⟩
  | error e => exact .inr ⟨e, rfl, by simpa [finish] using h.symm⟩

theorem finish_total (s : State) (r : Except Raise State) : ∃ t, finish s r = .next t := by
  cases r <;> exact ⟨_, rfl⟩

/-- The pseudocode of each command, whose completion `exec` is. -/
def body : Instr → State → Except Raise State
  | .nop, s => .ok s
  | .sessionReset, s => .ok (sessionReset s)
  | .ftClear, s => .ok (tableChanged { s with freq := Vector.replicate 256 0 })
  | .ftAcc sym, s => ftAcc sym (tableChanged s)
  | .ftAccbuf, s => ftAccbuf s
  | .ftLoad sym, s => .ok (tableChanged { s with freq := Table.put s.freq sym s.regs.fdata })
  | .ftRead sym, s => .ok { s with regs := { s.regs with fdata := s.freqOf sym } }
  | .tbBuild, s => tbBuild s
  | .ndRead idx, s => requires s.status.treeValid (readNode idx) s
  | .ctDerive, s => requires s.status.treeValid deriveCodes s
  | .ctRead sym, s => requires s.status.codesValid (readCode sym) s
  | .bwReset, s => .ok (bwReset s)
  | .bwPut bit, s => bwPut bit s
  | .bwPutsym sym, s => requires s.status.codesValid (bwPutsym sym) s
  | .bwFlush, s => bwFlush s
  | .brReset, s => .ok { s with regs := { s.regs with brPos := 0, bitval := 0 } }
  | .brGet, s => readBit s
  | .encRun, s => requires s.status.codesValid encRun s
  | .decRun, s => requires s.status.treeValid decRun s

/-- The inversion of the dispatch: every command is the completion of its body. -/
theorem exec_eq_finish (i : Instr) (s : State) : exec i s = finish s (body i s) := by
  cases i <;> rfl

theorem errorCompletion_failedWith (c : ErrCode) (info : Word) (s : State) :
    FailedWith c info s (errorCompletion { code := c, info := info } s) := by
  constructor <;> first | rfl | exact ⟨rfl, rfl⟩

theorem requires_ok {flag : Bool} {body : State → Except Raise State} {s t : State}
    (h : requires flag body s = .ok t) : flag = true ∧ body s = .ok t := by
  cases flag
  · simp [requires] at h
  · exact ⟨rfl, by simpa [requires] using h⟩

theorem requires_error {flag : Bool} {body : State → Except Raise State} {s : State} {r : Raise}
    (h : requires flag body s = .error r) :
    (flag = false ∧ r = { code := .seq, info := s.cmd }) ∨ (flag = true ∧ body s = .error r) := by
  cases flag
  · exact .inl ⟨rfl, by simpa [requires] using h.symm⟩
  · exact .inr ⟨rfl, by simpa [requires] using h⟩

/-! ## Loops -/

/-- A property that every iteration keeps holds after the loop. -/
theorem forUp_invariant {σ : Type} (P : σ → Prop) {body : Nat → σ → Except Raise σ}
    (hb : ∀ i s t, P s → body i s = .ok t → P t) :
    ∀ (count first : Nat) (s t : σ), P s → forUp body count first s = .ok t → P t
  | 0, _, s, t, hs, h => by
    simp only [forUp, Except.ok.injEq] at h
    exact h ▸ hs
  | count + 1, first, s, t, hs, h => by
    simp only [forUp] at h
    cases hbs : body first s with
    | error r => simp [hbs] at h
    | ok u =>
      rw [hbs] at h
      exact forUp_invariant P hb count (first + 1) u t (hb _ _ _ hs hbs) h

/-- A loop's error is the error of one of its iterations, from a state that keeps the property. -/
theorem forUp_error {σ : Type} (P : σ → Prop) {body : Nat → σ → Except Raise σ}
    (hb : ∀ i s t, P s → body i s = .ok t → P t) :
    ∀ (count first : Nat) (s : σ) (r : Raise), P s → forUp body count first s = .error r →
      ∃ i u, first ≤ i ∧ i < first + count ∧ P u ∧ body i u = .error r
  | 0, _, _, _, _, h => by simp [forUp] at h
  | count + 1, first, s, r, hs, h => by
    simp only [forUp] at h
    cases hbs : body first s with
    | error e =>
      rw [hbs] at h
      exact ⟨first, s, le_refl _, by omega, hs, by simpa [hbs] using h⟩
    | ok u =>
      rw [hbs] at h
      obtain ⟨i, v, h1, h2, h3, h4⟩ := forUp_error P hb count (first + 1) u r (hb _ _ _ hs hbs) h
      exact ⟨i, v, by omega, by omega, h3, h4⟩

/-! ## Checked accesses -/

theorem ibufGet_ok {i : Word} {s : State} {v : Byte} (h : ibufGet i s = .ok v) :
    i.toNat < s.regs.inLen.toNat ∧ i.toNat < s.params.ibufCap ∧ v = s.ibuf.read .ibuf i.toNat := by
  unfold ibufGet at h
  split_ifs at h with hc
  rw [not_or] at hc
  exact ⟨by omega, by omega, by simpa using h.symm⟩

theorem ibufGet_error {i : Word} {s : State} {r : Raise} (h : ibufGet i s = .error r) :
    (s.regs.inLen.toNat ≤ i.toNat ∨ s.params.ibufCap ≤ i.toNat) ∧ r = { code := .ibufRange, info := i } := by
  unfold ibufGet at h
  split_ifs at h with hc
  exact ⟨hc, by simpa using h.symm⟩

theorem obufPut_ok {i : Word} {v : Byte} {s t : State} (h : obufPut i v s = .ok t) :
    i.toNat < s.params.obufCap ∧ t = { s with obuf := s.obuf.write i.toNat v } := by
  unfold obufPut at h
  split_ifs at h with hc
  exact ⟨by omega, by simpa using h.symm⟩

theorem obufPut_error {i : Word} {v : Byte} {s : State} {r : Raise} (h : obufPut i v s = .error r) :
    s.params.obufCap ≤ i.toNat ∧ r = { code := .obufFull, info := i } := by
  unfold obufPut at h
  split_ifs at h with hc
  exact ⟨hc, by simpa using h.symm⟩

/-! ## One count, one bit -/

theorem ftAcc_ok {sym : Byte} {s t : State} (h : ftAcc sym s = .ok t) :
    s.freqOf sym ≠ BitVec.allOnes 64 ∧ t = { s with freq := Table.put s.freq sym (s.freqOf sym + 1) } := by
  unfold ftAcc at h
  split_ifs at h with hc
  exact ⟨hc, by simpa using h.symm⟩

theorem ftAcc_error {sym : Byte} {s : State} {r : Raise} (h : ftAcc sym s = .error r) :
    s.freqOf sym = BitVec.allOnes 64 ∧ r = { code := .cntOvf, info := sym.setWidth 64 } := by
  unfold ftAcc at h
  split_ifs at h with hc
  exact ⟨hc, by simpa using h.symm⟩

/-- Everything `bw_put` can do when it does not raise. -/
theorem bwPut_ok {b : Bool} {s t : State} (h : bwPut b s = .ok t) :
    s.status.bwFlushed = false ∧
      t = { s with
        bwAcc := accWith s.bwAcc (s.regs.bwBits &&& 7) b
        regs := { s.regs with bwBits := s.regs.bwBits + 1 }
        obuf := if s.regs.bwBits &&& 7 = 7 then
            s.obuf.write (s.regs.bwBits >>> 3).toNat (accWith s.bwAcc (s.regs.bwBits &&& 7) b)
          else s.obuf } := by
  simp only [bwPut] at h
  split_ifs at h with h1 h2 h3
  · obtain ⟨-, rfl⟩ := obufPut_ok h
    exact ⟨by simpa using h1, by rw [if_pos h3]⟩
  · rw [Except.ok.injEq] at h
    subst h
    exact ⟨by simpa using h1, by rw [if_neg h3]⟩

/-- What `bw_put` raises: `E_SEQ` after a flush, else `E_OBUF_FULL`. -/
theorem bwPut_error {b : Bool} {s : State} {r : Raise} (h : bwPut b s = .error r) :
    (s.status.bwFlushed = true ∧ r = { code := .seq, info := s.cmd }) ∨
      (s.status.bwFlushed = false ∧ s.params.obufCap ≤ (s.regs.bwBits >>> 3).toNat ∧
        r = { code := .obufFull, info := s.regs.bwBits >>> 3 }) := by
  simp only [bwPut] at h
  split_ifs at h with h1 h2 h3
  · exact .inl ⟨h1, by simpa using h.symm⟩
  · exact .inr ⟨by simpa using h1, h2.2, by simpa using h.symm⟩
  · obtain ⟨hc, rfl⟩ := obufPut_error h
    exact .inr ⟨by simpa using h1, hc, rfl⟩

/-- What one `bw_put` keeps, a run of them keeps. -/
theorem bwPutAll_invariant (P : State → Prop) (hb : ∀ b s t, P s → bwPut b s = .ok t → P t) :
    ∀ (bs : Bits) (s t : State), P s → bwPutAll bs s = .ok t → P t
  | [], s, t, hs, h => by
    simp only [bwPutAll, Except.ok.injEq] at h
    exact h ▸ hs
  | b :: rest, s, t, hs, h => by
    simp only [bwPutAll] at h
    cases hbs : bwPut b s with
    | error r => simp [hbs] at h
    | ok u =>
      rw [hbs] at h
      exact bwPutAll_invariant P hb rest u t (hb _ _ _ hs hbs) h

/-- Everything `br_get` can do when it does not raise. -/
theorem brGet_ok {s t : State} {b : Bool} (h : brGet s = .ok (b, t)) :
    s.regs.brPos < s.regs.totalBits ∧ (s.regs.brPos >>> 3).toNat < s.regs.inLen.toNat ∧
      (s.regs.brPos >>> 3).toNat < s.params.ibufCap ∧
      b = bitOfByte (s.ibuf.read .ibuf (s.regs.brPos >>> 3).toNat) s.regs.brPos ∧
      t = { s with regs := { s.regs with brPos := s.regs.brPos + 1 } } := by
  simp only [brGet] at h
  split_ifs at h with h1
  cases hg : ibufGet (s.regs.brPos >>> 3) s with
  | error r => simp [hg] at h
  | ok v =>
    obtain ⟨h2, h3, rfl⟩ := ibufGet_ok hg
    simp only [hg, Except.ok.injEq, Prod.mk.injEq] at h
    exact ⟨BitVec.not_le.1 h1, h2, h3, h.1.symm, h.2.symm⟩

theorem brGet_error {s : State} {r : Raise} (h : brGet s = .error r) :
    (s.regs.totalBits ≤ s.regs.brPos ∧ r = { code := .brEnd, info := s.regs.brPos }) ∨
      (s.regs.brPos < s.regs.totalBits ∧ r = { code := .ibufRange, info := s.regs.brPos >>> 3 }) := by
  simp only [brGet] at h
  split_ifs at h with h1
  · exact .inl ⟨h1, by simpa using h.symm⟩
  · cases hg : ibufGet (s.regs.brPos >>> 3) s with
    | error e =>
      obtain ⟨-, rfl⟩ := ibufGet_error hg
      exact .inr ⟨BitVec.not_le.1 h1, by simpa [hg] using h.symm⟩
    | ok v => simp [hg] at h

/-- `bw_flush` when it does not raise: the partial byte stored, `OUT_LEN` and `BW_FLUSHED` written, the rest of `OBUF`
forgotten. -/
theorem bwFlush_ok {s t : State} (h : bwFlush s = .ok t) :
    s.status.bwFlushed = false ∧
      ∃ m, (m = s.obuf ∧ s.regs.bwBits &&& 7 = 0 ∨
          m = s.obuf.write (s.regs.bwBits >>> 3).toNat s.bwAcc ∧ s.regs.bwBits &&& 7 ≠ 0 ∧
            (s.regs.bwBits >>> 3).toNat < s.params.obufCap) ∧
        t = { s with
          obuf := m.forgetFrom (ceil8 s.regs.bwBits).toNat s.draws
          draws := s.draws + 1
          regs := { s.regs with outLen := ceil8 s.regs.bwBits }
          status := { s.status with bwFlushed := true } } := by
  simp only [bwFlush] at h
  split_ifs at h with h1
  refine ⟨by simpa using h1, ?_⟩
  cases hp : storePartial s with
  | error r => simp [hp] at h
  | ok u =>
    simp only [hp, Except.ok.injEq] at h
    unfold storePartial at hp
    split_ifs at hp with h2
    · rw [Except.ok.injEq] at hp
      exact ⟨s.obuf, .inl ⟨rfl, h2⟩, by rw [← h, ← hp]; rfl⟩
    · obtain ⟨h3, rfl⟩ := obufPut_ok hp
      exact ⟨_, .inr ⟨rfl, h2, h3⟩, by rw [← h]; rfl⟩

/-! ## The step -/

/-- A step is the sequencer's completion or the host's access. -/
theorem step_cases {s t : State} (h : step s = .next t) :
    (s.rstN = true ∧ s.status.busy = true ∧ s.hostYields = true ∧ perform s = .next t) ∨
      ((s.rstN = false ∨ s.status.busy = false ∨ s.hostYields = false) ∧ t = hostTurn s) := by
  unfold step State.sequencerMoves at h
  split_ifs at h with hc
  · rw [Bool.and_eq_true, Bool.and_eq_true] at hc
    exact .inl ⟨hc.1.1, hc.1.2, hc.2, h⟩
  · refine .inr ⟨?_, by simpa using h.symm⟩
    cases h0 : s.rstN <;> cases h1 : s.status.busy <;> cases h2 : s.hostYields <;> simp_all

theorem perform_next {s t : State} (h : perform s = .next t) :
    (∃ i, decode s.cmd = .ok i ∧ exec i s = .next t) ∨
      ∃ e, decode s.cmd = .error e ∧ t = errorCompletion { code := .illegalCmd, info := s.cmd } s := by
  unfold perform fetch at h
  cases hd : decode s.cmd with
  | ok i => exact .inl ⟨i, rfl, by simpa [hd] using h⟩
  | error e => exact .inr ⟨e, rfl, by simpa [hd, finish] using h.symm⟩

end Sys2Proof.Laws
end

