-- ==== Sys2Proof/Laws/Script.lean ====
section
/-! SUPPORT. When a script stops: the host's accesses never set `ERR`, so where `ERR` rises a command has completed in
error (10 R17, 30 R67). -/

namespace Sys2Proof.Laws

open Sys2Proof.Machine

theorem completedInError_iff (s t : State) :
    completedInError s t = true ↔ s.status.err = false ∧ t.status.err = true := by
  simp [completedInError]

@[simp] theorem issue_err (w : Word) (s : State) : (issue w s).status.err = s.status.err := by
  unfold issue
  split_ifs <;> rfl

@[simp] theorem writeData_status (f : DataRegs → DataRegs) (s : State) : (writeData f s).status = s.status := by
  unfold writeData
  split_ifs <;> rfl

@[simp] theorem hostRegWrite_err (idx : BitVec 8) (v : Word) (s : State) :
    (hostRegWrite idx v s).status.err = s.status.err := by
  unfold hostRegWrite
  split <;> simp [Status.clearedBy]

@[simp] theorem hostRegRead_status (idx : BitVec 8) (s : State) : (hostRegRead idx s).status = s.status := by
  unfold hostRegRead
  split
  · rfl
  · split_ifs <;> rfl

@[simp] theorem hostBufWrite_status (id : BufId) (a : Word) (v : Byte) (s : State) :
    (hostBufWrite id a v s).status = s.status := by
  unfold hostBufWrite
  split_ifs
  · rfl
  · cases id <;> rfl

@[simp] theorem hostBufRead_status (id : BufId) (a : Word) (s : State) : (hostBufRead id a s).status = s.status := by
  unfold hostBufRead
  split_ifs <;> rfl

/-- A property of writes holds of them while `rst_n` is low too, when it holds of leaving the state alone. -/
theorem unlessReset_induct {P : State → Prop} {write : State → State} {s : State} (hs : P s) (hw : P (write s)) :
    P (unlessReset write s) := by
  unfold unlessReset
  split_ifs
  · exact hw
  · exact hs

/-- While `rst_n` is low a write has no effect. -/
theorem unlessReset_low (write : State → State) {s : State} (h : s.rstN = false) : unlessReset write s = s := by
  simp [unlessReset, h]

@[simp] theorem unlessReset_high (write : State → State) {s : State} (h : s.rstN = true) :
    unlessReset write s = write s := by
  simp [unlessReset, h]

theorem driveReset_err {s : State} (level : Bool) (h : s.status.err = false) :
    (driveReset level s).status.err = false := by
  cases level
  · rfl
  · exact h

/-- The host's turn never sets `ERR`. -/
theorem hostTurn_err {s : State} (h : s.status.err = false) : (hostTurn s).status.err = false := by
  unfold hostTurn
  cases hs : s.host with
  | nil => exact h
  | cons a rest =>
    cases a with
    | regWrite idx v => exact unlessReset_induct (P := fun t => t.status.err = false) h (by simpa using h)
    | regRead idx => simpa [hostAccess] using h
    | bufWrite id x v => exact unlessReset_induct (P := fun t => t.status.err = false) h (by simpa using h)
    | bufRead id x => simpa [hostAccess] using h
    | wait => exact h
    | rstN level => exact driveReset_err level h

/-- Where a step sets `ERR`, the command in progress completed with it. -/
theorem step_sets_err {s t : State} (hs : s.status.err = false) (ht : t.status.err = true) (h : step s = .next t) :
    s.status.busy = true ∧ perform s = .next t := by
  rcases step_cases h with ⟨-, hb, -, hp⟩ | ⟨-, rfl⟩
  · exact ⟨hb, hp⟩
  · simp [hostTurn_err hs] at ht

/-- A script ends with the statement during which a command completed in error. -/
theorem runStmts_stops {st : Stmt} {s : State} (rest : List Stmt)
    (h : completedInError s (play (stmtAccesses st) s) = true) :
    runStmts (st :: rest) s = play (stmtAccesses st) s := by
  simp [runStmts, h]

/-- It goes on after every other statement. -/
theorem runStmts_goes_on {st : Stmt} {s : State} (rest : List Stmt)
    (h : completedInError s (play (stmtAccesses st) s) = false) :
    runStmts (st :: rest) s = runStmts rest (play (stmtAccesses st) s) := by
  simp [runStmts, h]

end Sys2Proof.Laws
end

