-- ==== Sys2Proof/Tests/Slice0.lean ====
section
/-! SUPPORT. Tests: command words written out from the encodings, ill-formed terms the checks refuse, one-step tests whose
expected values are the spec's own vectors (95), and a witness for the hypotheses of every statement. -/

namespace Sys2Proof.Tests

open Sys2Proof.Machine

set_option Elab.async false

/-! ## Decoding: a word of every command, from 30 R61, R63 and V-EN1 to V-EN16 -/

theorem test_decode_system : decode 0x0000000000000000 = .ok .nop ∧ decode 0x0000000000000001 = .ok .sessionReset := by
  decide
theorem test_decode_frequency_table :
    decode 0x0000000000000010 = .ok .ftClear ∧ decode 0x0000000000004111 = .ok (.ftAcc 0x41) ∧
    decode 0x0000000000000012 = .ok .ftAccbuf ∧ decode 0x000000000000FF13 = .ok (.ftLoad 0xFF) ∧
    decode 0x0000000000000014 = .ok (.ftRead 0x00) := by decide
theorem test_decode_tree_builder :
    decode 0x0000000000000020 = .ok .tbBuild ∧ decode 0x000000000001FE21 = .ok (.ndRead 510) := by decide
theorem test_decode_code_deriver :
    decode 0x0000000000000030 = .ok .ctDerive ∧ decode 0x0000000000004331 = .ok (.ctRead 0x43) := by decide
theorem test_decode_bit_writer :
    decode 0x0000000000000040 = .ok .bwReset ∧ decode 0x0000000000000041 = .ok (.bwPut false) ∧
    decode 0x0000000000000141 = .ok (.bwPut true) ∧ decode 0x0000000000004242 = .ok (.bwPutsym 0x42) ∧
    decode 0x0000000000000043 = .ok .bwFlush := by decide
theorem test_decode_bit_reader :
    decode 0x0000000000000048 = .ok .brReset ∧ decode 0x0000000000000049 = .ok .brGet := by decide
theorem test_decode_runs : decode 0x0000000000000050 = .ok .encRun ∧ decode 0x0000000000000058 = .ok .decRun := by decide
theorem test_decode_illegal :
    decode 0x0000000000000002 = .error (.unknownOpcode 0x02) ∧ decode 0x0000000000000100 = .error (.reservedBit .nop) ∧
    decode 0x0000000000000241 = .error (.reservedBit .bwPut) ∧
    decode 0x0000000000020021 = .error (.reservedBit .ndRead) ∧
    decode 0x8000000000004111 = .error (.reservedBit .ftAcc) := by decide
theorem test_encode_operands :
    encode (.ftAcc 0x41) = 0x4111 ∧ encode (.ndRead 511) = 0x1FF21 ∧ encode (.bwPut true) = 0x141 := by decide
theorem test_table_word : decodeTableWord 64 0x4331 = some (.ctRead 0x43) ∧ decodeTableWord 64 0x02 = none := by decide

/-! ## Well-formedness: one ill-formed term for each check -/

theorem test_wf_commands : (Instr.ndRead 511).wf = true ∧ (Instr.ftAcc 0xFF).wf = true ∧ (Instr.bwPut true).wf = true := by
  decide
theorem test_wf_refuses_operand_on_format_n : (Stmt.cmd .nop (some 0)).wf = false := by decide
theorem test_wf_refuses_missing_operand : (Stmt.cmd .ftAcc none).wf = false := by decide
theorem test_wf_refuses_symbol_256 : (Stmt.cmd .ftAcc (some 256)).wf = false ∧ assemble .ftAcc (some 256) = none := by
  decide
theorem test_wf_refuses_bit_2 : (Stmt.cmd .bwPut (some 2)).wf = false := by decide
theorem test_wf_refuses_index_512 : (Stmt.cmd .ndRead (some 512)).wf = false := by decide
theorem test_wf_refuses_wide_register_value : (Stmt.wr .fdata (2 ^ 64)).wf = false := by decide
theorem test_wf_refuses_wide_address : (Stmt.ib (2 ^ 64) 0).wf = false ∧ (Stmt.ob (2 ^ 64)).wf = false := by decide
theorem test_wf_refuses_wide_byte : (Stmt.ib 0 256).wf = false := by decide
theorem test_wf_refuses_bytes_past_the_end :
    (Stmt.ibs (2 ^ 64 - 1) [1, 2]).wf = false ∧ (Stmt.ibs 0 [256]).wf = false := by decide
theorem test_wf_refuses_wide_input_byte : (Stmt.loadInput [256]).wf = false := by decide
theorem test_wf_refuses_empty_ibuf : ({ Params.default with ibufCap := 0 } : Params).wf = false := by decide
theorem test_wf_refuses_ibuf_over_64_bits : ({ Params.default with ibufCap := 2 ^ 64 } : Params).wf = false := by decide
theorem test_wf_refuses_empty_obuf : ({ Params.default with obufCap := 0 } : Params).wf = false := by decide
theorem test_wf_refuses_obuf_over_61_bits : ({ Params.default with obufCap := 2 ^ 61 } : Params).wf = false := by decide
theorem test_assemble_gives_the_command : assemble .ndRead (some 510) = some (.ndRead 510) ∧ assemble .encRun none = some .encRun := by
  decide

/-! ## Small states -/

/-- The state a command answers. -/
def after (i : Instr) (s : State) : State :=
  match exec i s with
  | .next t => t
  | .fault _ => s
  | .refused _ => s

/-- A buffer that starts with these bytes. -/
def known (bs : List Byte) : Memory := { Memory.unspecified 0 with cells := bs.zipIdx.map (fun p => (p.2, p.1)) }

/-- A table with these entries, the rest zero. -/
def counts (l : List (Byte × Word)) : Table Word :=
  l.foldl (fun t p => Table.put t p.1 p.2) (Vector.replicate 256 0)

/-- An instance with eight-byte buffers after reset. -/
def idle : State := State.resetFor { ibufCap := 8, obufCap := 8, phSym := 0x2A, idValue := 7 }

/-- The source's scenario S7 loaded: `41 41 41 42 42 43`. -/
def loaded : State :=
  { idle with ibuf := known [0x41, 0x41, 0x41, 0x42, 0x42, 0x43], regs := { idle.regs with inLen := 6 } }

/-- Its counts. -/
def counted : State := { loaded with freq := counts [(0x41, 3), (0x42, 2), (0x43, 1)] }

/-- The tree of V-TB1. -/
def treed : State :=
  { counted with
    node := [leafNode 0x41 3, leafNode 0x42 2, leafNode 0x43 1, internalNode 3 2 1, internalNode 6 0 3]
    regs := { counted.regs with root := 4 }
    status := { Status.reset with done := true, treeValid := true } }

/-- The codes of V-CT1. -/
def coded : State :=
  { treed with
    code := Table.put (Table.put (Table.put (Vector.replicate 256 []) 0x41 [false]) 0x42 [true, true]) 0x43 [true, false]
    status := { treed.status with codesValid := true } }

/-- The payload of S7 loaded beside the tree, for `DEC_RUN` with 9 bits and 6 bytes (V-DR1). -/
def payload : State :=
  { treed with
    ibuf := known [0x1F, 0x00]
    regs := { treed.regs with inLen := 2, totalBits := 9, origSize := 6 } }

/-- A writer that holds `n` bits, the last of them in `acc`. -/
def writing (n : Word) (acc : Byte) : State := { idle with bwAcc := acc, regs := { idle.regs with bwBits := n } }

/-! ## One step, the spec's vectors -/

theorem test_nop_sets_done : (after .nop idle).status.bits = 0x002 := by decide +kernel -- V-SY2
theorem test_session_reset_clears_error : -- V-SY7, V-SY10
    let t := after .sessionReset { (after .ctDerive { idle with irqEn := 3 }) with status := { Status.reset with err := true } }
    t.status.bits = 0x002 ∧ t.errcode = 0 ∧ t.irqEn = 3 := by decide +kernel
theorem test_ft_clear_zeroes : (after .ftClear treed).freqOf 0x41 = 0 ∧ (after .ftClear coded).status.bits = 0x002 := by
  decide +kernel -- R81
theorem test_ft_acc_counts : (after (.ftAcc 0x41) counted).freqOf 0x41 = 4 ∧ (after (.ftAcc 0x41) counted).freqOf 0x42 = 2 := by
  decide +kernel
theorem test_ft_acc_overflow : -- V-FT5
    let t := after (.ftAcc 0x10) { idle with freq := counts [(0x10, 0xFFFFFFFFFFFFFFFF)] }
    t.status.bits = 0x006 ∧ t.errcode = 5 ∧ t.errinfo = 0x10 := by decide +kernel
theorem test_ft_accbuf_adds : (after .ftAccbuf loaded).freq = counted.freq ∧ (after .ftAccbuf counted).freqOf 0x41 = 6 := by
  decide +kernel -- V-FT2, V-FT3
theorem test_ft_accbuf_errors : -- V-FT8, with the small buffer; R83: the third 41 overflows before the first 42
    let t := after .ftAccbuf { idle with regs := { idle.regs with inLen := 9 } }
    let u := after .ftAccbuf
      { loaded with freq := counts [(0x41, 0xFFFFFFFFFFFFFFFD), (0x42, 0xFFFFFFFFFFFFFFFF)] }
    t.errcode = 3 ∧ t.errinfo = 9 ∧ u.errcode = 5 ∧ u.errinfo = 0x41 := by decide +kernel
theorem test_ft_load_makes_stale : (after (.ftLoad 0x41) coded).status.bits = 0x002 := by decide +kernel -- V-FT9
theorem test_ft_load_zero_is_no_symbol : distinctCount (after (.ftLoad 0x20) idle).freq = 0 := by decide +kernel -- V-FT7
theorem test_ft_read_keeps_flags : -- V-FT10
    (after (.ftRead 0x41) coded).regs.fdata = 3 ∧ (after (.ftRead 0x41) coded).status.bits = 0x052 := by decide +kernel
theorem test_tb_build_of_s7 : -- V-TB1
    (after .tbBuild counted).node = treed.node ∧ (after .tbBuild counted).regs.root = 4 ∧
    (after .tbBuild counted).status.bits = 0x012 := by decide +kernel
theorem test_tb_build_overflow : -- V-TB10 (c)
    let t := after .tbBuild { idle with freq := counts [(0, 0x8000000000000000), (1, 0x4000000000000000), (2, 0x4000000000000000)] }
    t.errcode = 6 ∧ t.errinfo = 4 := by decide +kernel
theorem test_heap_trace : -- V-TB7: pushes of the five leaves, then the first pop
    let node := [leafNode 0x61 5, leafNode 0x62 2, leafNode 0x63 1, leafNode 0x64 1, leafNode 0x72 2]
    heapPush node [2, 3, 1, 0] 4 = [2, 3, 1, 0, 4] ∧ heapPop node [2, 3, 1, 0, 4] = some (2, [3, 4, 1, 0]) ∧
    heapPop node [3, 4, 1, 0] = some (3, [1, 4, 0]) := by decide +kernel
theorem test_nd_read_layout : -- V-TB1
    (after (.ndRead 2) treed).regs.nodeInfo = 0x10D ∧ (after (.ndRead 4) treed).regs.nodeInfo = 0x180000 ∧
    (after (.ndRead 4) treed).regs.nodeFreq = 6 := by decide +kernel
theorem test_nd_read_range : -- V-SY11
    (after (.ndRead 5) treed).errcode = 8 ∧ (after (.ndRead 5) treed).errinfo = 5 ∧
    (after (.ndRead 5) treed).status.bits = 0x006 := by decide +kernel
theorem test_ct_derive_codes : (after .ctDerive treed).code = coded.code := by decide +kernel -- V-CT1
theorem test_ct_derive_without_tree : (after .ctDerive idle).errcode = 2 := by decide +kernel -- V-CT7
theorem test_ct_read_b : -- V-CT1
    (after (.ctRead 0x42) coded).regs.clen = 2 ∧ (after (.ctRead 0x42) coded).regs.cbits0 = 3 := by decide +kernel
theorem test_ct_read_long_code : -- 10 R27: a code of 65 bits, "1" then zeros, reaches into CBITS1
    let t := after (.ctRead 0) { coded with code := Table.put coded.code 0 (true :: List.replicate 64 false) }
    t.regs.clen = 65 ∧ t.regs.cbits0 = 0 ∧ t.regs.cbits1 = 1 := by decide +kernel
theorem test_bw_reset_empties : -- V-BW9
    (after .bwReset (writing 3 0xA0)).regs.bwBits = 0 ∧ (after .bwReset (writing 3 0xA0)).bwAcc = 0 := by decide +kernel
theorem test_bw_put_third_bit : -- V-BW1
    (after (.bwPut true) (writing 2 0x80)).bwAcc = 0xA0 ∧ (after (.bwPut true) (writing 2 0x80)).regs.bwBits = 3 := by
  decide +kernel
theorem test_bw_put_stores_the_eighth_bit : -- V-BW3
    (after (.bwPut true) (writing 7 0xFE)).obuf.read .obuf 0 = 0xFF := by decide +kernel
theorem test_bw_putsym_code_then_raw : -- V-BW7
    (after (.bwPutsym 0x42) coded).bwAcc = 0xC0 ∧
    (after (.bwPutsym 0x44) { coded with bwAcc := 0xC0, regs := { coded.regs with bwBits := 2 } }).obuf.read .obuf 0 = 0xD1 := by
  decide +kernel
theorem test_bw_putsym_without_codes : -- V-BW10
    let t := after (.bwPutsym 0x41) { idle with cmd := 0x4142 }
    t.errcode = 2 ∧ t.errinfo = 0x4142 := by decide +kernel
theorem test_bw_flush_stores_the_partial_byte : -- V-BW1
    (after .bwFlush (writing 3 0xA0)).obuf.read .obuf 0 = 0xA0 ∧ (after .bwFlush (writing 3 0xA0)).regs.outLen = 1 := by
  decide +kernel
theorem test_bw_flush_twice : -- V-BW5
    (after .bwFlush { idle with status := { Status.reset with bwFlushed := true } }).errcode = 2 := by decide +kernel
theorem test_br_reset_rewinds : -- V-BR3
    (after .brReset { idle with regs := { idle.regs with brPos := 3, bitval := 1 } }).regs.brPos = 0 := by decide +kernel
theorem test_br_get_fourth_bit : -- V-BR1
    (after .brGet { payload with regs := { payload.regs with brPos := 3 } }).regs.bitval = 1 ∧
    (after .brGet { payload with regs := { payload.regs with brPos := 2 } }).regs.bitval = 0 := by decide +kernel
theorem test_br_get_at_the_end : -- V-BR2
    let t := after .brGet { payload with regs := { payload.regs with brPos := 9 } }
    t.errcode = 7 ∧ t.errinfo = 9 := by decide +kernel
theorem test_enc_run_of_s7 : -- V-ER1
    let t := after .encRun coded
    t.regs.bwBits = 9 ∧ t.regs.outLen = 2 ∧ t.obuf.read .obuf 0 = 0x1F ∧ t.obuf.read .obuf 1 = 0x00 ∧
    t.status.bits = 0x0D2 := by decide +kernel
theorem test_enc_run_without_codes : (after .encRun { treed with cmd := 0x50 }).errinfo = 0x50 := by decide +kernel -- V-ER6
theorem test_dec_run_of_s7 : -- V-DR1
    let t := after .decRun payload
    (List.range 6).map (fun a => t.obuf.read .obuf a) = [0x41, 0x41, 0x41, 0x42, 0x42, 0x43] ∧ t.regs.outLen = 6 ∧
    t.regs.brPos = 9 ∧ t.status.decShort = false := by decide +kernel
theorem test_dec_run_short : -- V-DR2
    let t := after .decRun { payload with regs := { payload.regs with totalBits := 8 } }
    t.regs.outLen = 5 ∧ t.regs.brPos = 8 ∧ t.status.decShort = true := by decide +kernel

/-! ## The host's side -/

theorem test_busy_cmd_write_is_dropped : -- V-SY4
    let t := advance { idle with status := idle.status.accepted, cmd := 0x10, host := [.regWrite 0x01 0x20] }
    t.cmd = 0x10 ∧ t.status.bits = 0x009 := by decide +kernel
theorem test_illegal_word : -- V-SY5
    let t := advance (idle.latch 0x02)
    t.status.bits = 0x006 ∧ t.errcode = 1 ∧ t.errinfo = 2 := by decide +kernel
theorem test_fetch_word_runs_first : (advance (State.reset.withFetchWord 64 0x4111)).freqOf 0x41 = 1 := by decide +kernel
theorem test_write_while_held_in_reset : -- R200: the write is lost, a read gives the reset value, the rise keeps the state
    let t := advanceBy 4 { coded with host := [.rstN false, .regWrite 0x05 3, .regRead 0x02, .rstN true] }
    t.irqEn = 0 ∧ t.regRdata = 0 ∧ t.status = Status.reset ∧ t.rstN = true := by decide +kernel
theorem test_reserved_index : -- V-SY12
    (advance { idle with host := [.regWrite 0x06 0x1234] }).regValue .irqEn = 0 ∧
    (advance { idle with regRdata := 5, host := [.regRead 0x06] }).regRdata = 0 := by decide +kernel

/-! ## Witnesses: the hypotheses of every statement, met together, each clause at a boundary of its range -/

theorem idle_wf : idle.params.wf = true := by decide

theorem idle_inv : idle.Inv where
  params := idle_wf
  ibufWf := Laws.unspecified_wf 0
  obufWf := Laws.unspecified_wf 0
  ibufIn := by decide
  obufIn := by decide
  nodes := by decide
  heap := by decide
  heapIdle := fun _ => rfl
  codes := fun sym => by simp [State.codeOf, idle, State.resetFor]
  noError := fun _ => ⟨rfl, rfl⟩
  inError := by decide
  onlyReset := by decide
  codesTree := by decide
  emptyTree := by decide
  writer := fun _ => ⟨by decide, fun _ h => absurd rfl h⟩
  heldInReset := fun h => absurd h (by decide)

theorem treed_flagsOk : treed.FlagsOk where
  tree := fun _ => by decide +kernel
  codes := fun h => absurd h (by decide)

/-- The single-symbol tree of V-TB4. -/
def single : State :=
  { idle with
    freq := counts [(0x7F, 1)]
    node := [leafNode 0x7F 1, placeholderNode 0x2A, internalNode 1 0 1]
    regs := { idle.regs with root := 2 }
    status := { Status.reset with treeValid := true } }

theorem single_flagsOk : single.FlagsOk where
  tree := fun _ => by decide +kernel
  codes := fun h => absurd h (by decide)

/-- A state in which a command `w` runs, with the host's next access. -/
def running (w : Word) (a : List HostAccess) : State := { idle with status := idle.status.accepted, cmd := w, host := a }

/-- An error state. -/
def failed : State := { idle with status := Status.reset.failed, errcode := 2 }

theorem witness_ResetMeetsTheInvariants : ∃ p : Params, p.wf = true ∧ p.ibufCap = 2 ^ 64 - 1 ∧ p.obufCap = 2 ^ 61 - 1 :=
  ⟨{ Params.default with ibufCap := 2 ^ 64 - 1, obufCap := 2 ^ 61 - 1 }, by decide⟩
theorem witness_HardResetReachesResetState : (running 0x12 [.rstN false, .wait]).host = .rstN false :: [.wait] := rfl
/-- A core held in reset. -/
def held (a : List HostAccess) : State := { idle with rstN := false, host := a }
theorem witness_HeldInReset :
    ∀ a ∈ ([.regWrite 0x01 0x10, .bufWrite .ibuf 0 1, .wait, .rstN true] : List HostAccess),
      (held [a]).rstN = false ∧ (held [a]).host = a :: [] ∧ (held []).host = [] := by decide
theorem witness_DecodeOfEncodeIsTheCommand : (Instr.ndRead 511).wf = true := by decide
theorem witness_EncodeOfDecodeIsTheWord : decode 0x1FF21 = .ok (.ndRead 511) := by decide
theorem witness_IllegalWords :
    (∃ e, decode 0x02 = .error e) ∧ (∃ e, decode 0x200010 = .error e) ∧ ∀ e, decode 0xFF42 ≠ .error e := by
  refine ⟨⟨.unknownOpcode 2, by decide⟩, ⟨.reservedBit .ftClear, by decide⟩, fun e => ?_⟩
  have : decode 0xFF42 = .ok (.bwPutsym 0xFF) := by decide
  rw [this]
  exact fun h => by cases h
theorem witness_StepPerformsTheLatchedCommand :
    (running 0x10 [.wait]).rstN = true ∧ (running 0x10 [.wait]).status.busy = true ∧ (running 0x10 [.wait]).hostYields = true ∧
    decode (running 0x10 [.wait]).cmd = .ok .ftClear := by decide
theorem witness_IllegalWordRaisesIllegalCmd :
    (running 0x02 []).rstN = true ∧ (running 0x02 []).status.busy = true ∧ (running 0x02 []).hostYields = true ∧
    decode (running 0x02 []).cmd = .error (.unknownOpcode 0x02) := by decide
theorem witness_CmdWriteIsAccepted :
    let s : State := { idle with host := [.regWrite 0x01 0x10] }
    let u : State := { failed with host := [.regWrite 0x01 0x01] }
    (s.rstN = true ∧ s.host = .regWrite 0x01 0x10 :: [] ∧ s.status.busy = false ∧ s.status.err = false) ∧
    u.rstN = true ∧ u.host = .regWrite 0x01 0x01 :: [] ∧ u.status.busy = false ∧ u.status.err = true := by decide
theorem witness_CmdWriteIsDropped :
    let s : State := running 0x10 [.regWrite 0x01 0x01]
    let u : State := { failed with host := [.regWrite 0x01 0x00] }
    (s.rstN = true ∧ s.host = .regWrite 0x01 0x01 :: [] ∧ s.status.busy = true) ∧
    u.rstN = true ∧ u.host = .regWrite 0x01 0x00 :: [] ∧ u.status.err = true ∧ (0x00 : Word) ≠ 0x0000000000000001 := by decide
theorem witness_StatusReadsAndClearsAsR17Says :
    (running 0x10 [.regWrite 0x02 0x00A]).rstN = true ∧ (running 0x10 [.regWrite 0x02 0x00A]).host = .regWrite 0x02 0x00A :: [] ∧ 63 < 64 := by decide
theorem witness_IdleRegisterWritesFollowTheMap :
    ∀ idx ∈ ([0x00, 0x03, 0x05, 0x08, 0x09, 0x0A, 0x0B, 0x0C, 0xFF] : List (BitVec 8)),
      { idle with host := [.regWrite idx 0xFF] }.host = .regWrite idx 0xFF :: [] ∧ idle.rstN = true ∧ idle.status.busy = false ∧
      idx ≠ 0x01 ∧ idx ≠ 0x02 := by decide
theorem witness_IdleRegisterReadsFollowTheMap :
    { idle with host := [.regRead 0x1D] }.host = .regRead 0x1D :: [] ∧ idle.status.busy = false := by decide
theorem witness_DataAccessesWhileBusyAreDropped :
    ∀ a ∈ ([.regWrite 0x00 1, .regWrite 0xFF 1, .regWrite 0x05 3, .bufWrite .obuf 7 1, .regRead 0x08, .regRead 0x05,
      .bufRead .ibuf 0] : List HostAccess),
      (running 0x12 [a]).rstN = true ∧ (running 0x12 [a]).host = a :: [] ∧ (running 0x12 [a]).status.busy = true := by decide
theorem witness_BusyReadOfAReservedIndex :
    ∀ idx ∈ ([0x06, 0x0F, 0x1E, 0xFF] : List (BitVec 8)),
      (running 0x12 [.regRead idx]).rstN = true ∧ (running 0x12 [.regRead idx]).host = .regRead idx :: [] ∧ (running 0x12 [.regRead idx]).status.busy = true ∧
      ∀ r ∈ allRegs, r.index ≠ idx := by decide
theorem allRegs_lists_every_register (r : RegName) : r ∈ allRegs := by cases r <;> decide
theorem witness_BusyReadsNameARegister :
    RegName.inLen.index = 0x08 ∧ RegName.inLen.alwaysAccessible = false ∧ RegName.irqEn.index = 0x05 ∧
    RegName.irqEn.alwaysAccessible = true := by decide
theorem witness_BufferPortMovesOneByte :
    idle.rstN = true ∧ idle.status.busy = false ∧ (7 : Word).toNat < idle.cap .obuf ∧ idle.cap .obuf ≤ (8 : Word).toNat ∧
    { idle with host := [.bufWrite .obuf 7 1] }.host = .bufWrite .obuf 7 1 :: [] ∧
    { idle with host := [.bufRead .ibuf 8] }.host = .bufRead .ibuf 8 :: [] := by decide
theorem witness_IrqIsTheMaskedLevel : idle.irqEn = 0 ∧ exec .nop idle = .next (complete idle) := ⟨rfl, rfl⟩
theorem witness_FtAccCountsOneOrOverflows :
    ({ idle with freq := counts [(0x10, 0xFFFFFFFFFFFFFFFE)] }.freqOf 0x10).toNat < 2 ^ 64 - 1 ∧
    ({ idle with freq := counts [(0x10, 0xFFFFFFFFFFFFFFFF)] }.freqOf 0x10).toNat = 2 ^ 64 - 1 := by decide +kernel
theorem witness_FtAccbufCounts :
    loaded.regs.inLen.toNat ≤ loaded.params.ibufCap ∧
    ∀ x, ({ loaded with freq := counts [(0x41, 0xFFFFFFFFFFFFFFFC)] }.freqOf x).toNat + loaded.inputBytes.count x < 2 ^ 64 := by
  decide +kernel
theorem witness_FtAccbufOverflows :
    let s : State := { loaded with freq := counts [(0x41, 0xFFFFFFFFFFFFFFFD)] }
    s.regs.inLen.toNat ≤ s.params.ibufCap ∧ 2 ^ 64 ≤ (s.freqOf 0x41).toNat + s.inputBytes.count 0x41 := by
  decide +kernel
theorem witness_FtAccbufRange :
    idle.params.ibufCap < { idle with regs := { idle.regs with inLen := 9 } }.regs.inLen.toNat := by decide
theorem witness_ClearedCountsSumToInLen : loaded.regs.inLen.toNat ≤ loaded.params.ibufCap := by decide
theorem witness_HeapPushKeepsTheHeap : HeapOk treed.node [2, 0] ∧ (1 : NodeIdx) ∉ [2, 0] ∧ ([2, 0] : List NodeIdx).Nodup := by
  refine ⟨fun i h0 h1 => ?_, by decide, by decide⟩
  have : i = 1 := by simp at h1; omega
  subst this
  decide
theorem witness_HeapPopTakesTheLeastKey : HeapOk treed.node [2, 0] ∧ ([2, 0] : List NodeIdx).Nodup ∧ [2, 0] ≠ ([] : List NodeIdx) :=
  ⟨witness_HeapPushKeepsTheHeap.1, by decide, by decide⟩
theorem witness_ArrayHeapBuildsTheQueuesTree : 2 ≤ distinctCount (counts [(0x00, 1), (0xFF, 2)]) := by decide +kernel
theorem witness_TbBuildOfEmptyTable : ∀ x, idle.freqOf x = 0 := by decide +kernel
theorem witness_TbBuildOfSingleSymbol : single.freqOf 0x7F ≠ 0 ∧ ∀ y, y ≠ 0x7F → single.freqOf y = 0 := by decide +kernel
theorem witness_TbBuildBuildsTheTree :
    2 ≤ distinctCount (counts [(0, 0x8000000000000000), (1, 0x7FFFFFFFFFFFFFFF)]) ∧
    totalCount (counts [(0, 0x8000000000000000), (1, 0x7FFFFFFFFFFFFFFF)]) = 2 ^ 64 - 1 := by decide +kernel
theorem witness_TbBuildOverflowRaises :
    2 ≤ distinctCount (counts [(0, 0x8000000000000000), (1, 0x8000000000000000)]) ∧
    totalCount (counts [(0, 0x8000000000000000), (1, 0x8000000000000000)]) = 2 ^ 64 := by decide +kernel
theorem witness_ValidTreesHaveTheShapeOfR33 :
    treed.FlagsOk ∧ treed.status.treeValid = true ∧ treed.status.treeEmpty = false ∧ single.FlagsOk ∧
    single.status.treeValid = true ∧ single.status.treeEmpty = false :=
  ⟨treed_flagsOk, rfl, rfl, single_flagsOk, rfl, rfl⟩
theorem witness_NdReadCopiesTheRecord :
    treed.status.treeValid = true ∧ treed.node[(4 : NodeIdx).toNat]? = some (internalNode 6 0 3) ∧
    treed.nn ≤ (5 : NodeIdx).toNat ∧ idle.status.treeValid = false := by decide
theorem witness_CtDeriveWritesTheCodeTable :
    treed.status.treeValid = true ∧ idle.status.treeValid = false ∧
    { treed with status := { treed.status with treeEmpty := true } }.status.treeEmpty = true := by decide
theorem witness_CodesAreRootToLeafPaths :
    treed.FlagsOk ∧ treed.status.treeValid = true ∧ treed.status.treeEmpty = false ∧
    treed.node[(1 : NodeIdx).toNat]? = some (leafNode 0x42 2) :=
  ⟨treed_flagsOk, rfl, rfl, rfl⟩
theorem witness_CodeLengthsAreBounded :
    single.FlagsOk ∧ single.status.treeValid = true ∧ single.status.treeEmpty = false ∧ single.freqOf 0x7F ≠ 0 :=
  ⟨single_flagsOk, rfl, rfl, by decide +kernel⟩
theorem witness_CodesArePrefixFree :
    treed.FlagsOk ∧ treed.status.treeValid = true ∧ exec .ctDerive treed = .next (after .ctDerive treed) ∧
    (after .ctDerive treed).codeOf 0x41 ≠ [] ∧ (after .ctDerive treed).codeOf 0x42 ≠ [] :=
  ⟨treed_flagsOk, rfl, rfl, by decide +kernel, by decide +kernel⟩
theorem witness_CtReadWritesLengthAndValue :
    coded.status.codesValid = true ∧ (coded.codeOf 0x42).length ≤ 255 ∧ idle.status.codesValid = false := by decide +kernel
theorem witness_BwPutFills : -- the last bit that fits
    (writing 63 0xFE).params.wf = true ∧ (writing 63 0xFE).status.bwFlushed = false ∧
    (writing 63 0xFE).regs.bwBits.toNat < 8 * (writing 63 0xFE).params.obufCap := by decide
theorem witness_BwPutRaises :
    (after .bwFlush idle).status.bwFlushed = true ∧ (writing 64 0).regs.bwBits.toNat % 8 = 0 ∧
    (writing 64 0).params.obufCap ≤ (writing 64 0).regs.bwBits.toNat / 8 ∧ (writing 64 0).status.bwFlushed = false := by
  decide
theorem writing_ok (n : Word) (acc : Byte) (h : n.toNat ≤ 64)
    (hz : ∀ k < 8, n.toNat % 8 ≠ 0 → k < 8 - n.toNat % 8 → acc.getLsbD k = false) : (writing n acc).WriterOk :=
  ⟨h, fun k h1 h2 => by
    by_cases hk : k < 8
    · exact hz k hk h1 h2
    · exact BitVec.getLsbD_of_ge _ _ (by omega)⟩
/-- The codes of V-CT1 with a writer that holds `n` bits. -/
def codedWriting (n : Word) (acc : Byte) : State := { coded with bwAcc := acc, regs := { coded.regs with bwBits := n } }
theorem witness_BwPutsymAppends : -- 62 bits held, the two bits of 0x42's code fill the buffer
    (codedWriting 62 0xA8).WriterOk ∧ (codedWriting 62 0xA8).params.wf = true ∧
    (codedWriting 62 0xA8).status.codesValid = true ∧ (codedWriting 62 0xA8).status.bwFlushed = false ∧
    (codedWriting 62 0xA8).regs.bwBits.toNat + ((codedWriting 62 0xA8).codeOf 0x42).length = 8 * 8 :=
  ⟨writing_ok 62 0xA8 (by decide) (by decide), rfl, rfl, rfl, by decide +kernel⟩
theorem witness_BwPutsymRaises :
    (codedWriting 63 0xAA).WriterOk ∧ (codedWriting 63 0xAA).params.wf = true ∧
    (codedWriting 63 0xAA).status.codesValid = true ∧ (codedWriting 63 0xAA).status.bwFlushed = false ∧
    8 * 8 < (codedWriting 63 0xAA).regs.bwBits.toNat + ((codedWriting 63 0xAA).codeOf 0x42).length ∧
    idle.status.codesValid = false ∧ (after .bwFlush coded).status.bwFlushed = true :=
  ⟨writing_ok 63 0xAA (by decide) (by decide), rfl, rfl, rfl, by decide +kernel, rfl, rfl⟩
theorem witness_BwFlushPublishesTheStream :
    (writing 63 0xAA).params.wf = true ∧ (writing 63 0xAA).WriterOk ∧ (writing 63 0xAA).status.bwFlushed = false ∧
    (after .bwFlush idle).status.bwFlushed = true :=
  ⟨rfl, writing_ok 63 0xAA (by decide) (by decide), rfl, by decide⟩
theorem witness_BrGetReads : -- the last bit of the stream
    let s : State := { payload with regs := { payload.regs with brPos := 8 } }
    s.regs.brPos.toNat < s.regs.totalBits.toNat ∧ s.regs.brPos.toNat / 8 < s.regs.inLen.toNat ∧
    s.regs.brPos.toNat / 8 < s.params.ibufCap := by decide
theorem witness_BrGetRaises : -- at the end; V-BR4: the first bit of the byte at IN_LEN
    payload.regs.totalBits.toNat ≤ { payload with regs := { payload.regs with brPos := 9 } }.regs.brPos.toNat ∧
    let s : State := { payload with regs := { payload.regs with inLen := 1, brPos := 8 } }
    s.regs.brPos.toNat < s.regs.totalBits.toNat ∧ s.regs.inLen.toNat ≤ s.regs.brPos.toNat / 8 := by decide

/-- The bits "101" written and flushed (V-BW1), and a reader that holds the byte (V-BR3). -/
def packed : State := (runCommands ([true, false, true].map Instr.bwPut ++ [.bwFlush]) idle).getD idle
def reading : State := { idle with ibuf := known [0xA0], regs := { idle.regs with inLen := 1, totalBits := 3 } }
theorem witness_ReaderReturnsWhatTheWriterPacked :
    idle.params.wf = true ∧ idle.regs.bwBits = 0 ∧ idle.status.bwFlushed = false ∧
    [true, false, true].length ≤ 8 * idle.params.obufCap ∧ reading.regs.inLen = packed.regs.outLen ∧
    reading.regs.inLen.toNat ≤ reading.params.ibufCap ∧ reading.regs.totalBits.toNat = 3 ∧ reading.regs.brPos = 0 ∧
    ∀ a, a < packed.regs.outLen.toNat → reading.ibuf.read .ibuf a = packed.obuf.read .obuf a := by decide +kernel
theorem witness_EncRunPacksTheCodes :
    coded.params.wf = true ∧ coded.status.codesValid = true ∧ coded.regs.inLen.toNat ≤ coded.params.ibufCap ∧
    coded.encodedBits.length ≤ 8 * coded.params.obufCap := by decide +kernel
theorem witness_EncRunRaisesInOrder : -- no codes; IN_LEN 9 of 8; V-ER1's nine bits for one byte
    idle.status.codesValid = false ∧
    (let u : State := { coded with regs := { coded.regs with inLen := 9 } }
     u.status.codesValid = true ∧ u.params.ibufCap < u.regs.inLen.toNat) ∧
    let s : State := { coded with params := { coded.params with obufCap := 1 } }
    s.params.wf = true ∧ s.status.codesValid = true ∧ s.regs.inLen.toNat ≤ s.params.ibufCap ∧
    8 * s.params.obufCap < s.encodedBits.length := by decide +kernel
theorem witness_DecRunStoresTheWalk : -- V-DR1
    payload.status.treeValid = true ∧ payload.regs.inLen.toNat ≤ payload.params.ibufCap ∧
    (payload.regs.totalBits.toNat + 7) / 8 ≤ payload.regs.inLen.toNat ∧
    ([0x41, 0x41, 0x41, 0x42, 0x42, 0x43], 9) = (if payload.status.treeEmpty then ([], 0)
      else decodeBits payload.nodeAt payload.regs.root payload.payloadBits payload.regs.root payload.regs.origSize.toNat) ∧
    6 ≤ payload.params.obufCap := by decide +kernel
theorem witness_DecRunOfNoTree : -- V-DR15
    let s : State := { idle with
      regs := { idle.regs with inLen := 1, totalBits := 8, origSize := 3 }
      status := { idle.status with treeValid := true, treeEmpty := true } }
    s.status.treeValid = true ∧ s.regs.inLen.toNat ≤ s.params.ibufCap ∧
    (s.regs.totalBits.toNat + 7) / 8 ≤ s.regs.inLen.toNat ∧ s.status.treeEmpty = true ∧ 0 ≤ s.params.obufCap := by decide
theorem witness_DecRunRaisesInOrder : -- no tree; IN_LEN 9 of 8; V-DR11; V-DR17
    idle.status.treeValid = false ∧
    (let u : State := { payload with regs := { payload.regs with inLen := 9 } }
     u.status.treeValid = true ∧ u.params.ibufCap < u.regs.inLen.toNat) ∧
    (let v : State := { payload with regs := { payload.regs with totalBits := 17 } }
     v.status.treeValid = true ∧ v.regs.inLen.toNat ≤ v.params.ibufCap ∧
       v.regs.inLen.toNat < (v.regs.totalBits.toNat + 7) / 8) ∧
    let s : State := { payload with params := { payload.params with obufCap := 4 } }
    s.params.wf = true ∧ s.status.treeValid = true ∧ s.status.treeEmpty = false ∧
    s.regs.inLen.toNat ≤ s.params.ibufCap ∧ (s.regs.totalBits.toNat + 7) / 8 ≤ s.regs.inLen.toNat ∧
    s.params.obufCap <
      (decodeBits s.nodeAt s.regs.root s.payloadBits s.regs.root s.regs.origSize.toNat).1.length := by decide +kernel

/-- The encode side of S7 run to its end, and the decode side set up from it. -/
def encodeSide : List Instr := [.ftClear, .ftAccbuf, .tbBuild, .ctDerive, .encRun]
def encoded : State := (runCommands encodeSide loaded).getD loaded
def decoding : State :=
  { idle with
    freq := encoded.freq
    ibuf := known [0x1F, 0x00]
    regs := { idle.regs with inLen := 2, totalBits := 9, origSize := 6 } }
theorem witness_DecodeOfEncodeIsTheInput :
    loaded.params.wf = true ∧ decoding.params.wf = true ∧ loaded.status.err = false ∧ decoding.status.err = false ∧
    loaded.regs.inLen.toNat ≤ loaded.params.ibufCap ∧ runCommands encodeSide loaded = some encoded ∧
    encoded.status.err = false ∧ decoding.freq = encoded.freq ∧ decoding.params.phSym = loaded.params.phSym ∧
    decoding.regs.inLen = encoded.regs.outLen ∧ decoding.regs.inLen.toNat ≤ decoding.params.ibufCap ∧
    decoding.regs.totalBits = encoded.regs.bwBits ∧ decoding.regs.origSize = loaded.regs.inLen ∧
    (∀ a, a < encoded.regs.outLen.toNat → decoding.ibuf.read .ibuf a = encoded.obuf.read .obuf a) ∧
    loaded.regs.inLen.toNat ≤ decoding.params.obufCap := by
  refine ⟨by decide, by decide, by decide, by decide, by decide, ?_, ?_⟩
  · cases h : runCommands encodeSide loaded with
    | some t => simp [encoded, h]
    | none =>
      have : (runCommands encodeSide loaded).isSome = true := by decide +kernel
      simp [h] at this
  · decide +kernel

theorem witness_ErrorsAreTheListedOnes :
    idle.Inv ∧ idle.status.err = false ∧
    exec .ctDerive idle = .next (errorCompletion { code := .seq, info := idle.cmd } idle) ∧
    (errorCompletion { code := .seq, info := idle.cmd } idle).status.err = true :=
  ⟨idle_inv, rfl, rfl, rfl⟩
theorem witness_FlagsChangeAsR32Says :
    idle.status.err = false ∧ exec .nop idle = .next (complete idle) ∧ (complete idle).status.err = false ∧
    exec .ctDerive idle = .next (errorCompletion { code := .seq, info := idle.cmd } idle) :=
  ⟨rfl, rfl, rfl, rfl⟩
theorem witness_EachItemHasItsWriters :
    idle.status.err = false ∧ exec .bwReset idle = .next (complete (bwReset idle)) ∧
    (complete (bwReset idle)).status.err = false ∧ Instr.bwReset ≠ .sessionReset :=
  ⟨rfl, rfl, rfl, by decide⟩
theorem witness_NoCommandTouchesIbufOrIrqEn : exec .nop idle = .next (complete idle) := rfl
theorem witness_ErrorStateIsLeftOnlyByReset :
    failed.status.err = true ∧ failed.status.busy = false ∧ step failed = .next failed ∧
    (∀ rest, failed.host ≠ .rstN false :: rest) ∧
    ∀ rest, failed.host ≠ .regWrite 0x01 0x0000000000000001 :: rest :=
  ⟨rfl, rfl, rfl, by simp [failed, idle, State.resetFor], by simp [failed, idle, State.resetFor]⟩
theorem witness_EveryStepKeepsTheInvariant : idle.Inv ∧ step idle = .next idle := ⟨idle_inv, rfl⟩
theorem witness_EveryStepKeepsTheFlagsTrue : treed.FlagsOk ∧ step treed = .next treed := ⟨treed_flagsOk, rfl⟩

/-- The container of S7. -/
def container : Container :=
  { originalSize := 6, checksum := 0x6D7952C8, pairs := [(0x41, 3), (0x42, 2), (0x43, 1)], totalBits := 9,
    payload := [0x1F, 0x00] }
theorem witness_ParseOfContainerBytes :
    container.pairs.length < 2 ^ 32 ∧ container.payload.length = ceil8Nat container.totalBits.toNat := by decide
theorem witness_TruncatedContainersAreRejected :
    container.pairs.length < 2 ^ 32 ∧ container.payload.length = ceil8Nat container.totalBits.toNat ∧
    56 < (container.bytes #v[1, 2, 3, 4]).length := by decide +kernel
theorem witness_EncodeOfEmptyInput : idle.params.wf = true ∧ idle.rstN = true ∧ idle.status.busy = false := by decide
theorem test_container_layout : -- S7: the symbol count and the first pair
    slice (container.bytes #v[1, 2, 3, 4]) 16 13 = [3, 0, 0, 0, 0x41, 3, 0, 0, 0, 0, 0, 0, 0] := by decide +kernel
theorem test_raw_command_in_error_stops_the_script : -- 30 R67, the first line of P5 as a raw write
    let t := runScript [.wr .cmd 0x30, .wait, .wr .irqEn 3] idle
    t.status.bits = 0x006 ∧ t.irqEn = 0 := by decide +kernel
theorem test_dropped_command_does_not_stop_the_script : -- P5 after its error
    let t := runScript [.cmd .tbBuild none, .wr .irqEn 3] failed
    t.status.bits = 0x00E ∧ t.irqEn = 3 := by decide +kernel
theorem test_macro_load_input : -- 30 R67
    (Stmt.loadInput [0x41, 0x42]).expand = [.ibs 0 [0x41, 0x42], .wr .inLen 2] := by decide

end Sys2Proof.Tests
end

section
/-! SUPPORT. What the heap operations do to the entries in use, whatever the keys: they permute them (41 R92 to R95). -/

namespace Sys2Proof.Laws

open Sys2Proof.Machine

theorem heapAt_eq_getElem {h : List NodeIdx} {i : Nat} (hi : i < h.length) : heapAt h i = h[i] := by
  simp [heapAt, List.getD_eq_getElem?_getD, hi]

theorem swapAt_perm {h : List NodeIdx} {i j : Nat} (hi : i < h.length) (hj : j < h.length) :
    (swapAt h i j).Perm h := by
  rw [swapAt, heapAt_eq_getElem hi, heapAt_eq_getElem hj]
  exact List.set_set_perm hi hj

theorem siftUp_perm (node : List Node) (fuel : Nat) {h : List NodeIdx} {i : Nat} (hi : i < h.length) :
    (siftUp node fuel h i).Perm h := by
  induction fuel generalizing h i with
  | zero => exact .refl _
  | succ fuel ih =>
    have hp : (i - 1) / 2 < h.length := by omega
    unfold siftUp
    split_ifs
    · exact .refl _
    · exact (ih (by simpa using hp)).trans (swapAt_perm hi hp)
    · exact .refl _

theorem heapPush_perm (node : List Node) (h : List NodeIdx) (n : NodeIdx) : (heapPush node h n).Perm (n :: h) :=
  (siftUp_perm node h.length (by simp)).trans (List.perm_append_singleton n h)

theorem leastChild_lt (node : List Node) {h : List NodeIdx} {i : Nat} (hi : i < h.length) :
    leastChild node h i < h.length := by
  simp only [leastChild]
  split_ifs <;> simp_all

theorem siftDown_perm (node : List Node) (fuel : Nat) {h : List NodeIdx} {i : Nat} (hi : i < h.length) :
    (siftDown node fuel h i).Perm h := by
  induction fuel generalizing h i with
  | zero => exact .refl _
  | succ fuel ih =>
    have hc := leastChild_lt node hi
    unfold siftDown
    split_ifs
    · exact .refl _
    · exact (ih (by simpa using hc)).trans (swapAt_perm hi hc)

/-- The list `heap_pop` sifts, the last entry moved to the front, holds the entries but the first. -/
theorem popped_perm (r : NodeIdx) {t : List NodeIdx} (ht : t ≠ []) :
    (((r :: t).set 0 (heapAt (r :: t) t.length)).take t.length).Perm t := by
  obtain ⟨init, last, rfl⟩ := t.eq_nil_or_concat.resolve_left ht
  simpa [heapAt] using (List.perm_append_singleton last init).symm

theorem heapPop_perm {node : List Node} {h h' : List NodeIdx} {r : NodeIdx} (e : heapPop node h = some (r, h')) :
    h.Perm (r :: h') := by
  cases h with
  | nil => simp [heapPop] at e
  | cons a t =>
    simp only [heapPop] at e
    split_ifs at e with ht
    · simp_all
    · obtain ⟨rfl, rfl⟩ := Prod.mk.injEq .. ▸ Option.some.inj e
      have hp := popped_perm a ht
      have hlen : 0 < (((a :: t).set 0 (heapAt (a :: t) t.length)).take t.length).length :=
        by
        rw [hp.length_eq]
        exact List.length_pos_iff.2 ht
      exact (((siftDown_perm node t.length hlen).trans hp).cons a).symm

theorem heapPop_singleton (node : List Node) (r : NodeIdx) : heapPop node [r] = some (r, []) := by simp [heapPop]

end Sys2Proof.Laws
end

section
/-! SUPPORT. The tree builder (41 R94 to R99): what one added record, one merge and the loop of merges do, and the leaves
the builder starts from. -/

namespace Sys2Proof.Laws

open Sys2Proof.Machine

/-! ## One record -/

theorem toNat_ofNat_nodeIdx {n : Nat} (h : n < 512) : (BitVec.ofNat 9 n).toNat = n := by
  simpa using Nat.mod_eq_of_lt h

@[simp] theorem add_node (b : Build) (r : Node) : (b.add r).node = b.node ++ [r] := rfl

theorem add_heap_perm (b : Build) (r : Node) : (b.add r).heap.Perm (BitVec.ofNat 9 b.node.length :: b.heap) :=
  heapPush_perm ..

/-- A record in the store with one more record is one of the old ones, or the new one in the last place. -/
theorem getElem?_concat_some {node : List Node} {r n : Node} {i : Nat} (h : (node ++ [r])[i]? = some n) :
    node[i]? = some n ∨ i = node.length ∧ n = r := by
  rw [List.getElem?_append] at h
  split_ifs at h with hi
  · exact .inl h
  · rw [List.getElem?_singleton] at h
    split_ifs at h with h0
    exact .inr ⟨by omega, by simpa using h.symm⟩

theorem freqAt_append {node : List Node} {x : NodeIdx} (rest : List Node) (h : x.toNat < node.length) :
    freqAt (node ++ rest) x = freqAt node x := by
  simp only [freqAt, List.getElem?_append_left h]

/-! ## The loop of merges -/

/-- Everything a merge does when the heap holds two entries and it does not raise. -/
theorem mergeOnce_ok {b c : Build} (h2 : 1 < b.heap.length) (h : mergeOnce b = .ok c) :
    ∃ x y h1 rest, heapPop b.node b.heap = some (x, h1) ∧ heapPop b.node h1 = some (y, rest) ∧
      (freqAt b.node x).toNat + (freqAt b.node y).toNat < 2 ^ 64 ∧
      c = Build.add { b with heap := rest } (internalNode (freqAt b.node x + freqAt b.node y) x y) := by
  unfold mergeOnce at h
  cases hx : heapPop b.node b.heap with
  | none => simp [heapPop_none hx] at h2
  | some p =>
    obtain ⟨x, h1⟩ := p
    have hl := heapPop_length hx
    simp only [hx] at h
    cases hy : heapPop b.node h1 with
    | none =>
      have : h1.length = 0 := by simp [heapPop_none hy]
      omega
    | some q =>
      obtain ⟨y, rest⟩ := q
      simp only [hy] at h
      split_ifs at h with hs
      exact ⟨x, y, h1, rest, rfl, hy, by omega, by simpa using h.symm⟩

/-- What every merge keeps holds after the loop of merges, and one entry at most is left in the heap. -/
theorem mergeAll_invariant (P : Build → Prop)
    (hstep : ∀ b c, 1 < b.heap.length → P b → mergeOnce b = .ok c → P c) {fuel : Nat} {b c : Build}
    (hf : b.heap.length ≤ fuel + 1) (hb : P b) (h : mergeAll fuel b = .ok c) : P c ∧ c.heap.length ≤ 1 := by
  induction fuel generalizing b with
  | zero =>
    obtain rfl : b = c := by simpa [mergeAll] using h
    exact ⟨hb, by omega⟩
  | succ fuel ih =>
    simp only [mergeAll] at h
    split_ifs at h with h2
    · cases hm : mergeOnce b with
      | error r => simp [hm] at h
      | ok d =>
        have hd := mergeOnce_sizes h2 hm
        rw [hm] at h
        exact ih (by omega) (hstep b d h2 hb hm) h
    · obtain rfl : b = c := by simpa using h
      exact ⟨hb, by omega⟩

/-! ## The leaves -/

theorem foldl_addLeaf_node (f : Table Word) (l : List Byte) (b : Build) :
    (l.foldl (addLeaf f) b).node =
      b.node ++ (l.filter (fun x => Table.get f x != 0)).map (fun x => leafNode x (Table.get f x)) := by
  induction l generalizing b with
  | nil => simp
  | cons x rest ih =>
    by_cases hx : Table.get f x = 0#64
    · simp [ih, addLeaf, hx]
    · simp [ih, addLeaf, hx]

theorem enumerateLeaves_node (f : Table Word) : (enumerateLeaves f).node = distinctLeaves f := by
  simp [enumerateLeaves, foldl_addLeaf_node, distinctLeaves]

theorem distinctLeaves_length (f : Table Word) : (distinctLeaves f).length = distinctCount f := by
  simp [distinctLeaves, distinctCount, List.countP_eq_length_filter]

theorem distinctCount_le (f : Table Word) : distinctCount f ≤ 256 := by
  simpa [distinctCount, allSyms] using List.countP_le_length (p := fun s => Table.get f s != 0) (l := allSyms)

theorem isLeaf_of_mem_distinctLeaves {f : Table Word} {n : Node} (h : n ∈ distinctLeaves f) :
    n.isLeaf = true ∧ n.ph = false := by
  obtain ⟨x, -, rfl⟩ := List.mem_map.1 h
  exact ⟨rfl, rfl⟩

theorem distinctLeaves_sym_nodup (f : Table Word) : ((distinctLeaves f).map (fun n => n.sym)).Nodup := by
  simpa [distinctLeaves, Function.comp_def, leafNode] using allSyms_nodup.filter _

/-- The heap holds the index of every record, each once. -/
def HeapHoldsAll (b : Build) : Prop := (b.heap.map BitVec.toNat).Perm (List.range b.node.length)

theorem add_heapHoldsAll {b : Build} (r : Node) (hn : b.node.length < 512) (h : HeapHoldsAll b) :
    HeapHoldsAll (b.add r) := by
  have hp := (add_heap_perm b r).map BitVec.toNat
  rw [List.map_cons, toNat_ofNat_nodeIdx hn] at hp
  rw [HeapHoldsAll, add_node, List.length_append, List.length_singleton, List.range_succ]
  exact hp.trans ((h.cons _).trans (List.perm_append_singleton _ _).symm)

theorem foldl_addLeaf_heapHoldsAll (f : Table Word) {l : List Byte} {b : Build} (hl : b.node.length + l.length ≤ 512)
    (h : HeapHoldsAll b) : HeapHoldsAll (l.foldl (addLeaf f) b) := by
  induction l generalizing b with
  | nil => exact h
  | cons x rest ih =>
    rw [List.length_cons] at hl
    rw [List.foldl_cons, addLeaf]
    split_ifs
    · exact ih (by omega) h
    · exact ih (by simp; omega) (add_heapHoldsAll _ (by omega) h)

theorem enumerateLeaves_heapHoldsAll (f : Table Word) : HeapHoldsAll (enumerateLeaves f) :=
  foldl_addLeaf_heapHoldsAll f (by simp [allSyms]) (by simp [HeapHoldsAll])

theorem enumerateLeaves_heap_length (f : Table Word) : (enumerateLeaves f).heap.length = distinctCount f := by
  simpa [enumerateLeaves_node, distinctLeaves_length] using (enumerateLeaves_heapHoldsAll f).length_eq

/-! ## The whole builder -/

/-- Everything `TB_BUILD` can yield: no tree, the single-symbol tree with its placeholder, or the merges' result. -/
theorem buildTree_ok {ph : Byte} {f : Table Word} {t : Tree} (h : buildTree ph f = .ok t) :
    (distinctCount f = 0 ∧ t = { node := [], root := 0, empty := true }) ∨
    (∃ leaf, distinctLeaves f = [leaf] ∧
      t = { node := [leaf, placeholderNode ph, internalNode leaf.freq 0 1], root := 2, empty := false }) ∨
    (2 ≤ distinctCount f ∧ ∃ c, mergeAll (distinctCount f) (enumerateLeaves f) = .ok c ∧ t = popRoot c) := by
  have hn := enumerateLeaves_node f
  have hk := distinctLeaves_length f
  simp only [buildTree, enumerateLeaves_heap_length, hn] at h
  rcases hl : distinctLeaves f with _ | ⟨leaf, _ | ⟨second, others⟩⟩
  · rw [hl] at h hk
    exact .inl ⟨hk.symm, by simpa using h.symm⟩
  · rw [hl] at h
    exact .inr (.inl ⟨leaf, rfl, by simpa using h.symm⟩)
  · rw [hl] at h hk
    refine .inr (.inr ⟨by simp at hk; omega, ?_⟩)
    cases hm : mergeAll (distinctCount f) (enumerateLeaves f) with
    | error r => simp [hm] at h
    | ok c => exact ⟨c, rfl, by simpa [hm] using h.symm⟩

end Sys2Proof.Laws
end

section
/-! PROOFS. The shape of a valid tree (10 R33, 41 R102). The loop of merges keeps a partial tree: the records built so far
obey the rules of R33, and every record is a child of an internal record or stands in the heap. -/

namespace Sys2Proof.Laws

open Sys2Proof.Machine
open scoped List

/-! ## Records whose children stand before them -/

/-- The clause of R33 about internal nodes, for the records built so far. -/
def ChildrenOk (node : List Node) : Prop :=
  ∀ (i : Nat) (n : Node), node[i]? = some n → n.isLeaf = false →
    n.ph = false ∧ n.left.toNat < i ∧ n.right.toNat < i ∧
      n.freq.toNat = (freqAt node n.left).toNat + (freqAt node n.right).toNat

/-- The indices an internal record names. -/
def childIndices (n : Node) : List Nat := [n.left.toNat, n.right.toNat]

theorem childrenOk_concat_internal {node : List Node} {x y : NodeIdx} (h : ChildrenOk node)
    (hx : x.toNat < node.length) (hy : y.toNat < node.length)
    (hs : (freqAt node x).toNat + (freqAt node y).toNat < 2 ^ 64) :
    ChildrenOk (node ++ [internalNode (freqAt node x + freqAt node y) x y]) := by
  intro i n hi hleaf
  rcases getElem?_concat_some hi with hi | ⟨rfl, rfl⟩
  · obtain ⟨hph, hl, hr, hf⟩ := h i n hi hleaf
    have hlt : i < node.length := (List.getElem?_eq_some_iff.1 hi).1
    rw [freqAt_append _ (by omega), freqAt_append _ (by omega)]
    exact ⟨hph, hl, hr, hf⟩
  · refine ⟨rfl, hx, hy, ?_⟩
    simp only [internalNode, freqAt_append _ hx, freqAt_append _ hy, BitVec.toNat_add]
    exact Nat.mod_eq_of_lt hs

/-! ## The partial tree of the loop of merges -/

/-- What the builder works on while it merges the trees of `m` leaves. -/
structure PartialTree (m : Nat) (b : Build) : Prop where
  bound : m ≤ 256
  full : m ≤ b.node.length
  size : b.node.length + b.heap.length = 2 * m
  leaves : ∀ (i : Nat) (n : Node), b.node[i]? = some n → (n.isLeaf = true ↔ i < m)
  children : ChildrenOk b.node
  parents : ((b.node.drop m).flatMap childIndices ++ b.heap.map BitVec.toNat).Perm (List.range b.node.length)
  distinct : ((b.node.filter (fun n => n.isLeaf && !n.ph)).map (fun n => n.sym)).Nodup

theorem PartialTree.lt_of_mem_heap {m : Nat} {b : Build} (h : PartialTree m b) {x : NodeIdx} (hx : x ∈ b.heap) :
    x.toNat < b.node.length :=
  List.mem_range.1 (h.parents.mem_iff.1 (List.mem_append_right _ (List.mem_map_of_mem hx)))

/-- The builder starts with a partial tree: the leaves alone, all in the heap. -/
theorem enumerateLeaves_partialTree (f : Table Word) : PartialTree (distinctCount f) (enumerateLeaves f) := by
  have hlen : (enumerateLeaves f).node.length = distinctCount f := by
    rw [enumerateLeaves_node, distinctLeaves_length]
  have hleaf : ∀ n ∈ (enumerateLeaves f).node, n.isLeaf = true ∧ n.ph = false := fun n hn =>
    isLeaf_of_mem_distinctLeaves (enumerateLeaves_node f ▸ hn)
  refine
    { bound := distinctCount_le f
      full := hlen.ge
      size := by rw [hlen, enumerateLeaves_heap_length]; omega
      leaves := fun i n hi => ?_
      children := fun i n hi hint => ?_
      parents := ?_
      distinct := ?_ }
  · exact iff_of_true (hleaf n (List.mem_of_getElem? hi)).1 (hlen ▸ (List.getElem?_eq_some_iff.1 hi).1)
  · simp [(hleaf n (List.mem_of_getElem? hi)).1] at hint
  · rw [List.drop_of_length_le hlen.le]
    exact enumerateLeaves_heapHoldsAll f
  · rw [List.filter_eq_self.2 fun n hn => by simp [hleaf n hn], enumerateLeaves_node]
    exact distinctLeaves_sym_nodup f

/-- The new parent takes two entries' place in the heap, so that still every record has one parent or one entry. -/
theorem parents_after_merge {node : List Node} {m : Nat} {heap rest new : List NodeIdx} {x y : NodeIdx} (w : Word)
    (hm : m ≤ node.length) (hn : node.length < 512) (hpop : heap.Perm (x :: y :: rest))
    (hpush : new.Perm (BitVec.ofNat 9 node.length :: rest))
    (h : ((node.drop m).flatMap childIndices ++ heap.map BitVec.toNat).Perm (List.range node.length)) :
    (((node ++ [internalNode w x y]).drop m).flatMap childIndices ++ new.map BitVec.toNat).Perm
      (List.range (node.length + 1)) := by
  have hpush' := hpush.map BitVec.toNat
  rw [List.map_cons, toNat_ofNat_nodeIdx hn] at hpush'
  rw [List.drop_append_of_le_length hm, List.flatMap_append, List.append_assoc, List.range_succ]
  calc (node.drop m).flatMap childIndices ++ ([internalNode w x y].flatMap childIndices ++ new.map BitVec.toNat)
    _ ~ (node.drop m).flatMap childIndices ++ ([x.toNat, y.toNat] ++ node.length :: rest.map BitVec.toNat) :=
      (hpush'.append_left _).append_left _
    _ ~ node.length :: ((node.drop m).flatMap childIndices ++ (x :: y :: rest).map BitVec.toNat) := by
      rw [← List.append_assoc, List.map_cons, List.map_cons]
      exact List.perm_middle.trans (.of_eq (by simp))
    _ ~ node.length :: List.range node.length := (((hpop.symm.map _).append_left _).trans h).cons _
    _ ~ List.range node.length ++ [node.length] := (List.perm_append_singleton _ _).symm

theorem mergeOnce_partialTree {m : Nat} {b c : Build} (h2 : 1 < b.heap.length) (hb : PartialTree m b)
    (h : mergeOnce b = .ok c) : PartialTree m c := by
  obtain ⟨x, y, h1, rest, hx, hy, hsum, rfl⟩ := mergeOnce_ok h2 h
  have hpop : b.heap.Perm (x :: y :: rest) := (heapPop_perm hx).trans ((heapPop_perm hy).cons x)
  have hsize := hb.size
  have hbound := hb.bound
  obtain ⟨hnode, hheap⟩ := mergeOnce_sizes h2 h
  have hlt : b.node.length < 512 := by omega
  have hxlt := hb.lt_of_mem_heap (hpop.mem_iff.2 (by simp : x ∈ _))
  have hylt := hb.lt_of_mem_heap (hpop.mem_iff.2 (by simp : y ∈ _))
  refine
    { bound := hbound
      full := hb.full.trans (by simp)
      size := by omega
      leaves := fun i n hi => ?_
      children := childrenOk_concat_internal hb.children hxlt hylt hsum
      parents := ?_
      distinct := ?_ }
  · rcases getElem?_concat_some hi with hi | ⟨rfl, rfl⟩
    · exact hb.leaves i n hi
    · exact iff_of_false (by simp [internalNode]) (not_lt.2 hb.full)
  · rw [add_node, List.length_append]
    exact parents_after_merge _ hb.full hlt hpop (add_heap_perm ..) hb.parents
  · simpa [internalNode] using hb.distinct

/-! ## The finished tree -/

/-- With one entry left, it is the last record, and the partial tree is a tree. -/
theorem PartialTree.finished {m : Nat} {b : Build} (h : PartialTree m b) (hm : 2 ≤ m) (h1 : b.heap.length = 1) :
    TreeShape m b.node ∧ ∃ r, b.heap = [r] ∧ r.toNat = 2 * m - 2 := by
  obtain ⟨r, hr⟩ := List.length_eq_one_iff.1 h1
  have hlen : b.node.length = 2 * m - 2 + 1 := by have := h.size; omega
  have hp := h.parents
  rw [hr, List.map_singleton, hlen] at hp
  have hlast : 2 * m - 2 ∉ (b.node.drop m).flatMap childIndices := by
    intro hmem
    obtain ⟨n, hn, hc⟩ := List.mem_flatMap.1 hmem
    obtain ⟨k, hk, rfl⟩ := List.mem_drop_iff_getElem.1 hn
    have hget : b.node[m + k]? = some b.node[m + k] := List.getElem?_eq_getElem (by omega)
    have hint : b.node[m + k].isLeaf = false := by
      have := h.leaves _ _ hget
      rw [Bool.eq_false_iff, Ne, this]
      omega
    obtain ⟨-, hl, hr, -⟩ := h.children _ _ hget hint
    simp only [childIndices, List.mem_cons, List.not_mem_nil, or_false] at hc
    omega
  have hroot : r.toNat = 2 * m - 2 := by
    have : 2 * m - 2 ∈ (b.node.drop m).flatMap childIndices ++ [r.toNat] := hp.mem_iff.2 (by simp)
    rcases List.mem_append.1 this with hmem | hmem
    · exact absurd hmem hlast
    · exact (List.mem_singleton.1 hmem).symm
  rw [hroot, List.range_succ] at hp
  exact ⟨
    { two := hm
      bound := h.bound
      size := by omega
      leaves := h.leaves
      children := h.children
      parents := (List.perm_append_right_iff _).1 hp
      distinct := h.distinct }, r, hr, hroot⟩

theorem mergeAll_treeShape {f : Table Word} {c : Build} (hk : 2 ≤ distinctCount f)
    (h : mergeAll (distinctCount f) (enumerateLeaves f) = .ok c) :
    TreeShape (distinctCount f) c.node ∧ ∃ r, c.heap = [r] ∧ r.toNat = 2 * distinctCount f - 2 := by
  have hl := enumerateLeaves_heap_length f
  obtain ⟨⟨hp, hpos⟩, hle⟩ := mergeAll_invariant (fun b => PartialTree (distinctCount f) b ∧ 1 ≤ b.heap.length)
    (fun b d h2 hb hd => ⟨mergeOnce_partialTree h2 hb.1 hd, by have := mergeOnce_sizes h2 hd; omega⟩)
    (by omega) ⟨enumerateLeaves_partialTree f, by omega⟩ h
  exact hp.finished hk (by omega)

/-- The single-symbol tree (41 R97) has the shape too. -/
theorem singleTree_treeShape (ph x : Byte) (w : Word) :
    TreeShape 2 [leafNode x w, placeholderNode ph, internalNode w 0 1] where
  two := le_refl 2
  bound := by decide
  size := rfl
  leaves i n hi := by
    match i, hi with
    | 0, hi => cases hi; simp [leafNode]
    | 1, hi => cases hi; simp [placeholderNode]
    | 2, hi => cases hi; simp [internalNode]
  children i n hi hint := by
    match i, hi with
    | 0, hi => cases hi; simp [leafNode] at hint
    | 1, hi => cases hi; simp [placeholderNode] at hint
    | 2, hi => cases hi; simp [internalNode, freqAt, leafNode, placeholderNode]
  parents := by simp [internalNode, List.range_succ]
  distinct := by simp [leafNode, placeholderNode, internalNode]

/-- A tree that `TB_BUILD` yields and that is not empty has the shape of R33, with the last record its root. -/
theorem buildTree_treeShape {ph : Byte} {f : Table Word} {t : Tree} (h : buildTree ph f = .ok t)
    (he : t.empty = false) : ∃ m, TreeShape m t.node ∧ t.root.toNat = 2 * m - 2 := by
  rcases buildTree_ok h with ⟨-, rfl⟩ | ⟨leaf, hl, rfl⟩ | ⟨hk, c, hc, rfl⟩
  · simp at he
  · obtain ⟨x, -, rfl⟩ := List.mem_map.1 (hl ▸ List.mem_singleton_self leaf : leaf ∈ distinctLeaves f)
    exact ⟨2, singleTree_treeShape ph x _, rfl⟩
  · obtain ⟨hshape, r, hr, hroot⟩ := mergeAll_treeShape hk hc
    rw [popRoot, hr, heapPop_singleton]
    exact ⟨_, hshape, hroot⟩

/-- Settles O32: the flags make the tree the builder's, and the builder's trees have the shape. -/
theorem validTreesHaveTheShapeOfR33 : Obligations.ValidTreesHaveTheShapeOfR33 := by
  intro s hs hvalid hempty
  exact buildTree_treeShape (hs.tree hvalid) hempty

end Sys2Proof.Laws
end

section
/-! SUPPORT. Everything a command's pseudocode can change when it does not raise, said once for each of the nineteen
commands; the rules about flags and writers (10 R32, 20 R50) read it off. -/

namespace Sys2Proof.Laws

open Sys2Proof.Machine

/-- What command `i` makes of `s` when its pseudocode ends normally: each row names the items that may change, with the
values that later rules need. -/
def Effect : Instr → State → State → Prop
  | .nop, s, t => t = s
  | .sessionReset, s, t => t = sessionReset s
  | .ftClear, s, t | .ftAcc _, s, t | .ftAccbuf, s, t | .ftLoad _, s, t =>
    ∃ f, t = { tableChanged s with freq := f }
  | .ftRead _, s, t => ∃ v, t = { s with regs := { s.regs with fdata := v } }
  | .tbBuild, s, t => ∃ tree, buildTree s.params.phSym s.freq = .ok tree ∧ t = s.withTree tree
  | .ndRead _, s, t => ∃ f n, t = { s with regs := { s.regs with nodeFreq := f, nodeInfo := n } }
  | .ctDerive, s, t =>
    s.status.treeValid = true ∧ t = { s with code := s.derivedCodes, status := { s.status with codesValid := true } }
  | .ctRead _, s, t =>
    ∃ l b0 b1 b2 b3,
      t = { s with regs := { s.regs with clen := l, cbits0 := b0, cbits1 := b1, cbits2 := b2, cbits3 := b3 } }
  | .bwReset, s, t => t = bwReset s
  | .bwPut _, s, t | .bwPutsym _, s, t =>
    ∃ acc n m, t = { s with bwAcc := acc, obuf := m, regs := { s.regs with bwBits := n } }
  | .bwFlush, s, t =>
    ∃ m l, t = { s with
      obuf := m
      draws := s.draws + 1
      regs := { s.regs with outLen := l }
      status := { s.status with bwFlushed := true } }
  | .brReset, s, t | .brGet, s, t => ∃ p v, t = { s with regs := { s.regs with brPos := p, bitval := v } }
  | .encRun, s, t =>
    ∃ acc n m l, t = { s with
      bwAcc := acc
      obuf := m
      draws := s.draws + 1
      regs := { s.regs with bwBits := n, outLen := l }
      status := { s.status with bwFlushed := true } }
  | .decRun, s, t =>
    ∃ m p l, t = { s with
      obuf := m
      draws := s.draws + 1
      regs := { s.regs with brPos := p, outLen := l }
      status := { s.status with decShort := decide (l < s.regs.origSize) } }

/-! ## The frequency table -/

/-- The state `s` with some counts changed. -/
def FreqOnly (s t : State) : Prop := ∃ f, t = { s with freq := f }

theorem ftAcc_freqOnly {sym : Byte} {s u t : State} (hu : FreqOnly s u) (h : ftAcc sym u = .ok t) : FreqOnly s t := by
  obtain ⟨f, rfl⟩ := hu
  exact ⟨_, (ftAcc_ok h).2⟩

theorem ftAccByte_ok {i : Nat} {s t : State} (h : ftAccByte i s = .ok t) :
    ∃ v, ibufGet (BitVec.ofNat 64 i) s = .ok v ∧ ftAcc v s = .ok t := by
  unfold ftAccByte at h
  cases hv : ibufGet (BitVec.ofNat 64 i) s with
  | error r => simp [hv] at h
  | ok v => exact ⟨v, rfl, by simpa [hv] using h⟩

theorem ftAccbuf_ok {s t : State} (h : ftAccbuf s = .ok t) :
    s.regs.inLen.toNat ≤ s.params.ibufCap ∧ forUp ftAccByte s.regs.inLen.toNat 0 (tableChanged s) = .ok t := by
  unfold ftAccbuf at h
  split_ifs at h with hc
  exact ⟨by omega, h⟩

theorem ftAccbuf_freqOnly {s t : State} (h : ftAccbuf s = .ok t) : FreqOnly (tableChanged s) t :=
  forUp_invariant (FreqOnly (tableChanged s))
    (fun _ _ _ hu hb => by
      obtain ⟨v, -, hv⟩ := ftAccByte_ok hb
      exact ftAcc_freqOnly hu hv)
    _ _ _ _ ⟨_, rfl⟩ (ftAccbuf_ok h).2

/-! ## Tree and codes -/

theorem tbBuild_ok {s t : State} (h : tbBuild s = .ok t) :
    ∃ tree, buildTree s.params.phSym s.freq = .ok tree ∧ t = s.withTree tree := by
  unfold tbBuild at h
  cases hb : buildTree s.params.phSym s.freq with
  | error r => simp [hb] at h
  | ok tree => exact ⟨tree, rfl, by simpa [hb] using h.symm⟩

theorem readNode_ok {idx : NodeIdx} {s t : State} (h : readNode idx s = .ok t) :
    idx.toNat < s.nn ∧
      t = { s with regs := { s.regs with nodeFreq := (s.nodeAt idx).freq, nodeInfo := (s.nodeAt idx).info } } := by
  unfold readNode at h
  split_ifs at h with hc
  exact ⟨by omega, by simpa using h.symm⟩

/-! ## The writer -/

/-- The state `s` with bits appended by the writer. -/
def WriterOnly (s t : State) : Prop :=
  ∃ acc n m, t = { s with bwAcc := acc, obuf := m, regs := { s.regs with bwBits := n } }

theorem WriterOnly.refl (s : State) : WriterOnly s s := ⟨_, _, _, rfl⟩

theorem bwPut_writerOnly {b : Bool} {s u t : State} (hu : WriterOnly s u) (h : bwPut b u = .ok t) :
    WriterOnly s t := by
  obtain ⟨acc, n, m, rfl⟩ := hu
  exact ⟨_, _, _, (bwPut_ok h).2⟩

theorem bwPutsym_writerOnly {sym : Byte} {s u t : State} (hu : WriterOnly s u) (h : bwPutsym sym u = .ok t) :
    WriterOnly s t :=
  bwPutAll_invariant (WriterOnly s) (fun _ _ _ => bwPut_writerOnly) _ _ _ hu h

theorem encByte_ok {i : Nat} {s t : State} (h : encByte i s = .ok t) :
    ∃ v, ibufGet (BitVec.ofNat 64 i) s = .ok v ∧ bwPutsym v s = .ok t := by
  unfold encByte at h
  cases hv : ibufGet (BitVec.ofNat 64 i) s with
  | error r => simp [hv] at h
  | ok v => exact ⟨v, rfl, by simpa [hv] using h⟩

/-- `ENC_RUN` without a raise: the loop over the input from an empty writer, then the flush. -/
theorem encRun_ok {s t : State} (h : encRun s = .ok t) :
    s.regs.inLen.toNat ≤ s.params.ibufCap ∧
      ∃ u, forUp encByte s.regs.inLen.toNat 0 (bwReset s) = .ok u ∧ bwFlush u = .ok t := by
  unfold encRun at h
  split_ifs at h with hc
  refine ⟨by omega, ?_⟩
  cases hl : forUp encByte s.regs.inLen.toNat 0 (bwReset s) with
  | error r => simp [hl] at h
  | ok u => exact ⟨u, rfl, by simpa [hl] using h⟩

theorem encLoop_writerOnly {count first : Nat} {s t : State} (h : forUp encByte count first s = .ok t) :
    WriterOnly s t :=
  forUp_invariant (WriterOnly s)
    (fun _ _ _ hu hb => by
      obtain ⟨v, -, hv⟩ := encByte_ok hb
      exact bwPutsym_writerOnly hu hv)
    _ _ _ _ (.refl s) h

/-! ## The reader and the decoder -/

theorem readBit_ok {s t : State} (h : readBit s = .ok t) :
    ∃ b u, brGet s = .ok (b, u) ∧ t = { u with regs := { u.regs with bitval := BitVec.ofBool b } } := by
  unfold readBit at h
  cases hg : brGet s with
  | error r => simp [hg] at h
  | ok p => exact ⟨p.1, p.2, rfl, by simpa [hg] using h.symm⟩

/-- What every bit read and every byte stored keeps holds after the decode loop. -/
theorem decLoop_invariant (P : State → Prop) (hget : ∀ s t b, P s → brGet s = .ok (b, t) → P t)
    (hput : ∀ i v s t, P s → obufPut i v s = .ok t → P t) {fuel : Nat} {cur : NodeIdx} {produced n : Word}
    {s t : State} (hs : P s) (h : decLoop fuel cur produced s = .ok (n, t)) : P t := by
  induction fuel generalizing cur produced s with
  | zero =>
    obtain ⟨-, rfl⟩ : produced = n ∧ s = t := by simpa [decLoop] using h
    exact hs
  | succ fuel ih =>
    simp only [decLoop] at h
    split_ifs at h
    · cases hg : brGet s with
      | error r => simp [hg] at h
      | ok p =>
        obtain ⟨b, u⟩ := p
        have hu := hget _ _ _ hs hg
        simp only [hg] at h
        split_ifs at h
        · cases hp : obufPut produced (u.nodeAt ((u.nodeAt cur).child b)).sym u with
          | error r => simp [hp] at h
          | ok v =>
            rw [hp] at h
            exact ih (hput _ _ _ _ hu hp) h
        · exact ih hu h
    · obtain ⟨-, rfl⟩ : produced = n ∧ s = t := by simpa using h
      exact hs

theorem decWalk_invariant (P : State → Prop) (hget : ∀ s t b, P s → brGet s = .ok (b, t) → P t)
    (hput : ∀ i v s t, P s → obufPut i v s = .ok t → P t) {n : Word} {s t : State} (hs : P s)
    (h : decWalk s = .ok (n, t)) : P t := by
  unfold decWalk at h
  split_ifs at h
  · obtain ⟨-, rfl⟩ : 0 = n ∧ s = t := by simpa using h
    exact hs
  · exact decLoop_invariant P hget hput hs h

/-- `DEC_RUN` without a raise: the walk from the start, then `OUT_LEN` and `DEC_SHORT`. -/
theorem decRun_ok {s t : State} (h : decRun s = .ok t) :
    s.regs.inLen.toNat ≤ s.params.ibufCap ∧ ceil8 s.regs.totalBits ≤ s.regs.inLen ∧
      ∃ n u, decWalk (decStart s) = .ok (n, u) ∧ t = decDone n u := by
  unfold decRun at h
  split_ifs at h with hc hb
  refine ⟨by omega, BitVec.not_lt.1 hb, ?_⟩
  cases hw : decWalk (decStart s) with
  | error r => simp [hw] at h
  | ok p => exact ⟨p.1, p.2, rfl, by simpa [hw] using h.symm⟩

/-- The state `s` with the cursor moved and bytes stored. -/
def DecoderOnly (s t : State) : Prop := ∃ m p, t = { s with obuf := m, regs := { s.regs with brPos := p } }

theorem decWalk_decoderOnly {n : Word} {s t : State} (h : decWalk s = .ok (n, t)) : DecoderOnly s t :=
  decWalk_invariant (DecoderOnly s)
    (fun _ _ _ hu hg => by
      obtain ⟨m, p, rfl⟩ := hu
      obtain ⟨-, -, -, -, rfl⟩ := brGet_ok hg
      exact ⟨_, _, rfl⟩)
    (fun _ _ _ _ hu hp => by
      obtain ⟨m, p, rfl⟩ := hu
      obtain ⟨-, rfl⟩ := obufPut_ok hp
      exact ⟨_, _, rfl⟩)
    ⟨_, _, rfl⟩ h

/-! ## All commands -/

theorem body_effect {i : Instr} {s t : State} (h : body i s = .ok t) : Effect i s t := by
  cases i with
  | nop | sessionReset | bwReset => exact (Except.ok.inj h).symm
  | ftClear | ftLoad | ftRead => exact ⟨_, (Except.ok.inj h).symm⟩
  | ftAcc sym => exact ftAcc_freqOnly ⟨_, rfl⟩ h
  | ftAccbuf => exact ftAccbuf_freqOnly h
  | tbBuild => exact tbBuild_ok h
  | ndRead idx => exact ⟨_, _, (readNode_ok (requires_ok h).2).2⟩
  | ctDerive => exact ⟨(requires_ok h).1, (Except.ok.inj (requires_ok h).2).symm⟩
  | ctRead sym => exact ⟨_, _, _, _, _, (Except.ok.inj (requires_ok h).2).symm⟩
  | bwPut bit => exact bwPut_writerOnly (.refl s) h
  | bwPutsym sym => exact bwPutsym_writerOnly (.refl s) (requires_ok h).2
  | bwFlush =>
    obtain ⟨-, m, -, rfl⟩ := bwFlush_ok h
    exact ⟨_, _, rfl⟩
  | brReset => exact ⟨_, _, (Except.ok.inj h).symm⟩
  | brGet =>
    obtain ⟨b, u, hg, rfl⟩ := readBit_ok h
    obtain ⟨-, -, -, -, rfl⟩ := brGet_ok hg
    exact ⟨_, _, rfl⟩
  | encRun =>
    obtain ⟨-, u, hl, hf⟩ := encRun_ok (requires_ok h).2
    obtain ⟨acc, n, m, rfl⟩ := encLoop_writerOnly hl
    obtain ⟨-, m', -, rfl⟩ := bwFlush_ok hf
    exact ⟨_, _, _, _, rfl⟩
  | decRun =>
    obtain ⟨-, -, n, u, hw, rfl⟩ := decRun_ok (requires_ok h).2
    obtain ⟨m, p, rfl⟩ := decWalk_decoderOnly hw
    exact ⟨_, _, _, rfl⟩

end Sys2Proof.Laws
end

section
/-! PROOFS. What the commands do to the flags and to every other item (10 R20 to R32, 20 R50), read off `Effect`. -/

namespace Sys2Proof.Laws

open Sys2Proof.Machine

/-- A completion is normal, after everything `Effect` allows, or in error. -/
theorem exec_next {i : Instr} {s t : State} (h : exec i s = .next t) :
    (∃ u, body i s = .ok u ∧ Effect i s u ∧ t = complete u) ∨ ∃ r, t = errorCompletion r s := by
  rw [exec_eq_finish] at h
  rcases finish_next h with ⟨u, hu, rfl⟩ | ⟨r, -, rfl⟩
  · exact .inl ⟨u, hu, body_effect hu, rfl⟩
  · exact .inr ⟨r, rfl⟩

/-- No command writes `IBUF`, `IRQ_EN`, the parameters, the ports or the host's side (20 R50, 10 R19). -/
theorem Effect.frame {i : Instr} {s t : State} (h : Effect i s t) :
    t.ibuf = s.ibuf ∧ t.irqEn = s.irqEn ∧ t.params = s.params ∧ t.host = s.host ∧ t.regRdata = s.regRdata ∧
    t.bufRdata = s.bufRdata ∧ t.rstN = s.rstN := by
  cases i with
  | nop | sessionReset | bwReset =>
    obtain rfl := h
    exact ⟨rfl, rfl, rfl, rfl, rfl, rfl, rfl⟩
  | ftClear | ftAcc | ftAccbuf | ftLoad | ftRead =>
    obtain ⟨_, rfl⟩ := h
    exact ⟨rfl, rfl, rfl, rfl, rfl, rfl, rfl⟩
  | tbBuild =>
    obtain ⟨_, -, rfl⟩ := h
    exact ⟨rfl, rfl, rfl, rfl, rfl, rfl, rfl⟩
  | ctDerive =>
    obtain ⟨-, rfl⟩ := h
    exact ⟨rfl, rfl, rfl, rfl, rfl, rfl, rfl⟩
  | ndRead | bwFlush | brReset | brGet =>
    obtain ⟨_, _, rfl⟩ := h
    exact ⟨rfl, rfl, rfl, rfl, rfl, rfl, rfl⟩
  | bwPut | bwPutsym | decRun =>
    obtain ⟨_, _, _, rfl⟩ := h
    exact ⟨rfl, rfl, rfl, rfl, rfl, rfl, rfl⟩
  | encRun =>
    obtain ⟨_, _, _, _, rfl⟩ := h
    exact ⟨rfl, rfl, rfl, rfl, rfl, rfl, rfl⟩
  | ctRead =>
    obtain ⟨_, _, _, _, _, rfl⟩ := h
    exact ⟨rfl, rfl, rfl, rfl, rfl, rfl, rfl⟩

/-- `TREE_EMPTY` says that no symbol has a count (41 R98, R99). -/
theorem buildTree_empty {ph : Byte} {f : Table Word} {t : Tree} (h : buildTree ph f = .ok t) :
    t.empty = (distinctCount f == 0) := by
  rcases buildTree_ok h with ⟨hk, rfl⟩ | ⟨leaf, hl, rfl⟩ | ⟨hk, c, -, rfl⟩
  · simp [hk]
  · simp [← distinctLeaves_length, hl]
  · have : distinctCount f ≠ 0 := by omega
    unfold popRoot
    split <;> simp [this]

theorem Effect.flags {i : Instr} {s t : State} (h : Effect i s t) :
    t.status.treeValid = (if i.mnemonic ∈ [.ftClear, .ftAcc, .ftAccbuf, .ftLoad, .sessionReset] then false
      else if i = .tbBuild then true else s.status.treeValid) ∧
    t.status.treeEmpty = (if i = .sessionReset then false
      else if i = .tbBuild then (distinctCount s.freq == 0) else s.status.treeEmpty) ∧
    t.status.codesValid = (if i.mnemonic ∈ [.ftClear, .ftAcc, .ftAccbuf, .ftLoad, .tbBuild, .sessionReset] then false
      else if i = .ctDerive then true else s.status.codesValid) ∧
    t.status.bwFlushed = (if i = .bwFlush ∨ i = .encRun then true
      else if i = .bwReset ∨ i = .sessionReset then false else s.status.bwFlushed) ∧
    t.status.decShort = (if i = .decRun then decide (t.regs.outLen < s.regs.origSize)
      else if i = .sessionReset then false else s.status.decShort) := by
  cases i with
  | nop | sessionReset | bwReset =>
    obtain rfl := h
    exact ⟨rfl, rfl, rfl, rfl, rfl⟩
  | ftClear | ftAcc | ftAccbuf | ftLoad | ftRead =>
    obtain ⟨_, rfl⟩ := h
    exact ⟨rfl, rfl, rfl, rfl, rfl⟩
  | tbBuild =>
    obtain ⟨tree, hb, rfl⟩ := h
    exact ⟨rfl, buildTree_empty hb, rfl, rfl, rfl⟩
  | ctDerive =>
    obtain ⟨-, rfl⟩ := h
    exact ⟨rfl, rfl, rfl, rfl, rfl⟩
  | ndRead | bwFlush | brReset | brGet =>
    obtain ⟨_, _, rfl⟩ := h
    exact ⟨rfl, rfl, rfl, rfl, rfl⟩
  | bwPut | bwPutsym | decRun =>
    obtain ⟨_, _, _, rfl⟩ := h
    exact ⟨rfl, rfl, rfl, rfl, rfl⟩
  | encRun =>
    obtain ⟨_, _, _, _, rfl⟩ := h
    exact ⟨rfl, rfl, rfl, rfl, rfl⟩
  | ctRead =>
    obtain ⟨_, _, _, _, _, rfl⟩ := h
    exact ⟨rfl, rfl, rfl, rfl, rfl⟩

/-- The items and their writers (10 R20 to R29), and what no command but `SESSION_RESET` writes when it does not raise: the
host's operand registers, the latched word, the error record, `OVR` and `ERR`. -/
theorem Effect.writers {i : Instr} {s t : State} (h : Effect i s t) (hi : i ≠ .sessionReset) :
    ((i.mnemonic ∉ [.ftClear, .ftAcc, .ftAccbuf, .ftLoad] → t.freq = s.freq) ∧
    (i ≠ .tbBuild → t.node = s.node ∧ t.regs.root = s.regs.root ∧ t.heap = s.heap) ∧
    (i ≠ .ctDerive → t.code = s.code) ∧
    (i.mnemonic ∉ [.bwPut, .bwPutsym, .bwFlush, .encRun, .decRun] → t.obuf = s.obuf ∧ t.draws = s.draws) ∧
    (i.mnemonic ∉ [.bwReset, .bwPut, .bwPutsym, .encRun] → t.regs.bwBits = s.regs.bwBits ∧ t.bwAcc = s.bwAcc) ∧
    (i.mnemonic ∉ [.bwReset, .bwFlush, .encRun, .decRun] → t.regs.outLen = s.regs.outLen) ∧
    (i.mnemonic ∉ [.brReset, .brGet, .decRun] → t.regs.brPos = s.regs.brPos) ∧
    (i.mnemonic ∉ [.brReset, .brGet] → t.regs.bitval = s.regs.bitval) ∧
    (i.mnemonic ≠ .ftRead → t.regs.fdata = s.regs.fdata) ∧
    (i.mnemonic ≠ .ndRead → t.regs.nodeInfo = s.regs.nodeInfo ∧ t.regs.nodeFreq = s.regs.nodeFreq) ∧
    (i.mnemonic ≠ .ctRead → t.regs.clen = s.regs.clen ∧ t.regs.cbits0 = s.regs.cbits0 ∧
      t.regs.cbits1 = s.regs.cbits1 ∧ t.regs.cbits2 = s.regs.cbits2 ∧ t.regs.cbits3 = s.regs.cbits3)) ∧
    (t.regs.inLen = s.regs.inLen ∧ t.regs.origSize = s.regs.origSize ∧ t.regs.totalBits = s.regs.totalBits ∧
    t.cmd = s.cmd ∧ t.errcode = s.errcode ∧ t.errinfo = s.errinfo ∧ t.status.ovr = s.status.ovr ∧
    t.status.err = s.status.err) := by
  cases i with
  | sessionReset => exact absurd rfl hi
  | nop | bwReset =>
    obtain rfl := h
    simp [Instr.mnemonic]
  | ftClear | ftAcc | ftAccbuf | ftLoad | ftRead =>
    obtain ⟨_, rfl⟩ := h
    simp [Instr.mnemonic, Status.tableChanged]
  | tbBuild =>
    obtain ⟨_, -, rfl⟩ := h
    simp [Instr.mnemonic, Status.treeBuilt]
  | ctDerive =>
    obtain ⟨-, rfl⟩ := h
    simp [Instr.mnemonic]
  | ndRead | bwFlush | brReset | brGet =>
    obtain ⟨_, _, rfl⟩ := h
    simp [Instr.mnemonic]
  | bwPut | bwPutsym | decRun =>
    obtain ⟨_, _, _, rfl⟩ := h
    simp [Instr.mnemonic]
  | encRun =>
    obtain ⟨_, _, _, _, rfl⟩ := h
    simp [Instr.mnemonic]
  | ctRead =>
    obtain ⟨_, _, _, _, _, rfl⟩ := h
    simp [Instr.mnemonic]

theorem Effect.err {i : Instr} {s t : State} (h : Effect i s t) (hs : s.status.err = false) :
    t.status.err = false := by
  by_cases hi : i = .sessionReset
  · subst hi
    obtain rfl := h
    rfl
  · obtain ⟨-, -, -, -, -, -, -, -, he⟩ := h.writers hi
    exact he.trans hs

/-- Settles O52: a normal completion writes the flags as `Effect` says, an error completion clears all five. -/
theorem flagsChangeAsR32Says : Obligations.FlagsChangeAsR32Says := by
  intro i s t hs h
  rcases exec_next h with ⟨u, -, hu, rfl⟩ | ⟨r, rfl⟩
  · exact ⟨fun herr => absurd (hu.err hs) (by simpa using herr), fun _ => hu.flags⟩
  · exact ⟨fun _ => ⟨rfl, rfl, rfl, rfl, rfl⟩, fun herr => absurd herr (by simp [Status.failed])⟩

/-- Settles O53: the writers are read off `Effect`; an error completion is excluded by `ERR`. -/
theorem eachItemHasItsWriters : Obligations.EachItemHasItsWriters := by
  intro i s t hs h herr hi
  rcases exec_next h with ⟨u, -, hu, rfl⟩ | ⟨r, rfl⟩
  · obtain ⟨⟨h1, h2, h3, h4, h5, h6, h7, h8, h9, h10, h11⟩, k1, k2, k3, k4, k5, k6, k7, -⟩ := hu.writers hi
    exact ⟨h1, h2, h3, h4, h5, h6, h7, h8, h9, h10, h11, k1, k2, k3, k4, k5, k6, k7⟩
  · exact absurd herr (by simp [Status.failed])

end Sys2Proof.Laws
end

section
/-! SUPPORT. The host's turn: which step it is, which register an index names, and everything one access can change,
said once (10 R13, 45 R150 to R157, 70 R200). -/

namespace Sys2Proof.Laws

open Sys2Proof.Machine

/-! ## Which step it is -/

theorem hostTurn_of_access {s : State} {a : HostAccess} {rest : List HostAccess} (h : s.host = a :: rest) :
    hostTurn s = hostAccess a { s with host := rest } := by
  simp only [hostTurn, h]

/-- While the host has an access to make, other than waiting, the step is that access. -/
theorem step_of_access {s : State} {a : HostAccess} {rest : List HostAccess} (h : s.host = a :: rest)
    (ha : a ≠ .wait) : step s = .next (hostAccess a { s with host := rest }) := by
  have hy : s.hostYields = false := by
    cases a <;> simp_all [State.hostYields]
  simp [step, State.sequencerMoves, hy, hostTurn_of_access h]

/-- A register write with `rst_n` high is not lost. -/
theorem step_of_regWrite {s : State} {idx : BitVec 8} {v : Word} {rest : List HostAccess} (hrst : s.rstN = true)
    (h : s.host = .regWrite idx v :: rest) : step s = .next (hostRegWrite idx v { s with host := rest }) := by
  rw [step_of_access h (by simp), hostAccess]
  exact congrArg _ (unlessReset_high _ hrst)

/-! ## The registers' indices -/

theorem regAt_index (r : RegName) : regAt r.index = some r := by
  cases r <;> rfl

theorem regAt_some {idx : BitVec 8} {r : RegName} (h : regAt idx = some r) : idx = r.index := by
  rw [regAt] at h
  exact (beq_iff_eq.1 (List.find?_some h :)).symm

theorem regAt_none {idx : BitVec 8} (h : regAt idx = none) (r : RegName) : idx ≠ r.index := by
  rintro rfl
  simp [regAt_index] at h

/-! ## What one access changes -/

/-- Everything a host access can make of the core (45 R150 to R157, 70 R200): values on the ports; a level of `rst_n`; and
with `rst_n` high, the writes that are not lost. -/
inductive HostEffect (s : State) : State → Prop where
  /-- the ports' values and the draw counter change, or nothing at all -/
  | ports (word : Word) (byte : Byte) (draws : Nat) :
    HostEffect s { s with regRdata := word, bufRdata := byte, draws := draws }
  | rise : HostEffect s { s with rstN := true }
  | fall : HostEffect s (hardReset s)
  | accepted (w : Word) (hrst : s.rstN = true) (hacc : s.accepts w = true) : HostEffect s (accept w s)
  | dropped (hrst : s.rstN = true) : HostEffect s { s with status := { s.status with ovr := true } }
  | cleared (v : Word) (hrst : s.rstN = true) : HostEffect s { s with status := s.status.clearedBy v }
  | enabled (m : BitVec 2) (hrst : s.rstN = true) : HostEffect s { s with irqEn := m }
  | operands (inLen origSize totalBits fdata : Word) (hrst : s.rstN = true) (hbusy : s.status.busy = false) :
    HostEffect s { s with
      regs := { s.regs with inLen := inLen, origSize := origSize, totalBits := totalBits, fdata := fdata } }
  | inputByte (a : Nat) (v : Byte) (hrst : s.rstN = true) (hbusy : s.status.busy = false)
      (ha : a < s.params.ibufCap) :
    HostEffect s { s with ibuf := s.ibuf.write a v }
  | outputByte (a : Nat) (v : Byte) (hrst : s.rstN = true) (hbusy : s.status.busy = false)
      (ha : a < s.params.obufCap) :
    HostEffect s { s with obuf := s.obuf.write a v }

theorem HostEffect.refl (s : State) : HostEffect s s := .ports s.regRdata s.bufRdata s.draws

theorem issue_effect (w : Word) {s : State} (hrst : s.rstN = true) : HostEffect s (issue w s) := by
  unfold issue
  split_ifs with hacc
  · exact .accepted w hrst hacc
  · exact .dropped hrst

theorem writeData_effect {f : DataRegs → DataRegs} {s : State}
    (h : s.status.busy = false → HostEffect s { s with regs := f s.regs }) : HostEffect s (writeData f s) := by
  unfold writeData
  split_ifs with hbusy
  · exact .refl s
  · exact h (eq_false_of_ne_true hbusy)

theorem hostRegWrite_effect (idx : BitVec 8) (v : Word) {s : State} (hrst : s.rstN = true) :
    HostEffect s (hostRegWrite idx v s) := by
  unfold hostRegWrite
  cases regAt idx with
  | none => exact .refl s
  | some r =>
    cases r with
    | cmd => exact issue_effect v hrst
    | status => exact .cleared v hrst
    | irqEn => exact .enabled _ hrst
    | inLen => exact writeData_effect (.operands v s.regs.origSize s.regs.totalBits s.regs.fdata hrst)
    | origSize => exact writeData_effect (.operands s.regs.inLen v s.regs.totalBits s.regs.fdata hrst)
    | totalBits => exact writeData_effect (.operands s.regs.inLen s.regs.origSize v s.regs.fdata hrst)
    | fdata => exact writeData_effect (.operands s.regs.inLen s.regs.origSize s.regs.totalBits v hrst)
    | _ => exact .refl s

theorem hostRegRead_effect (idx : BitVec 8) (s : State) : HostEffect s (hostRegRead idx s) := by
  unfold hostRegRead
  cases regAt idx with
  | none => exact .ports _ s.bufRdata s.draws
  | some r =>
    dsimp only
    split_ifs
    · exact .ports _ s.bufRdata _
    · exact .ports _ s.bufRdata s.draws

theorem hostBufWrite_effect (id : BufId) (a : Word) (v : Byte) {s : State} (hrst : s.rstN = true) :
    HostEffect s (hostBufWrite id a v s) := by
  unfold hostBufWrite
  split_ifs with hc
  · exact .refl s
  · rw [not_or, Bool.not_eq_true, not_le] at hc
    cases id with
    | ibuf => exact .inputByte _ v hrst hc.1 hc.2
    | obuf => exact .outputByte _ v hrst hc.1 hc.2

theorem hostBufRead_effect (id : BufId) (a : Word) (s : State) : HostEffect s (hostBufRead id a s) := by
  unfold hostBufRead
  split_ifs
  · exact .ports s.regRdata _ _
  · exact .ports s.regRdata _ s.draws

theorem unlessReset_effect {write : State → State} {s : State} (h : s.rstN = true → HostEffect s (write s)) :
    HostEffect s (unlessReset write s) := by
  unfold unlessReset
  split_ifs with hrst
  · exact h hrst
  · exact .refl s

theorem hostAccess_effect (a : HostAccess) (s : State) : HostEffect s (hostAccess a s) := by
  cases a with
  | regWrite idx v => exact unlessReset_effect (hostRegWrite_effect idx v)
  | regRead idx => exact hostRegRead_effect idx s
  | bufWrite id a v => exact unlessReset_effect (hostBufWrite_effect id a v)
  | bufRead id a => exact hostBufRead_effect id a s
  | wait => exact .refl s
  | rstN level =>
    cases level with
    | false => exact .fall
    | true => exact .rise

/-- What dropping the host's next access and then every access keep, the host's turn keeps. -/
theorem hostTurn_invariant {P : State → Prop} (hhost : ∀ s rest, P s → P { s with host := rest })
    (haccess : ∀ s t, P s → HostEffect s t → P t) {s : State} (hs : P s) : P (hostTurn s) := by
  cases h : s.host with
  | nil => simpa only [hostTurn, h] using hs
  | cons a rest =>
    rw [hostTurn_of_access h]
    exact haccess _ _ (hhost s rest hs) (hostAccess_effect a _)

end Sys2Proof.Laws
end

section
/-! PROOFS. The register port while no command runs (10 R13 to R19). -/

namespace Sys2Proof.Laws

open Sys2Proof.Machine

theorem status_bits_getLsbD (f : Status) (b : Nat) :
    f.bits.getLsbD b = [f.busy, f.done, f.err, f.ovr, f.treeValid, f.treeEmpty, f.codesValid, f.bwFlushed,
      f.decShort].getD b false := by
  change BitVec.getLsbD (w := 1 + 1 + 1 + 1 + 1 + 1 + 1 + 1 + 1) _ b = _
  match b with
  | 0 | 1 | 2 | 3 | 4 | 5 | 6 | 7 | 8 => simp only [Status.bits, BitVec.getLsbD_append]; simp
  | b + 9 => simp

/-- Settles O12: the bits of the concatenation, and the write that reaches `STATUS`. -/
theorem statusReadsAndClearsAsR17Says : Obligations.StatusReadsAndClearsAsR17Says := by
  refine ⟨fun s b hb => ?_, fun s v rest hrst hhost => ?_⟩
  · rw [State.regValue, BitVec.getLsbD_setWidth, status_bits_getLsbD]
    simp [hb]
  · rw [step_of_regWrite hrst hhost]
    rfl

/-- Settles O13: by the register the index names, none for a reserved index. -/
theorem idleRegisterWritesFollowTheMap : Obligations.IdleRegisterWritesFollowTheMap := by
  intro s idx v rest hrst hhost hbusy hcmd hstatus
  rw [step_of_regWrite hrst hhost]
  refine congrArg Host.Outcome.next ?_
  cases hr : regAt idx with
  | none =>
    have h5 : idx ≠ 0x05 := regAt_none hr .irqEn
    have h8 : idx ≠ 0x08 := regAt_none hr .inLen
    have h9 : idx ≠ 0x09 := regAt_none hr .origSize
    have hA : idx ≠ 0x0A := regAt_none hr .totalBits
    have hB : idx ≠ 0x0B := regAt_none hr .fdata
    rw [if_neg h5, if_neg h8, if_neg h9, if_neg hA, if_neg hB]
    simp only [hostRegWrite, hr]
  | some r =>
    obtain rfl := regAt_some hr
    cases r with
    | cmd => exact absurd rfl hcmd
    | status => exact absurd rfl hstatus
    | inLen | origSize | totalBits | fdata => exact if_neg (ne_true_of_eq_false hbusy)
    | _ => rfl

/-- While no command runs, a read puts the named register on the port, 0 for a reserved index. -/
theorem hostRegRead_idle (idx : BitVec 8) {s : State} (h : s.status.busy = false) :
    hostRegRead idx s = { s with regRdata := ((regAt idx).map s.regValue).getD 0 } := by
  unfold hostRegRead
  cases regAt idx with
  | none => rfl
  | some r => simp [h]

/-- The map of 10 R13 as a list of values looked up by index. -/
theorem lookup_allRegs (value : RegName → Word) (idx : BitVec 8) :
    (allRegs.map (fun r => (r.index, value r))).lookup idx = (regAt idx).map value := by
  unfold regAt
  induction allRegs with
  | nil => rfl
  | cons r rest ih =>
    rw [List.map_cons, List.lookup_cons, List.find?_cons, BEq.comm (a := idx)]
    cases r.index == idx
    · exact ih
    · rfl

theorem regValue_nsym (s : State) :
    s.regValue .nsym = BitVec.ofNat 64 (allSyms.filter (fun x => s.freqOf x ≠ 0)).length := by
  rw [State.regValue, distinctCount, List.countP_eq_length_filter, List.filter_congr fun x _ => ?_]
  exact Bool.eq_iff_iff.2 (bne_iff_ne.trans decide_eq_true_iff.symm)

/-- Settles O14: the list of the statement is the map of 10 R13, with `NSYM` as the number of nonzero counts. -/
theorem idleRegisterReadsFollowTheMap : Obligations.IdleRegisterReadsFollowTheMap := by
  intro s idx rest hhost hbusy
  rw [step_of_access hhost (by simp), hostAccess, hostRegRead_idle idx (by exact hbusy), ← regValue_nsym]
  exact congrArg (fun v : Option Word => Host.Outcome.next { s with host := rest, regRdata := v.getD 0 })
    (lookup_allRegs s.regValue idx).symm

end Sys2Proof.Laws
end

section
/-! PROOFS. Every step keeps what `TREE_VALID` and `CODES_VALID` say (10 R17, R32, 70 R206). -/

namespace Sys2Proof.Laws

open Sys2Proof.Machine

/-- With both flags 0 they say nothing. -/
theorem flagsOk_of_cleared {s : State} (ht : s.status.treeValid = false) (hc : s.status.codesValid = false) :
    s.FlagsOk :=
  ⟨fun h => by simp [ht] at h, fun h => by simp [hc] at h⟩

/-- A command writes tree or codes together with their flag, or clears the flag, or leaves them as they are. -/
theorem Effect.flagsOk {i : Instr} {s t : State} (h : Effect i s t) (hs : s.FlagsOk) : t.FlagsOk := by
  cases i with
  | nop =>
    obtain rfl := h
    exact hs
  | sessionReset =>
    obtain rfl := h
    exact flagsOk_of_cleared rfl rfl
  | ftClear | ftAcc | ftAccbuf | ftLoad =>
    obtain ⟨_, rfl⟩ := h
    exact flagsOk_of_cleared rfl rfl
  | tbBuild =>
    obtain ⟨tree, hb, rfl⟩ := h
    exact ⟨fun _ => hb, fun hc => by simp [Status.treeBuilt] at hc⟩
  | ctDerive =>
    obtain ⟨-, rfl⟩ := h
    exact ⟨hs.tree, fun _ => ⟨s, rfl, rfl, rfl, rfl⟩⟩
  | bwReset =>
    obtain rfl := h
    exact ⟨hs.tree, hs.codes⟩
  | ftRead =>
    obtain ⟨_, rfl⟩ := h
    exact ⟨hs.tree, hs.codes⟩
  | ndRead | bwFlush | brReset | brGet =>
    obtain ⟨_, _, rfl⟩ := h
    exact ⟨hs.tree, hs.codes⟩
  | bwPut | bwPutsym | decRun =>
    obtain ⟨_, _, _, rfl⟩ := h
    exact ⟨hs.tree, hs.codes⟩
  | encRun =>
    obtain ⟨_, _, _, _, rfl⟩ := h
    exact ⟨hs.tree, hs.codes⟩
  | ctRead =>
    obtain ⟨_, _, _, _, _, rfl⟩ := h
    exact ⟨hs.tree, hs.codes⟩

/-- The host has no access to table, tree or codes; `rst_n` low clears the flags. -/
theorem HostEffect.flagsOk {s t : State} (h : HostEffect s t) (hs : s.FlagsOk) : t.FlagsOk := by
  cases h with
  | fall => exact flagsOk_of_cleared rfl rfl
  | _ => exact ⟨hs.tree, hs.codes⟩

/-- Settles O57: by the command's effect, the error completion, or the host's access. -/
theorem everyStepKeepsTheFlagsTrue : Obligations.EveryStepKeepsTheFlagsTrue := by
  intro s t hs h
  have herror : ∀ r, (errorCompletion r s).FlagsOk := fun r => flagsOk_of_cleared rfl rfl
  rcases step_cases h with ⟨-, -, -, hp⟩ | ⟨-, rfl⟩
  · rcases perform_next hp with ⟨i, -, he⟩ | ⟨e, -, rfl⟩
    · rcases exec_next he with ⟨u, -, hu, rfl⟩ | ⟨r, rfl⟩
      · obtain ⟨htree, hcodes⟩ := hu.flagsOk hs
        exact ⟨htree, hcodes⟩
      · exact herror r
    · exact herror _
  · exact hostTurn_invariant (P := State.FlagsOk) (fun u _ hu => ⟨hu.tree, hu.codes⟩)
      (fun _ _ hu hv => hv.flagsOk hu) hs

end Sys2Proof.Laws
end

section
/-! SUPPORT. What the builder, the deriver and the writer keep of the ranges of 10 R26 to R29 and 43 R121. -/

namespace Sys2Proof.Laws

open Sys2Proof.Machine

/-! ## Tree and codes -/

theorem buildTree_of_empty {ph : Byte} {f : Table Word} {t : Tree} (h : buildTree ph f = .ok t)
    (he : t.empty = true) : t.node = [] ∧ t.root = 0 := by
  rw [buildTree_empty h, beq_iff_eq] at he
  rcases buildTree_ok h with ⟨-, rfl⟩ | ⟨leaf, hl, -⟩ | ⟨hk, -⟩
  · exact ⟨rfl, rfl⟩
  · simp [← distinctLeaves_length, hl] at he
  · omega

theorem buildTree_node_length {ph : Byte} {f : Table Word} {t : Tree} (h : buildTree ph f = .ok t) :
    t.node.length ≤ 511 := by
  cases he : t.empty with
  | false =>
    obtain ⟨m, hshape, -⟩ := buildTree_treeShape h he
    have := hshape.bound
    rw [hshape.size]
    omega
  | true => simp [buildTree_of_empty h he]

/-- Codes of at most 255 bits (10 R27). -/
def CodesShort (t : Table Bits) : Prop := ∀ sym, (Table.get t sym).length ≤ 255

theorem codesShort_replicate : CodesShort (Vector.replicate 256 []) := fun sym => by simp

theorem codesShort_put {t : Table Bits} {sym : Byte} {p : Bits} (hp : p.length ≤ 255) (h : CodesShort t) :
    CodesShort (Table.put t sym p) := by
  intro x
  by_cases hx : x = sym
  · rw [hx, get_put_same]
    exact hp
  · rw [get_put_other _ _ hx]
    exact h x

/-- The fuel of `walk` bounds the paths it writes (42 R113). -/
theorem walk_codesShort (nodeAt : NodeIdx → Node) {fuel : Nat} {n : NodeIdx} {p : Bits} {t : Table Bits}
    (hp : p.length + fuel ≤ 256) (h : CodesShort t) : CodesShort (walk nodeAt fuel n p t) := by
  induction fuel generalizing n p t with
  | zero => exact h
  | succ fuel ih =>
    have hchild : ∀ b : Bool, (p ++ [b]).length + fuel ≤ 256 := fun b => by simp; omega
    unfold walk
    split_ifs
    · exact h
    · exact codesShort_put (by omega) h
    · exact ih (hchild _) (ih (hchild _) h)

theorem derivedCodes_codesShort (s : State) : CodesShort s.derivedCodes := by
  unfold State.derivedCodes
  split_ifs
  · exact codesShort_replicate
  · exact walk_codesShort _ (by simp) codesShort_replicate

theorem unspecifiedCodes_codesShort (n : Nat) : CodesShort (unspecifiedCodes n) := by
  intro sym
  have hlen : (Table.get (unspecifiedCodes n) sym).length = (Config.free n (.codeLen sym.toNat) 8).toNat := by
    simp [Table.get, unspecifiedCodes]
  rw [hlen]
  exact Nat.le_of_lt_succ (BitVec.isLt _)

theorem unspecifiedNodes_length_le (n : Nat) : (unspecifiedNodes n).length ≤ 511 := by
  rw [unspecifiedNodes, List.length_map, List.length_range]
  exact Nat.le_of_lt_succ (BitVec.isLt _)

theorem unspecifiedHeap_length_le (n : Nat) : (unspecifiedHeap n).length ≤ 256 := by
  rw [unspecifiedHeap, List.length_map, List.length_range]
  exact Nat.le_of_lt_succ (Nat.mod_lt _ (by decide))

/-! ## `OBUF` and the writer -/

/-- The part of the invariant about the parameters and the buffers (00 R7, 20 R40, R41). -/
structure BuffersOk (s : State) : Prop where
  params : s.params.wf = true
  ibufWf : s.ibuf.wf
  ibufIn : ∀ c ∈ s.ibuf.cells, c.1 < s.params.ibufCap
  obufWf : s.obuf.wf
  obufIn : ∀ c ∈ s.obuf.cells, c.1 < s.params.obufCap

/-- With the writer within `OBUF` and padded with zeros (43 R121). -/
structure OutputOk (s : State) : Prop extends BuffersOk s where
  writer : s.WriterOk

theorem obufCap_lt {p : Params} (h : p.wf = true) : p.obufCap < 2 ^ 61 := by
  simp only [Params.wf, Bool.and_eq_true, decide_eq_true_eq] at h
  omega

theorem obufPut_outputOk {i : Word} {v : Byte} {s t : State} (hs : OutputOk s) (h : obufPut i v s = .ok t) :
    OutputOk t := by
  obtain ⟨hi, rfl⟩ := obufPut_ok h
  exact { hs with obufWf := write_wf _ _ hs.obufWf, obufIn := write_cells_lt v hi hs.obufIn }

theorem and_seven_toNat (n : Word) : (n &&& 7).toNat = n.toNat % 8 := by
  rw [BitVec.toNat_and]
  exact Nat.and_two_pow_sub_one_eq_mod n.toNat 3

theorem shiftRight_three_toNat (n : Word) : (n >>> 3).toNat = n.toNat / 8 := by
  rw [BitVec.toNat_ushiftRight, Nat.shiftRight_eq_div_pow]

/-- A bit put at position `7 - j` leaves the lower positions 0. -/
theorem accWith_getLsbD_low {acc : Byte} {j : Word} {b : Bool} {k : Nat} (hk : k < 7 - j.toNat)
    (h : j ≠ 0 → acc.getLsbD k = false) : (accWith acc j b).getLsbD k = false := by
  unfold accWith
  split_ifs with hj
  · simp [BitVec.getLsbD_shiftLeft, hk]
  · simp [BitVec.getLsbD_shiftLeft, hk, h hj]

/-- Where `bw_put` starts or ends a byte, the byte lies in `OBUF`. -/
theorem bwPut_room {b : Bool} {s t : State} (h : bwPut b s = .ok t)
    (hj : s.regs.bwBits &&& 7 = 0 ∨ s.regs.bwBits &&& 7 = 7) : (s.regs.bwBits >>> 3).toNat < s.params.obufCap := by
  simp only [bwPut] at h
  split_ifs at h with h1 h2 h3
  · exact (obufPut_ok h).1
  · exact not_le.1 fun hle => h2 ⟨hj.resolve_right h3, hle⟩

theorem bwPut_writerOk {b : Bool} {s t : State} (hp : s.params.wf = true) (hs : s.WriterOk)
    (h : bwPut b s = .ok t) : t.WriterOk := by
  have hroom := bwPut_room h
  have hcap := obufCap_lt hp
  obtain ⟨hbits, hpad⟩ := hs
  obtain ⟨-, rfl⟩ := bwPut_ok h
  simp only [← BitVec.toNat_inj, and_seven_toNat, shiftRight_three_toNat] at hroom
  have hnext : (s.regs.bwBits + 1).toNat = s.regs.bwBits.toNat + 1 := BitVec.toNat_add_of_lt (by simp; omega)
  simp only [State.WriterOk, hnext]
  refine ⟨?_, fun k hk0 hk => accWith_getLsbD_low ?_ fun hj => hpad k ?_ ?_⟩
  · by_cases hj : s.regs.bwBits.toNat % 8 = 0
    · have := hroom (.inl (by simpa using hj))
      omega
    · omega
  · rw [and_seven_toNat]
    omega
  · rw [← and_seven_toNat]
    exact fun h0 => hj (BitVec.eq_of_toNat_eq h0)
  · omega

theorem bwPut_outputOk {b : Bool} {s t : State} (hs : OutputOk s) (h : bwPut b s = .ok t) : OutputOk t := by
  have hwriter := bwPut_writerOk hs.params hs.writer h
  have hroom := bwPut_room h
  obtain ⟨-, rfl⟩ := bwPut_ok h
  by_cases hj : s.regs.bwBits &&& 7 = 7
  · simp only [if_pos hj] at hwriter ⊢
    exact { hs with
      obufWf := write_wf _ _ hs.obufWf
      obufIn := write_cells_lt _ (hroom (.inr hj)) hs.obufIn
      writer := hwriter }
  · simp only [if_neg hj] at hwriter ⊢
    exact { hs with writer := hwriter }

theorem bwReset_outputOk {s : State} (hs : OutputOk s) : OutputOk (bwReset s) :=
  { hs with writer := ⟨Nat.zero_le _, fun _ h => absurd rfl h⟩ }

theorem bwPutsym_outputOk {sym : Byte} {s t : State} (hs : OutputOk s) (h : bwPutsym sym s = .ok t) : OutputOk t :=
  bwPutAll_invariant OutputOk (fun _ _ _ => bwPut_outputOk) _ _ _ hs h

theorem bwFlush_outputOk {s t : State} (hs : OutputOk s) (h : bwFlush s = .ok t) : OutputOk t := by
  obtain ⟨-, m, hm, rfl⟩ := bwFlush_ok h
  have hmem : m.wf ∧ ∀ c ∈ m.cells, c.1 < s.params.obufCap := by
    rcases hm with ⟨rfl, -⟩ | ⟨rfl, -, hlt⟩
    · exact ⟨hs.obufWf, hs.obufIn⟩
    · exact ⟨write_wf _ _ hs.obufWf, write_cells_lt _ hlt hs.obufIn⟩
  exact { hs with
    obufWf := forgetFrom_wf _ _ hmem.1
    obufIn := forgetFrom_cells_lt _ _ hmem.2 }

theorem encRun_outputOk {s t : State} (hs : OutputOk s) (h : encRun s = .ok t) : OutputOk t := by
  obtain ⟨-, u, hl, hf⟩ := encRun_ok h
  refine bwFlush_outputOk (forUp_invariant OutputOk (fun _ _ _ hv hb => ?_) _ _ _ _ (bwReset_outputOk hs) hl) hf
  obtain ⟨v, -, hput⟩ := encByte_ok hb
  exact bwPutsym_outputOk hv hput

theorem decRun_outputOk {s t : State} (hs : OutputOk s) (h : decRun s = .ok t) : OutputOk t := by
  obtain ⟨-, -, n, u, hw, rfl⟩ := decRun_ok h
  have hstart : OutputOk (decStart s) := { hs with }
  have hu : OutputOk u := decWalk_invariant OutputOk
    (fun _ _ _ hv hg => by
      obtain ⟨-, -, -, -, rfl⟩ := brGet_ok hg
      exact { hv with })
    (fun _ _ _ _ => obufPut_outputOk) hstart hw
  exact { hu with
    obufWf := forgetFrom_wf _ _ hu.obufWf
    obufIn := forgetFrom_cells_lt _ _ hu.obufIn }

end Sys2Proof.Laws
end

section
/-! PROOFS. Every step keeps the invariant of the machine's state (10 R10 to R32, 20 R40, R41, 60 R188, 70 R200): a command
keeps it while no error is recorded, an error completion establishes its error side, the host's writes keep it. -/

namespace Sys2Proof.Laws

open Sys2Proof.Machine

/-! ## States without an error -/

/-- The invariant of a state with `ERR` = 0, without what it says of `rst_n`. -/
structure NormalOk (s : State) : Prop extends OutputOk s where
  nodes : s.node.length ≤ 511
  heap : s.heap = []
  codes : CodesShort s.code
  err : s.status.err = false
  record : s.errcode = 0 ∧ s.errinfo = 0
  codesTree : s.status.codesValid = true → s.status.treeValid = true
  emptyTree : s.status.treeValid = true → s.status.treeEmpty = true → s.node = [] ∧ s.regs.root = 0

theorem buffersOk_of_inv {s : State} (h : s.Inv) : BuffersOk s := { h with }

theorem normalOk_of_inv {s : State} (h : s.Inv) (herr : s.status.err = false) : NormalOk s :=
  { h with
    writer := h.writer herr
    heap := h.heapIdle herr
    err := herr
    record := h.noError herr }

theorem NormalOk.inv {s : State} (h : NormalOk s) (hrst : s.rstN = false → s.InResetState) : s.Inv :=
  { h with
    heap := by simp [h.heap]
    heapIdle := fun _ => h.heap
    noError := fun _ => h.record
    inError := fun herr => by simp [h.err] at herr
    onlyReset := fun _ herr => by simp [h.err] at herr
    writer := fun _ => h.writer
    heldInReset := hrst }

theorem resetFor_normalOk {p : Params} (h : p.wf = true) : NormalOk (State.resetFor p) where
  params := h
  ibufWf := unspecified_wf 0
  ibufIn := by simp [State.resetFor, Memory.unspecified]
  obufWf := unspecified_wf 0
  obufIn := by simp [State.resetFor, Memory.unspecified]
  writer := ⟨Nat.zero_le _, fun _ hk => absurd rfl hk⟩
  nodes := Nat.zero_le _
  heap := rfl
  codes := codesShort_replicate
  err := rfl
  record := ⟨rfl, rfl⟩
  codesTree := fun hc => by simp [State.resetFor, Status.reset] at hc
  emptyTree := fun ht => by simp [State.resetFor, Status.reset] at ht

theorem sessionReset_normalOk {s : State} (h : BuffersOk s) : NormalOk (sessionReset s) :=
  { h, resetFor_normalOk h.params with }

theorem hardReset_inv {s : State} (h : s.params.wf = true) : (hardReset s).Inv :=
  NormalOk.inv
    { resetFor_normalOk h with
      ibufWf := unspecified_wf _
      obufWf := unspecified_wf _ }
    fun _ => ⟨rfl, rfl, rfl⟩

/-! ## Commands -/

/-- The output side depends on the parameters, the buffers and the writer alone. -/
theorem OutputOk.of_eq {s t : State} (h : OutputOk s) (hparams : t.params = s.params) (hibuf : t.ibuf = s.ibuf)
    (hobuf : t.obuf = s.obuf) (hbits : t.regs.bwBits = s.regs.bwBits) (hacc : t.bwAcc = s.bwAcc) : OutputOk t := by
  obtain ⟨⟨h1, h2, h3, h4, h5⟩, h6⟩ := h
  rw [State.WriterOk, ← hparams, ← hbits, ← hacc] at h6
  rw [← hparams] at h1 h3 h5
  rw [← hibuf] at h2 h3
  rw [← hobuf] at h4 h5
  exact ⟨⟨h1, h2, h3, h4, h5⟩, h6⟩

/-- A command that completes normally keeps the output side: the writers of `OBUF` and of the writer's items by their own
lemmas, every other command by its frame. -/
theorem body_outputOk {i : Instr} {s t : State} (h : body i s = .ok t) (hs : OutputOk s) : OutputOk t := by
  have he := body_effect h
  cases i with
  | bwPut bit => exact bwPut_outputOk hs h
  | bwPutsym sym => exact bwPutsym_outputOk hs (requires_ok h).2
  | bwFlush => exact bwFlush_outputOk hs h
  | encRun => exact encRun_outputOk hs (requires_ok h).2
  | decRun => exact decRun_outputOk hs (requires_ok h).2
  | sessionReset =>
    obtain rfl := he
    exact (sessionReset_normalOk hs.toBuffersOk).toOutputOk
  | bwReset =>
    obtain rfl := he
    exact bwReset_outputOk hs
  | _ =>
    obtain ⟨hibuf, -, hparams, -⟩ := he.frame
    obtain ⟨⟨-, -, -, hobuf, hwriter, -⟩, -⟩ := he.writers (by simp)
    obtain ⟨hbits, hacc⟩ := hwriter (by simp [Instr.mnemonic])
    exact hs.of_eq hparams hibuf (hobuf (by simp [Instr.mnemonic])).1 hbits hacc

theorem body_normalOk {i : Instr} {s t : State} (h : body i s = .ok t) (hs : NormalOk s) : NormalOk t := by
  have ho := body_outputOk h hs.toOutputOk
  have he := body_effect h
  cases i with
  | nop =>
    obtain rfl := he
    exact hs
  | sessionReset =>
    obtain rfl := he
    exact sessionReset_normalOk hs.toBuffersOk
  | bwReset =>
    obtain rfl := he
    exact { hs with toOutputOk := ho }
  | ftClear | ftAcc | ftAccbuf | ftLoad =>
    obtain ⟨_, rfl⟩ := he
    exact { hs with
      codesTree := fun hc => by simp [Status.tableChanged] at hc
      emptyTree := fun ht => by simp [Status.tableChanged] at ht }
  | ftRead =>
    obtain ⟨_, rfl⟩ := he
    exact { hs with }
  | tbBuild =>
    obtain ⟨tree, hb, rfl⟩ := he
    exact { hs with
      nodes := buildTree_node_length hb
      heap := rfl
      codesTree := fun _ => rfl
      emptyTree := fun _ => buildTree_of_empty hb }
  | ctDerive =>
    obtain ⟨htree, rfl⟩ := he
    exact { hs with
      codes := derivedCodes_codesShort s
      codesTree := fun _ => htree }
  | ndRead | bwFlush | brReset | brGet =>
    obtain ⟨_, _, rfl⟩ := he
    exact { hs with toOutputOk := ho }
  | bwPut | bwPutsym | decRun =>
    obtain ⟨_, _, _, rfl⟩ := he
    exact { hs with toOutputOk := ho }
  | encRun =>
    obtain ⟨_, _, _, _, rfl⟩ := he
    exact { hs with toOutputOk := ho }
  | ctRead =>
    obtain ⟨_, _, _, _, _, rfl⟩ := he
    exact { hs with }

theorem errCode_range (c : ErrCode) : 1 ≤ c.code.toNat ∧ c.code.toNat ≤ 8 := by
  cases c <;> decide

/-- An error completion establishes the error side of the invariant (60 R188); the free counts stay in their ranges. -/
theorem errorCompletion_inv (r : Raise) {s : State} (h : BuffersOk s) (hrst : s.rstN = true) :
    (errorCompletion r s).Inv :=
  { h with
    obufWf := unspecified_wf _
    obufIn := by simp [Memory.unspecified]
    nodes := unspecifiedNodes_length_le _
    heap := unspecifiedHeap_length_le _
    heapIdle := fun herr => by simp [Status.failed] at herr
    codes := unspecifiedCodes_codesShort _
    noError := fun herr => by simp [Status.failed] at herr
    inError := fun _ => ⟨(errCode_range r.code).1, (errCode_range r.code).2, rfl, rfl, rfl, rfl, rfl⟩
    onlyReset := fun hbusy => by simp [Status.failed] at hbusy
    codesTree := fun hc => by simp [Status.failed] at hc
    emptyTree := fun ht => by simp [Status.failed] at ht
    writer := fun herr => by simp [Status.failed] at herr
    heldInReset := fun hlow => by simp [hrst] at hlow }

/-- With an error recorded only `SESSION_RESET` is in progress; otherwise the command keeps `NormalOk`. -/
theorem perform_inv {s t : State} (hs : s.Inv) (hrst : s.rstN = true) (hbusy : s.status.busy = true)
    (h : perform s = .next t) : t.Inv := by
  have hbuf := buffersOk_of_inv hs
  rcases perform_next h with ⟨i, hi, he⟩ | ⟨e, -, rfl⟩
  · rcases exec_next he with ⟨u, hu, heff, rfl⟩ | ⟨r, rfl⟩
    · have hnormal : NormalOk u := by
        cases herr : s.status.err with
        | false => exact body_normalOk hu (normalOk_of_inv hs herr)
        | true =>
          obtain rfl : .sessionReset = i := by
            rw [hs.onlyReset hbusy herr, show decode (encode .sessionReset) = .ok .sessionReset by decide] at hi
            exact Except.ok.inj hi
          obtain rfl := heff
          exact sessionReset_normalOk hbuf
      obtain ⟨-, -, -, -, -, -, hlevel⟩ := heff.frame
      exact NormalOk.inv { hnormal with } fun hlow => by simp [hlevel, hrst] at hlow
    · exact errorCompletion_inv r hbuf hrst
  · exact errorCompletion_inv _ hbuf hrst

/-! ## The host -/

/-- What the reset state leaves open stays open: the ports, the host's list and the draw counter. -/
theorem InResetState.withPorts {s : State} (h : s.InResetState) (host : List HostAccess) (word : Word) (byte : Byte)
    (draws : Nat) : ({ s with host := host, regRdata := word, bufRdata := byte, draws := draws } : State).InResetState where
  core := congrArg (fun u : State => { u with host := host, regRdata := word, bufRdata := byte, draws := draws }) h.core
  ibuf := h.ibuf
  obuf := h.obuf

theorem inv_withPorts {s : State} (h : s.Inv) (host : List HostAccess) (word : Word) (byte : Byte) (draws : Nat) :
    ({ s with host := host, regRdata := word, bufRdata := byte, draws := draws } : State).Inv :=
  { h with heldInReset := fun hlow => InResetState.withPorts (h.heldInReset hlow) host word byte draws }

theorem HostEffect.inv {s t : State} (h : HostEffect s t) (hs : s.Inv) : t.Inv := by
  have hheld {u : State} (hrst : s.rstN = true) (hlow : s.rstN = false) : u.InResetState := by simp [hrst] at hlow
  cases h with
  | ports word byte draws => exact inv_withPorts hs s.host word byte draws
  | rise => exact { hs with heldInReset := fun hlow => by simp at hlow }
  | fall => exact hardReset_inv hs.params
  | accepted w hrst hacc =>
    refine { hs with onlyReset := fun _ herr => ?_, heldInReset := hheld hrst }
    simp only [State.accepts, Bool.and_eq_true, Bool.or_eq_true, beq_iff_eq] at hacc
    exact hacc.2.resolve_left (by simpa [Status.accepted] using herr)
  | dropped hrst => exact { hs with heldInReset := hheld hrst }
  | cleared v hrst => exact { hs with heldInReset := hheld hrst }
  | enabled m hrst => exact { hs with heldInReset := hheld hrst }
  | operands _ _ _ _ hrst _ => exact { hs with heldInReset := hheld hrst }
  | inputByte a v hrst _ ha =>
    exact { hs with
      ibufWf := write_wf a v hs.ibufWf
      ibufIn := write_cells_lt v ha hs.ibufIn
      heldInReset := hheld hrst }
  | outputByte a v hrst _ ha =>
    exact { hs with
      obufWf := write_wf a v hs.obufWf
      obufIn := write_cells_lt v ha hs.obufIn
      heldInReset := hheld hrst }

/-- Settles O56: by the command in progress, or by the host's access. -/
theorem everyStepKeepsTheInvariant : Obligations.EveryStepKeepsTheInvariant := by
  intro s t hs h
  rcases step_cases h with ⟨hrst, hbusy, -, hp⟩ | ⟨-, rfl⟩
  · exact perform_inv hs hrst hbusy hp
  · exact hostTurn_invariant (P := State.Inv) (fun u rest hu => inv_withPorts hu rest u.regRdata u.bufRdata u.draws)
      (fun _ _ hu hv => hv.inv hu) hs

end Sys2Proof.Laws
end

section
/-! PROOFS. The buffer port while no command runs (20 R42, R43), and what every completion leaves of the host's side
(20 R40, R50, 10 R19, 45 R150, 60 R188). -/

namespace Sys2Proof.Laws

open Sys2Proof.Machine

/-! ## The buffer port -/

/-- At or above the capacity a write is dropped (20 R42). -/
theorem hostBufWrite_outside {id : BufId} {a : Word} (v : Byte) {s : State} (ha : s.cap id ≤ a.toNat) :
    hostBufWrite id a v s = s :=
  if_pos (.inr ha)

/-- A write touches no item but the two buffers. -/
theorem hostBufWrite_frame (id : BufId) (a : Word) (v : Byte) (s : State) :
    hostBufWrite id a v s =
      { s with ibuf := (hostBufWrite id a v s).ibuf, obuf := (hostBufWrite id a v s).obuf } := by
  unfold hostBufWrite
  split_ifs
  · rfl
  · cases id <;> rfl

/-- Below the capacity the addressed buffer takes the byte, the other one stays. -/
theorem buf_hostBufWrite {id : BufId} {a : Word} (v : Byte) {s : State} (hbusy : s.status.busy = false)
    (ha : a.toNat < s.cap id) (id' : BufId) :
    (hostBufWrite id a v s).buf id' = if id' = id then (s.buf id).write a.toNat v else s.buf id' := by
  have htaken : ¬ (s.status.busy = true ∨ s.cap id ≤ a.toNat) := by simp [hbusy, ha]
  unfold hostBufWrite
  rw [if_neg htaken]
  cases id <;> cases id' <;> rfl

/-- After a write below the capacity, that byte of that buffer reads as the value, every other byte as before. -/
theorem read_hostBufWrite {id : BufId} {a : Word} (v : Byte) {s : State} (hbusy : s.status.busy = false)
    (ha : a.toNat < s.cap id) (id' : BufId) (b : Nat) :
    ((hostBufWrite id a v s).buf id').read id' b =
      if id' = id ∧ b = a.toNat then v else (s.buf id').read id' b := by
  rw [buf_hostBufWrite v hbusy ha]
  by_cases hid : id' = id
  · subst hid
    simp [read_write]
  · simp [hid]

theorem hostBufRead_inside {id : BufId} {a : Word} {s : State} (hbusy : s.status.busy = false)
    (ha : a.toNat < s.cap id) : hostBufRead id a s = { s with bufRdata := (s.buf id).read id a.toNat } :=
  if_neg (by simp [hbusy, ha])

/-- At or above the capacity a read puts a free value on the port (20 R42, log 5). -/
theorem hostBufRead_outside {id : BufId} {a : Word} {s : State} (ha : s.cap id ≤ a.toNat) :
    hostBufRead id a s = { s with bufRdata := Config.free s.draws .portByte 8, draws := s.draws + 1 } :=
  if_pos (.inr ha)

/-- Settles O16: a write to either side of the capacity, a read from either side of it. -/
theorem bufferPortMovesOneByte : Obligations.BufferPortMovesOneByte := by
  intro s id x rest hbusy
  refine ⟨fun v hhost => ?write, fun hhost => ?read⟩
  case write =>
    rw [step_of_access hhost (by simp), hostAccess]
    refine ⟨fun hout => ?_, fun hrst hin => ?_⟩
    · exact congrArg _ (unlessReset_induct (P := (· = { s with host := rest })) rfl (hostBufWrite_outside v hout))
    · exact ⟨_, congrArg _ (unlessReset_high _ hrst), read_hostBufWrite (s := { s with host := rest }) v hbusy hin,
        hostBufWrite_frame id x v _⟩
  case read =>
    rw [step_of_access hhost (by simp), hostAccess]
    refine ⟨fun hin => ?_, fun hout => ⟨Config.free s.draws .portByte 8, ?_⟩⟩
    · exact congrArg _ (hostBufRead_inside (s := { s with host := rest }) hbusy hin)
    · exact congrArg _ (hostBufRead_outside (s := { s with host := rest }) hout)

/-! ## Completions -/

/-- Settles O54: a normal completion keeps the frame of the command's effect, an error completion the frame of R188; each
ends the handshake. -/
theorem noCommandTouchesIbufOrIrqEn : Obligations.NoCommandTouchesIbufOrIrqEn := by
  intro i s t h
  rcases exec_next h with ⟨u, -, hu, rfl⟩ | ⟨r, rfl⟩
  · obtain ⟨hibuf, hirqEn, hparams, hhost, hregRdata, hbufRdata, hrst⟩ := hu.frame
    exact ⟨hibuf, hirqEn, hparams, hhost, hregRdata, hbufRdata, hrst, rfl, rfl⟩
  · exact ⟨rfl, rfl, rfl, rfl, rfl, rfl, rfl, rfl, rfl⟩

end Sys2Proof.Laws
end

section
/-! PROOFS. Command words (30 R60 to R65): what decoding a word gives in each case, the bits of an encoded command, and
the round trips between commands and words. -/

namespace Sys2Proof.Laws

/-! ## The formats' masks -/

/-- The lowest reserved bit of a format (30 R61); the operand field is the bits from 8 up to it. -/
def reservedFrom : Format → Nat
  | .n => 8
  | .s => 16
  | .b => 9
  | .x => 17

theorem mask_getLsbD (f : Format) : ∀ b < 64, f.mask.getLsbD b = decide (b < 8 ∨ reservedFrom f ≤ b) := by
  cases f <;> decide

theorem opcodeField_eq_setWidth (w : Word) : opcodeField w = w.setWidth 8 :=
  (BitVec.setWidth_eq_extractLsb' (by omega)).symm

theorem getLsbD_opcodeField {w : Word} {b : Nat} (hb : b < 8) : (opcodeField w).getLsbD b = w.getLsbD b := by
  rw [opcodeField_eq_setWidth, BitVec.getLsbD_setWidth, decide_eq_true hb, Bool.true_and]

/-- The check `cmd & mask = op` fixes bits 7:0 to the opcode and clears the reserved bits (30 R61, R63). -/
theorem masked_eq_iff {w : Word} {f : Format} {op : Byte} :
    w &&& f.mask = op.setWidth 64 ↔ opcodeField w = op ∧ ∀ b, reservedFrom f ≤ b → w.getLsbD b = false := by
  have hlow : 8 ≤ reservedFrom f := by cases f <;> decide
  constructor
  · intro h
    have hbit : ∀ b < 64, (w.getLsbD b && decide (b < 8 ∨ reservedFrom f ≤ b)) = op.getLsbD b := fun b hb => by
      rw [← mask_getLsbD f b hb, ← BitVec.getLsbD_and, h, BitVec.getLsbD_setWidth, decide_eq_true hb, Bool.true_and]
    refine ⟨BitVec.eq_of_getLsbD_eq fun b hb => ?_, fun b hr => ?_⟩
    · have := hbit b (by omega)
      rwa [decide_eq_true (.inl hb), Bool.and_true, ← getLsbD_opcodeField hb] at this
    · by_cases h64 : b < 64
      · have := hbit b h64
        rwa [decide_eq_true (.inr hr), Bool.and_true, BitVec.getLsbD_of_ge op b (by omega)] at this
      · exact BitVec.getLsbD_of_ge w b (by omega)
  · rintro ⟨rfl, hres⟩
    refine BitVec.eq_of_getLsbD_eq fun b hb => ?_
    rw [BitVec.getLsbD_and, mask_getLsbD f b hb, BitVec.getLsbD_setWidth, decide_eq_true hb, Bool.true_and]
    by_cases h8 : b < 8
    · rw [getLsbD_opcodeField h8, decide_eq_true (.inl h8), Bool.and_true]
    · rw [BitVec.getLsbD_of_ge (opcodeField w) b (by omega)]
      by_cases hr : reservedFrom f ≤ b
      · simp [hres b hr]
      · simp [h8, hr]

/-! ## Decoding, by cases -/

/-- No row has the opcode: the word is refused for it. -/
theorem decode_of_unassigned {w : Word} (h : ∀ m : Mnemonic, m.opcode ≠ opcodeField w) :
    decode w = .error (.unknownOpcode (opcodeField w)) := by
  have hnone : opcodeTable.find? (fun m => m.opcode == opcodeField w) = none :=
    List.find?_eq_none.2 fun m _ => by simpa using h m
  simp only [decode, hnone]

/-- Row `m` has the opcode: the reserved bits decide. -/
theorem decode_of_opcode {w : Word} {m : Mnemonic} (h : m.opcode = opcodeField w) :
    decode w =
      if w &&& m.format.mask = m.opcode.setWidth 64 then .ok (m.withFields w) else .error (.reservedBit m) := by
  simp only [decode, ← h, find_opcode]

theorem decode_of_masked {w : Word} {m : Mnemonic} (h : w &&& m.format.mask = m.opcode.setWidth 64) :
    decode w = .ok (m.withFields w) := by
  rw [decode_of_opcode (masked_eq_iff.1 h).1.symm, if_pos h]

/-- A word with an assigned opcode is refused exactly when a reserved bit of its row's format is 1. -/
theorem decode_error_iff_of_opcode {w : Word} {m : Mnemonic} (h : m.opcode = opcodeField w) :
    (∃ e, decode w = .error e) ↔ ∃ b, w.getLsbD b = true ∧ reservedFrom m.format ≤ b := by
  rw [decode_of_opcode h]
  split_ifs with hm
  · have hres := (masked_eq_iff.1 hm).2
    simp only [exists_false, false_iff, not_exists, not_and]
    exact fun b hb hr => by simp [hres b hr] at hb
  · simp only [Except.error.injEq, exists_eq', true_iff]
    by_contra hno
    refine hm (masked_eq_iff.2 ⟨h.symm, fun b hr => ?_⟩)
    simpa using fun hb => hno ⟨b, hb, hr⟩

/-! ## The bits of an encoded command -/

theorem encode_getLsbD (i : Instr) {b : Nat} (hb : b < 64) :
    (encode i).getLsbD b = if b < 8 then i.mnemonic.opcode.getLsbD b else i.operand.testBit (b - 8) := by
  rw [encode, BitVec.getLsbD_or, BitVec.getLsbD_setWidth, BitVec.getLsbD_shiftLeft, BitVec.getLsbD_ofNat]
  split_ifs with h8
  · simp [hb, h8]
  · simp [hb, h8, BitVec.getLsbD_of_ge i.mnemonic.opcode b (by omega), show b - 8 < 64 by omega]

/-- The bits from 8 up hold the operand (30 R62). -/
theorem encode_extract {k : Nat} (hk : k ≤ 56) (i : Instr) :
    (encode i).extractLsb' 8 k = BitVec.ofNat k i.operand := by
  refine BitVec.eq_of_getLsbD_eq fun b hb => ?_
  rw [BitVec.getLsbD_extractLsb', encode_getLsbD i (by omega), BitVec.getLsbD_ofNat]
  simp [hb]

theorem symField_encode (i : Instr) : symField (encode i) = BitVec.ofNat 8 i.operand := encode_extract (by omega) i

theorem idxField_encode (i : Instr) : idxField (encode i) = BitVec.ofNat 9 i.operand := encode_extract (by omega) i

theorem bitField_encode (i : Instr) : bitField (encode i) = i.operand.testBit 0 := encode_getLsbD i (by omega)

/-- Every command has the shape of its row: its arm of `Laws.RowShape`. -/
theorem rowShape : ∀ i : Instr, RowShape.Statement i
  | .nop => RowShape.nop
  | .sessionReset => RowShape.sessionReset
  | .ftClear => RowShape.ftClear
  | .ftAcc sym => RowShape.ftAcc sym
  | .ftAccbuf => RowShape.ftAccbuf
  | .ftLoad sym => RowShape.ftLoad sym
  | .ftRead sym => RowShape.ftRead sym
  | .tbBuild => RowShape.tbBuild
  | .ndRead idx => RowShape.ndRead idx
  | .ctDerive => RowShape.ctDerive
  | .ctRead sym => RowShape.ctRead sym
  | .bwReset => RowShape.bwReset
  | .bwPut bit => RowShape.bwPut bit
  | .bwPutsym sym => RowShape.bwPutsym sym
  | .bwFlush => RowShape.bwFlush
  | .brReset => RowShape.brReset
  | .brGet => RowShape.brGet
  | .encRun => RowShape.encRun
  | .decRun => RowShape.decRun

/-! ## The operand fields -/

@[simp] theorem withFields_mnemonic (m : Mnemonic) (w : Word) : (m.withFields w).mnemonic = m := by cases m <;> rfl

/-- The fields of a command's own word are its operands. -/
theorem withFields_encode (i : Instr) : i.mnemonic.withFields (encode i) = i := by
  cases i with
  | ftAcc sym | ftLoad sym | ftRead sym | ctRead sym | bwPutsym sym =>
    simp [Instr.mnemonic, Mnemonic.withFields, symField_encode, Instr.operand]
  | ndRead idx => simp [Instr.mnemonic, Mnemonic.withFields, idxField_encode, Instr.operand]
  | bwPut bit => cases bit <;> simp [Instr.mnemonic, Mnemonic.withFields, bitField_encode, Instr.operand]
  | _ => rfl

/-- The operand a row reads is the bits between the opcode and the reserved bits. -/
theorem operand_withFields (m : Mnemonic) (w : Word) :
    (m.withFields w).operand = (w.extractLsb' 8 (reservedFrom m.format - 8)).toNat := by
  cases m with
  | bwPut =>
    change (w.toNat.testBit 8).toNat = _
    rw [Nat.toNat_testBit, BitVec.extractLsb'_toNat, Nat.shiftRight_eq_div_pow]
    rfl
  | ftAcc | ftLoad | ftRead | ctRead | bwPutsym | ndRead => rfl
  | _ => exact (BitVec.toNat_of_zero_length rfl (w.extractLsb' 8 0)).symm

theorem operand_withFields_testBit (m : Mnemonic) (w : Word) (b : Nat) :
    (m.withFields w).operand.testBit b = (decide (b < reservedFrom m.format - 8) && w.getLsbD (8 + b)) := by
  rw [operand_withFields, BitVec.testBit_toNat, BitVec.getLsbD_extractLsb']

/-- A word that passes its row's check is put together again from the opcode and the operand field. -/
theorem encode_withFields {w : Word} {m : Mnemonic} (h : w &&& m.format.mask = m.opcode.setWidth 64) :
    encode (m.withFields w) = w := by
  obtain ⟨hop, hres⟩ := masked_eq_iff.1 h
  refine BitVec.eq_of_getLsbD_eq fun b hb => ?_
  rw [encode_getLsbD _ hb, withFields_mnemonic, operand_withFields_testBit, ← hop]
  split_ifs with h8
  · exact getLsbD_opcodeField h8
  · rw [show 8 + (b - 8) = b by omega]
    by_cases hr : reservedFrom m.format ≤ b
    · simp [hres b hr]
    · simp [show b - 8 < reservedFrom m.format - 8 by omega]

/-! ## The obligations -/

/-- Settles O5: the word passes its row's check, and its fields are the operands. -/
theorem decodeOfEncodeIsTheCommand : Obligations.DecodeOfEncodeIsTheCommand := by
  intro i _
  rw [decode_of_masked (rowShape i), withFields_encode]

/-- Settles O6: bits 7:0 are the opcode's, the field's are the operand's, and the reserved ones are 0 in both words. -/
theorem encodeOfDecodeIsTheWord : Obligations.EncodeOfDecodeIsTheWord := by
  intro w i h
  obtain ⟨m, -, hmask, rfl⟩ := decode_ok h
  exact encode_withFields hmask

/-- Settles O7: no row has the opcode, or the reserved bits of the one row that has it decide. -/
theorem illegalWordsAreTheUnassignedAndReserved : Obligations.IllegalWordsAreTheUnassignedAndReserved := by
  intro w
  change _ ↔ _ ∨ ∃ (m : Mnemonic) (b : Nat), _ ∧ _ ∧ reservedFrom m.format ≤ b
  rw [← opcodeField_eq_setWidth]
  by_cases hrow : ∃ m : Mnemonic, m.opcode = opcodeField w
  · obtain ⟨m, hm⟩ := hrow
    rw [decode_error_iff_of_opcode hm]
    constructor
    · rintro ⟨b, hb, hr⟩
      exact .inr ⟨m, b, hm, hb, hr⟩
    · rintro (hno | ⟨m', b, hm', hb, hr⟩)
      · exact absurd hm (hno m)
      · obtain rfl := opcode_injective (hm.trans hm'.symm)
        exact ⟨b, hb, hr⟩
  · have hno : ∀ m : Mnemonic, m.opcode ≠ opcodeField w := not_exists.1 hrow
    exact iff_of_true ⟨_, decode_of_unassigned hno⟩ (.inl hno)

/-- Settles O4, by running the decoder on each word. -/
theorem decodeReadsTheSpecsWords : Obligations.DecodeReadsTheSpecsWords := by
  unfold Obligations.DecodeReadsTheSpecsWords
  decide

end Sys2Proof.Laws
end

section
/-! PROOFS. The frequency table (40 R81 to R86). `FT_ACCBUF` is followed through its loop: after `k` bytes each count
has grown by its byte's occurrences among the first `k`, and none of these bytes met a full count. -/

namespace Sys2Proof.Laws

open Sys2Proof.Machine

/-! ## Commands with one symbol -/

/-- The word of a command of format S: its opcode, and its symbol in bits 15:8 (30 R61). -/
theorem decode_symWord {i : Instr} {sym : Byte} (h : i.operand = sym.toNat) :
    decode (i.mnemonic.opcode.setWidth 64 ||| sym.setWidth 64 <<< 8) = .ok i := by
  have hword : encode i = i.mnemonic.opcode.setWidth 64 ||| sym.setWidth 64 <<< 8 := by
    rw [encode, h, BitVec.ofNat_toNat]
  exact hword ▸ decodeOfEncodeIsTheCommand i (wf_all i)

/-- Settles O23: the word decodes by its fields, and the table reads back what was put. -/
theorem ftLoadAndFtReadMoveOneCount : Obligations.FtLoadAndFtReadMoveOneCount := by
  constructor
  · exact fun sym => ⟨decode_symWord (i := .ftLoad sym) rfl, decode_symWord (i := .ftRead sym) rfl⟩
  · intro s sym
    refine ⟨⟨_, rfl, ?_, fun x hx => ?_, rfl⟩, rfl⟩
    · exact get_put_same s.freq sym s.regs.fdata
    · exact get_put_other s.freq s.regs.fdata hx

/-! ## The cleared table -/

/-- What `FT_CLEAR` completes with (40 R81). -/
def cleared (s : State) : State := complete (tableChanged { s with freq := Vector.replicate 256 0 })

theorem exec_ftClear (s : State) : exec .ftClear s = .next (cleared s) := rfl

@[simp] theorem freqOf_cleared (s : State) (x : Byte) : (cleared s).freqOf x = 0 := get_replicate 0 x

theorem toNat_freqOf_cleared (s : State) (x : Byte) : ((cleared s).freqOf x).toNat = 0 := by
  rw [freqOf_cleared]
  rfl

/-- Settles O20: every count reads 0, so none is counted by `NSYM`. -/
theorem ftClearZeroesEveryCount : Obligations.FtClearZeroesEveryCount := by
  refine ⟨by decide, fun s => ⟨cleared s, exec_ftClear s, freqOf_cleared s, ?_, rfl⟩⟩
  simp [regValue_nsym]

/-! ## The input bytes -/

theorem length_inputBytes (s : State) : s.inputBytes.length = s.regs.inLen.toNat := by simp [State.inputBytes]

theorem getD_inputBytes {s : State} {k : Nat} (hk : k < s.regs.inLen.toNat) :
    s.inputBytes.getD k 0 = s.ibuf.read .ibuf k := by
  simp [State.inputBytes, List.getElem?_range hk]

theorem take_succ_inputBytes {s : State} {k : Nat} (hk : k < s.regs.inLen.toNat) :
    s.inputBytes.take (k + 1) = s.inputBytes.take k ++ [s.inputBytes.getD k 0] := by
  have hlen : k < s.inputBytes.length := by rwa [length_inputBytes]
  rw [List.take_succ_eq_append_getElem hlen, List.getD_eq_getElem _ _ hlen]

/-- A count that is full when its byte comes would pass 2^64 - 1: the byte occurs in the whole input at least once more
than before. -/
theorem exists_overflow_of_full {s : State} {k : Nat} (hk : k < s.regs.inLen.toNat)
    (hfull : s.countBefore k = 2 ^ 64 - 1) : ∃ x, 2 ^ 64 ≤ (s.freqOf x).toNat + s.inputBytes.count x := by
  refine ⟨s.inputBytes.getD k 0, ?_⟩
  have hle := (List.take_sublist (k + 1) s.inputBytes).count_le (s.inputBytes.getD k 0)
  rw [take_succ_inputBytes hk, List.count_append, List.count_singleton_self] at hle
  rw [State.countBefore] at hfull
  omega

/-- Over a list of all byte values, each once, the occurrences in `bs` add up to its length. -/
theorem sum_count_eq_length {l : List Byte} (hnodup : l.Nodup) (hall : ∀ x, x ∈ l) (bs : List Byte) :
    (l.map (fun x => bs.count x)).sum = bs.length := by
  rw [← List.sum_toFinset _ hnodup]
  simpa using Multiset.sum_count_eq_card (m := ↑bs) fun x _ => List.mem_toFinset.2 (hall x)

/-! ## One byte counted -/

/-- A count is full, so that `ft_acc` raises, exactly at 2^64 - 1 (40 R82). -/
theorem eq_allOnes_iff {w : Word} : w = BitVec.allOnes 64 ↔ w.toNat = 2 ^ 64 - 1 := by
  rw [← BitVec.toNat_inj, BitVec.toNat_allOnes]

theorem toNat_freqOf_of_ftAcc {sym : Byte} {s t : State} (h : ftAcc sym s = .ok t) (x : Byte) :
    (t.freqOf x).toNat = (s.freqOf x).toNat + [sym].count x := by
  obtain ⟨hroom, rfl⟩ := ftAcc_ok h
  rw [State.freqOf]
  by_cases hx : x = sym
  · subst hx
    rw [Ne, eq_allOnes_iff] at hroom
    have hlt : (s.freqOf x).toNat + 1 < 2 ^ 64 := by omega
    rw [get_put_same, List.count_singleton_self]
    exact BitVec.toNat_add_of_lt hlt
  · rw [get_put_other _ _ hx, List.count_eq_zero_of_not_mem (by simpa using hx)]
    rfl

/-- Within `IN_LEN` and the capacity, iteration `k` of `FT_ACCBUF` counts input byte number `k`. -/
theorem ftAccByte_of_lt {s : State} {k : Nat} (hcap : s.regs.inLen.toNat ≤ s.params.ibufCap)
    (hk : k < s.regs.inLen.toNat) : ftAccByte k s = ftAcc (s.inputBytes.getD k 0) s := by
  have hword : (BitVec.ofNat 64 k).toNat = k := by
    rw [BitVec.toNat_ofNat, Nat.mod_eq_of_lt (hk.trans s.regs.inLen.isLt)]
  have hget : ibufGet (BitVec.ofNat 64 k) s = .ok (s.inputBytes.getD k 0) := by
    rw [ibufGet, hword, if_neg (by omega), getD_inputBytes hk]
  rw [ftAccByte, hget]

/-! ## The loop of `FT_ACCBUF` -/

/-- A loop keeps an indexed property to its end, or stops in the first iteration that raises, where the property still
holds. -/
theorem forUp_cases {σ : Type} (P : Nat → σ → Prop) {body : Nat → σ → Except Raise σ} {count first : Nat} {s : σ}
    (hb : ∀ i u v, i < first + count → P i u → body i u = .ok v → P (i + 1) v) (hs : P first s) :
    (∃ t, forUp body count first s = .ok t ∧ P (first + count) t) ∨
      ∃ i u r, i < first + count ∧ P i u ∧ body i u = .error r ∧ forUp body count first s = .error r := by
  induction count generalizing first s with
  | zero => exact .inl ⟨s, rfl, hs⟩
  | succ count ih =>
    simp only [forUp]
    cases hbs : body first s with
    | error r => exact .inr ⟨first, s, r, by omega, hs, hbs, rfl⟩
    | ok u =>
      have hlast : first + 1 + count = first + (count + 1) := by omega
      simpa only [hlast] using ih (fun i u v hi => hb i u v (by omega)) (hb first s u (by omega) hs hbs)

/-- `u` is `s` after `FT_ACCBUF` has counted the first `k` input bytes. -/
structure Counted (s : State) (k : Nat) (u : State) : Prop where
  frame : u = { s with freq := u.freq }
  counts : ∀ x, (u.freqOf x).toNat = (s.freqOf x).toNat + (s.inputBytes.take k).count x
  room : ∀ j < k, s.countBefore j < 2 ^ 64 - 1

theorem Counted.start (s : State) : Counted s 0 s where
  frame := rfl
  counts _ := rfl
  room _ hj := absurd hj (Nat.not_lt_zero _)

section

variable {s u : State} {k : Nat} (hcap : s.regs.inLen.toNat ≤ s.params.ibufCap) (hk : k < s.regs.inLen.toNat)
  (h : Counted s k u)

include h

/-- The count that iteration `k` adds to. -/
theorem Counted.freqOf_next : (u.freqOf (s.inputBytes.getD k 0)).toNat = s.countBefore k := h.counts _

include hcap hk

theorem Counted.ftAccByte_eq : ftAccByte k u = ftAcc (s.inputBytes.getD k 0) u := by
  rw [h.frame]
  exact ftAccByte_of_lt (s := { s with freq := u.freq }) hcap hk

theorem Counted.next {v : State} (hv : ftAccByte k u = .ok v) : Counted s (k + 1) v := by
  rw [h.ftAccByte_eq hcap hk] at hv
  obtain ⟨hroom, hvu⟩ := ftAcc_ok hv
  refine { frame := ?_, counts := fun x => ?_, room := fun j hj => ?_ }
  · rw [hvu, h.frame]
  · rw [toNat_freqOf_of_ftAcc hv, h.counts, take_succ_inputBytes hk, List.count_append, Nat.add_assoc]
  · rcases Nat.lt_succ_iff_lt_or_eq.1 hj with hj | rfl
    · exact h.room j hj
    · rw [Ne, eq_allOnes_iff, h.freqOf_next] at hroom
      have := h.freqOf_next ▸ (u.freqOf (s.inputBytes.getD j 0)).isLt
      omega

theorem Counted.overflow {r : Raise} (hr : ftAccByte k u = .error r) :
    s.countBefore k = 2 ^ 64 - 1 ∧ r = { code := .cntOvf, info := (s.inputBytes.getD k 0).setWidth 64 } := by
  rw [h.ftAccByte_eq hcap hk] at hr
  obtain ⟨hfull, rfl⟩ := ftAcc_error hr
  rw [eq_allOnes_iff, h.freqOf_next] at hfull
  exact ⟨hfull, rfl⟩

end

/-- The loop ends with all bytes counted, or stops at the first byte that meets a full count (60 R186). -/
theorem forUp_ftAccByte_cases {s : State} (hcap : s.regs.inLen.toNat ≤ s.params.ibufCap) :
    (∃ u, forUp ftAccByte s.regs.inLen.toNat 0 s = .ok u ∧ Counted s s.regs.inLen.toNat u) ∨
      ∃ k < s.regs.inLen.toNat, s.countBefore k = 2 ^ 64 - 1 ∧ (∀ j < k, s.countBefore j < 2 ^ 64 - 1) ∧
        forUp ftAccByte s.regs.inLen.toNat 0 s =
          .error { code := .cntOvf, info := (s.inputBytes.getD k 0).setWidth 64 } := by
  have hcases := forUp_cases (Counted s) (count := s.regs.inLen.toNat) (first := 0)
    (fun i _ _ hi hu => hu.next hcap (by omega)) (.start s)
  rw [Nat.zero_add] at hcases
  refine hcases.imp id ?_
  rintro ⟨k, u, r, hk, hu, hr, hloop⟩
  obtain ⟨hfull, rfl⟩ := hu.overflow hcap hk hr
  exact ⟨k, hk, hfull, hu.room, hloop⟩

/-- Within the capacity `FT_ACCBUF` is its loop, from a table already marked as changed. -/
theorem ftAccbuf_of_le {s : State} (hcap : s.regs.inLen.toNat ≤ s.params.ibufCap) :
    ftAccbuf s = forUp ftAccByte s.regs.inLen.toNat 0 (tableChanged s) :=
  if_neg (Nat.not_lt.2 hcap)

/-- At the loop's end every count has grown by its byte's occurrences in the input. -/
theorem Counted.total {s u : State} (h : Counted s s.regs.inLen.toNat u) (x : Byte) :
    (u.freqOf x).toNat = (s.freqOf x).toNat + s.inputBytes.count x := by
  rw [h.counts, ← length_inputBytes, List.take_length]

/-! ## `FT_ACCBUF` -/

theorem exec_ftAccbuf_of_fits {s : State} (hcap : s.regs.inLen.toNat ≤ s.params.ibufCap)
    (hfit : ∀ x, (s.freqOf x).toNat + s.inputBytes.count x < 2 ^ 64) :
    ∃ t, exec .ftAccbuf s = .next t ∧ (∀ x, (t.freqOf x).toNat = (s.freqOf x).toNat + s.inputBytes.count x) ∧
      t = { s with freq := t.freq,
                   status := { s.status with busy := false, done := true, treeValid := false,
                                             codesValid := false } } := by
  rcases forUp_ftAccByte_cases (s := tableChanged s) hcap with ⟨u, hok, hu⟩ | ⟨k, hk, hfull, -, -⟩
  · refine ⟨complete u, ?_, hu.total, ?_⟩
    · rw [exec_eq_finish, body, ftAccbuf_of_le hcap]
      exact congrArg (finish s) hok
    · rw [hu.frame]
      rfl
  · obtain ⟨x, hx⟩ := exists_overflow_of_full hk hfull
    exact absurd (hfit x) (Nat.not_lt.2 hx)

theorem exec_ftAccbuf_of_range {s : State} (hcap : s.params.ibufCap < s.regs.inLen.toNat) :
    ∃ t, exec .ftAccbuf s = .next t ∧ FailedWith .ibufRange s.regs.inLen s t := by
  refine ⟨_, ?_, errorCompletion_failedWith .ibufRange s.regs.inLen s⟩
  rw [exec_eq_finish, body, ftAccbuf, if_pos hcap, finish]

theorem exec_ftAccbuf_of_overflow {s : State} (hcap : s.regs.inLen.toNat ≤ s.params.ibufCap)
    (hover : ∃ x, 2 ^ 64 ≤ (s.freqOf x).toNat + s.inputBytes.count x) :
    ∃ t k, exec .ftAccbuf s = .next t ∧ k < s.regs.inLen.toNat ∧ s.countBefore k = 2 ^ 64 - 1 ∧
      (∀ j < k, s.countBefore j < 2 ^ 64 - 1) ∧ FailedWith .cntOvf ((s.inputBytes.getD k 0).setWidth 64) s t := by
  rcases forUp_ftAccByte_cases (s := tableChanged s) hcap with ⟨u, -, hu⟩ | ⟨k, hk, hfull, hfirst, herr⟩
  · obtain ⟨x, hx⟩ := hover
    exact absurd (hu.total x ▸ (u.freqOf x).isLt) (Nat.not_lt.2 hx)
  · refine ⟨_, k, ?_, hk, hfull, hfirst, errorCompletion_failedWith _ _ s⟩
    rw [exec_eq_finish, body, ftAccbuf_of_le hcap]
    exact congrArg (finish s) herr

/-- Settles O22: the loop ends with every byte counted, unless the check before it or a full count stops it. -/
theorem ftAccbufCountsEveryByte : Obligations.FtAccbufCountsEveryByte :=
  ⟨by decide, fun _ => ⟨exec_ftAccbuf_of_fits, exec_ftAccbuf_of_range, exec_ftAccbuf_of_overflow⟩⟩

/-- Settles O24: from zero no count can overflow, since a byte occurs at most `IN_LEN` times in the input. -/
theorem clearedCountsSumToInLen : Obligations.ClearedCountsSumToInLen := by
  intro s hcap
  have hfit : ∀ x, ((cleared s).freqOf x).toNat + s.inputBytes.count x < 2 ^ 64 := fun x => by
    have hle := s.inputBytes.count_le_length (a := x)
    have := s.regs.inLen.isLt
    rw [length_inputBytes] at hle
    rw [toNat_freqOf_cleared]
    omega
  obtain ⟨t, hexec, hcounts, hframe⟩ := exec_ftAccbuf_of_fits (s := cleared s) hcap hfit
  have hcount : ∀ x, (t.freqOf x).toNat = s.inputBytes.count x := fun x => by
    rw [hcounts, toNat_freqOf_cleared, Nat.zero_add]
    rfl
  refine ⟨t, ?_, by rw [hframe]; rfl, ?_, hcount⟩
  · simp only [runCommands, exec_ftClear, hexec]
  · calc totalCount t.freq = (allSyms.map (fun x => s.inputBytes.count x)).sum :=
          congrArg List.sum (List.map_congr_left fun x _ => hcount x)
      _ = s.regs.inLen.toNat := (sum_count_eq_length allSyms_nodup mem_allSyms _).trans (length_inputBytes s)

end Sys2Proof.Laws
end

section
/-! PROOFS. `heap_push` and `heap_pop` (41 R92 to R95). While an entry is on its way the invariant fails at its position
only: above it during a push, below it during a pop. The keys on both sides of the position stay in order. -/

namespace Sys2Proof.Laws

open Sys2Proof.Machine

/-! ## Keys by position -/

/-- Position `i` of the heap holds a lesser key than position `j`. -/
def PosLt (node : List Node) (h : List NodeIdx) (i j : Nat) : Prop := keyLt node (heapAt h i) (heapAt h j) = true

theorem PosLt.trans {node : List Node} {h : List NodeIdx} {i j k : Nat} (h1 : PosLt node h i j)
    (h2 : PosLt node h j k) : PosLt node h i k :=
  keyLt_trans h1 h2

theorem posLt_of_not {node : List Node} {h : List NodeIdx} {i j : Nat} (hnd : h.Nodup) (hi : i < h.length)
    (hj : j < h.length) (hne : i ≠ j) (hn : ¬ PosLt node h i j) : PosLt node h j i := by
  have hval : heapAt h i ≠ heapAt h j := by
    rw [heapAt_eq_getElem hi, heapAt_eq_getElem hj]
    exact fun e => hne (hnd.getElem_inj_iff.1 e)
  exact (keyLt_total hval).resolve_left hn

theorem heapAt_swapAt {h : List NodeIdx} {i j : Nat} (hi : i < h.length) (hj : j < h.length) (k : Nat) :
    heapAt (swapAt h i j) k = heapAt h (Equiv.swap i j k) := by
  by_cases hkj : k = j
  · subst hkj
    rw [Equiv.swap_apply_right, swapAt, heapAt, List.getD_eq_getElem _ _ (by simpa using hj), List.getElem_set_self]
  · by_cases hki : k = i
    · subst hki
      rw [Equiv.swap_apply_left, swapAt, heapAt, List.getD_eq_getElem _ _ (by simpa using hi),
        List.getElem_set_ne (Ne.symm hkj), List.getElem_set_self]
    · simp [heapAt, swapAt, Equiv.swap_apply_of_ne_of_ne hki hkj, List.getElem?_set_ne (Ne.symm hkj),
        List.getElem?_set_ne (Ne.symm hki)]

theorem posLt_swapAt {node : List Node} {h : List NodeIdx} {i j : Nat} (hi : i < h.length) (hj : j < h.length)
    (a b : Nat) : PosLt node (swapAt h i j) a b ↔ PosLt node h (Equiv.swap i j a) (Equiv.swap i j b) := by
  rw [PosLt, PosLt, heapAt_swapAt hi hj, heapAt_swapAt hi hj]

/-! ## An entry on its way up -/

/-- The keys above and below position `i` are in order, whatever stands at `i`. -/
def OrderedAround (node : List Node) (h : List NodeIdx) (i : Nat) : Prop :=
  0 < i → ∀ j, 0 < j → j < h.length → (j - 1) / 2 = i → PosLt node h ((i - 1) / 2) j

/-- The heap invariant but for position `i` and its parent. -/
structure OkButAbove (node : List Node) (h : List NodeIdx) (i : Nat) : Prop where
  others : ∀ j, 0 < j → j < h.length → j ≠ i → PosLt node h ((j - 1) / 2) j
  around : OrderedAround node h i

theorem OkButAbove.heapOk {node : List Node} {h : List NodeIdx} {i : Nat} (hu : OkButAbove node h i)
    (hi : 0 < i → PosLt node h ((i - 1) / 2) i) : HeapOk node h := by
  intro j hj0 hj
  by_cases hji : j = i
  · exact hji ▸ hi (hji ▸ hj0)
  · exact hu.others j hj0 hj hji

theorem OkButAbove.swap {node : List Node} {h : List NodeIdx} {i : Nat} (hu : OkButAbove node h i) (hi0 : 0 < i)
    (hi : i < h.length) (hlt : PosLt node h i ((i - 1) / 2)) :
    OkButAbove node (swapAt h i ((i - 1) / 2)) ((i - 1) / 2) := by
  have hp : (i - 1) / 2 < h.length := by omega
  have hpi : (i - 1) / 2 ≠ i := by omega
  generalize hpe : (i - 1) / 2 = p at *
  constructor
  · intro j hj0 hj hjp
    rw [swapAt_length] at hj
    rw [posLt_swapAt hi hp]
    by_cases hji : j = i
    · rw [hji, hpe, Equiv.swap_apply_right, Equiv.swap_apply_left]
      exact hlt
    · rw [Equiv.swap_apply_of_ne_of_ne hji hjp]
      have hold := hu.others j hj0 hj hji
      by_cases hpj : (j - 1) / 2 = p
      · rw [hpj, Equiv.swap_apply_right]
        exact hlt.trans (hpj ▸ hold)
      · by_cases hij : (j - 1) / 2 = i
        · rw [hij, Equiv.swap_apply_left]
          exact hpe ▸ hu.around hi0 j hj0 hj hij
        · rwa [Equiv.swap_apply_of_ne_of_ne hij hpj]
  · intro hp0 j hj0 hj hjp
    rw [swapAt_length] at hj
    have hpp := hu.others p hp0 hp hpi
    rw [posLt_swapAt hi hp, Equiv.swap_apply_of_ne_of_ne (by omega) (by omega)]
    by_cases hji : j = i
    · rwa [hji, Equiv.swap_apply_left]
    · rw [Equiv.swap_apply_of_ne_of_ne hji (by omega)]
      exact hpp.trans (hjp ▸ hu.others j hj0 hj hji)

theorem siftUp_heapOk {node : List Node} {fuel : Nat} {h : List NodeIdx} {i : Nat} (hf : i ≤ fuel)
    (hi : i < h.length) (hnd : h.Nodup) (hu : OkButAbove node h i) : HeapOk node (siftUp node fuel h i) := by
  induction fuel generalizing h i with
  | zero => exact hu.heapOk (by omega)
  | succ fuel ih =>
    have hp : (i - 1) / 2 < h.length := by omega
    unfold siftUp
    split_ifs with h0 hlt
    · exact hu.heapOk (by omega)
    · exact ih (by omega) (by simpa using hp) ((swapAt_perm hi hp).nodup_iff.2 hnd)
        (hu.swap (by omega) hi hlt)
    · exact hu.heapOk fun _ => posLt_of_not hnd hi hp (by omega) hlt

theorem heapAt_append {h : List NodeIdx} {i : Nat} (rest : List NodeIdx) (hi : i < h.length) :
    heapAt (h ++ rest) i = heapAt h i := by
  simp [heapAt, List.getElem?_append_left hi]

theorem concat_okButAbove {node : List Node} {h : List NodeIdx} (n : NodeIdx) (hok : HeapOk node h) :
    OkButAbove node (h ++ [n]) h.length := by
  have hlen : (h ++ [n]).length = h.length + 1 := by simp
  constructor
  · intro j hj0 hj hjn
    have hj' : j < h.length := by omega
    rw [PosLt, heapAt_append _ hj', heapAt_append _ (by omega)]
    exact hok j hj0 hj'
  · intro _ j _ hj hjn
    omega

theorem heapPush_heapOk {node : List Node} {h : List NodeIdx} {n : NodeIdx} (hok : HeapOk node h) (hn : n ∉ h)
    (hnd : h.Nodup) : HeapOk node (heapPush node h n) :=
  siftUp_heapOk (le_refl _) (by simp) ((List.perm_append_singleton n h).nodup_iff.2 (hnd.cons hn))
    (concat_okButAbove n hok)

/-- Settles O25: the new entry rises from the last position until the invariant holds there too. -/
theorem heapPushKeepsTheHeap : Obligations.HeapPushKeepsTheHeap := fun node h n hok hn hnd =>
  ⟨heapPush_heapOk hok hn hnd, heapPush_perm node h n⟩

/-! ## An entry on its way down -/

/-- The heap invariant but for position `i` and its children. -/
structure OkButBelow (node : List Node) (h : List NodeIdx) (i : Nat) : Prop where
  others : ∀ j, 0 < j → j < h.length → (j - 1) / 2 ≠ i → PosLt node h ((j - 1) / 2) j
  around : OrderedAround node h i

theorem OkButBelow.heapOk {node : List Node} {h : List NodeIdx} {i : Nat} (hd : OkButBelow node h i)
    (hi : ∀ j, 0 < j → j < h.length → (j - 1) / 2 = i → PosLt node h i j) : HeapOk node h := by
  intro j hj0 hj
  by_cases hji : (j - 1) / 2 = i
  · exact hji ▸ hi j hj0 hj hji
  · exact hd.others j hj0 hj hji

/-- What the loop of `heap_pop` picks: `i` itself or a child of lesser key, and no child has a lesser one. -/
structure PicksLeast (node : List Node) (h : List NodeIdx) (i m : Nat) : Prop where
  child : m ≠ i → 0 < m ∧ (m - 1) / 2 = i ∧ PosLt node h m i
  least : ∀ j, 0 < j → j < h.length → (j - 1) / 2 = i → j ≠ m → PosLt node h m j

/-- One comparison of `heap_pop`: the lesser of the positions `m` and `g`, where `g` may be past the end. -/
theorem lesser_cases {node : List Node} {h : List NodeIdx} {m : Nat} (g : Nat) (hm : m < h.length) (hne : m ≠ g)
    (hnd : h.Nodup) :
    (if g < h.length && keyLt node (heapAt h g) (heapAt h m) then g else m) = m ∧ (g < h.length → PosLt node h m g) ∨
      (if g < h.length && keyLt node (heapAt h g) (heapAt h m) then g else m) = g ∧ g < h.length ∧
        PosLt node h g m := by
  split_ifs with hc <;> rw [Bool.and_eq_true, decide_eq_true_eq] at hc
  · exact .inr ⟨rfl, hc⟩
  · exact .inl ⟨rfl, fun hg => posLt_of_not hnd hg hm hne.symm fun hlt => hc ⟨hg, hlt⟩⟩

theorem leastChild_picksLeast {node : List Node} {h : List NodeIdx} {i : Nat} (hi : i < h.length) (hnd : h.Nodup) :
    PicksLeast node h i (leastChild node h i) := by
  have hchild : ∀ j, 0 < j → (j - 1) / 2 = i → j = 2 * i + 1 ∨ j = 2 * i + 2 := by omega
  simp only [leastChild]
  rcases lesser_cases (node := node) (2 * i + 1) hi (by omega) hnd with ⟨hm, hl⟩ | ⟨hm, hlen, hl⟩ <;> rw [hm]
  · rcases lesser_cases (node := node) (2 * i + 2) hi (by omega) hnd with ⟨hg, hr⟩ | ⟨hg, hglen, hr⟩ <;> rw [hg]
    · refine ⟨fun hne => absurd rfl hne, fun j hj0 hj hji _ => ?_⟩
      rcases hchild j hj0 hji with rfl | rfl
      · exact hl hj
      · exact hr hj
    · refine ⟨fun _ => ⟨by omega, by omega, hr⟩, fun j hj0 hj hji hjm => ?_⟩
      obtain rfl := (hchild j hj0 hji).resolve_right hjm
      exact hr.trans (hl hj)
  · rcases lesser_cases (node := node) (2 * i + 2) hlen (by omega) hnd with ⟨hg, hr⟩ | ⟨hg, hglen, hr⟩ <;> rw [hg]
    · refine ⟨fun _ => ⟨by omega, by omega, hl⟩, fun j hj0 hj hji hjm => ?_⟩
      obtain rfl := (hchild j hj0 hji).resolve_left hjm
      exact hr hj
    · refine ⟨fun _ => ⟨by omega, by omega, hr.trans hl⟩, fun j hj0 hj hji hjm => ?_⟩
      obtain rfl := (hchild j hj0 hji).resolve_right hjm
      exact hr

theorem OkButBelow.swap {node : List Node} {h : List NodeIdx} {i m : Nat} (hd : OkButBelow node h i)
    (hi : i < h.length) (hm : m < h.length) (hpick : PicksLeast node h i m) (hne : m ≠ i) :
    OkButBelow node (swapAt h i m) m := by
  obtain ⟨hm0, hmi, hlt⟩ := hpick.child hne
  constructor
  · intro j hj0 hj hjm
    rw [swapAt_length] at hj
    rw [posLt_swapAt hi hm]
    by_cases hji : (j - 1) / 2 = i
    · rw [hji, Equiv.swap_apply_left]
      by_cases hj' : j = m
      · rwa [hj', Equiv.swap_apply_right]
      · rw [Equiv.swap_apply_of_ne_of_ne (by omega) hj']
        exact hpick.least j hj0 hj hji hj'
    · rw [Equiv.swap_apply_of_ne_of_ne hji hjm]
      by_cases hj' : j = i
      · rw [hj', Equiv.swap_apply_left]
        exact hd.around (by omega) m hm0 hm hmi
      · rw [Equiv.swap_apply_of_ne_of_ne hj' (by rintro rfl; exact hji hmi)]
        exact hd.others j hj0 hj hji
  · intro _ j hj0 hj hjm
    rw [swapAt_length] at hj
    rw [posLt_swapAt hi hm, hmi, Equiv.swap_apply_left, Equiv.swap_apply_of_ne_of_ne (by omega) (by omega)]
    exact hjm ▸ hd.others j hj0 hj (by omega)

theorem siftDown_heapOk {node : List Node} {fuel : Nat} {h : List NodeIdx} {i : Nat} (hf : h.length ≤ i + fuel)
    (hi : i < h.length) (hnd : h.Nodup) (hd : OkButBelow node h i) : HeapOk node (siftDown node fuel h i) := by
  induction fuel generalizing h i with
  | zero => omega
  | succ fuel ih =>
    have hpick := leastChild_picksLeast (node := node) hi hnd
    have hm := leastChild_lt node hi
    unfold siftDown
    split_ifs with hstay
    · rw [hstay] at hpick
      exact hd.heapOk fun j hj0 hj hji => hpick.least j hj0 hj hji (by omega)
    · obtain ⟨hm0, hmi, -⟩ := hpick.child hstay
      exact ih (by rw [swapAt_length]; omega) (by simpa using hm) ((swapAt_perm hi hm).nodup_iff.2 hnd)
        (hd.swap hi hm hpick hstay)

/-- The root's key is the least (41 R92). -/
theorem heapOk_root_least {node : List Node} {h : List NodeIdx} (hok : HeapOk node h) {i : Nat} (hi0 : 0 < i)
    (hi : i < h.length) : PosLt node h 0 i := by
  induction i using Nat.strong_induction_on with
  | _ i ih =>
    have hedge := hok i hi0 hi
    rcases Nat.eq_zero_or_pos ((i - 1) / 2) with hp | hp
    · rwa [hp] at hedge
    · exact (ih _ (by omega) hp (by omega)).trans hedge

theorem heapOk_head_least {node : List Node} {r : NodeIdx} {t : List NodeIdx} (hok : HeapOk node (r :: t)) {x : NodeIdx}
    (hx : x ∈ t) : keyLt node r x = true := by
  obtain ⟨i, hi, rfl⟩ := List.mem_iff_getElem.1 hx
  have hlt : i + 1 < (r :: t).length := by simpa using hi
  have hroot := heapOk_root_least hok (Nat.succ_pos i) hlt
  rw [PosLt, heapAt_eq_getElem hlt] at hroot
  exact hroot

/-- The list `heap_pop` sifts: the last entry stands in the root's place. -/
theorem popped_okButBelow {node : List Node} {r : NodeIdx} {t : List NodeIdx} (last : NodeIdx)
    (hok : HeapOk node (r :: t)) : OkButBelow node (((r :: t).set 0 last).take t.length) 0 := by
  have hlen : (((r :: t).set 0 last).take t.length).length = t.length := by simp
  have hsame : ∀ j, 0 < j → j < t.length → heapAt (((r :: t).set 0 last).take t.length) j = heapAt (r :: t) j := by
    intro j hj0 hj
    obtain ⟨k, rfl⟩ := Nat.exists_eq_add_one.2 hj0
    simp [heapAt, List.getElem?_take_of_lt hj]
  constructor
  · intro j hj0 hj hj'
    rw [hlen] at hj
    rw [PosLt, hsame j hj0 hj, hsame _ (by omega) (by omega)]
    exact hok j hj0 (by simp; omega)
  · intro h0
    omega

theorem heapPop_spec {node : List Node} {h : List NodeIdx} (hok : HeapOk node h) (hnd : h.Nodup) (hne : h ≠ []) :
    ∃ r h', heapPop node h = some (r, h') ∧ h.Perm (r :: h') ∧ (∀ x ∈ h', keyLt node r x = true) ∧ HeapOk node h' := by
  obtain ⟨r, t, rfl⟩ := List.exists_cons_of_ne_nil hne
  by_cases ht : t = []
  · subst ht
    exact ⟨r, [], heapPop_singleton node r, .refl _, by simp, fun i _ hi => absurd hi (Nat.not_lt_zero i)⟩
  · have hpop : heapPop node (r :: t) =
        some (r, siftDown node t.length (((r :: t).set 0 (heapAt (r :: t) t.length)).take t.length) 0) := if_neg ht
    have hperm := heapPop_perm hpop
    have hpos : 0 < t.length := List.length_pos_iff.2 ht
    refine ⟨r, _, hpop, hperm, fun x hx => heapOk_head_least hok ((hperm.cons_inv).mem_iff.2 hx), ?_⟩
    exact siftDown_heapOk (by simp) (by simpa using hpos) ((popped_perm r ht).nodup_iff.2 hnd.of_cons)
      (popped_okButBelow _ hok)

/-- Settles O26: the root has the least key, and the entry put in its place sinks until the invariant holds. -/
theorem heapPopTakesTheLeastKey : Obligations.HeapPopTakesTheLeastKey := fun _ _ => heapPop_spec

end Sys2Proof.Laws
end

section
/-! SUPPORT. The reduction of `TB_BUILD` (41 R96) with the heap's order in view: every merge takes the two entries of
least key, keeps the sum of the frequencies in the heap, and makes a parent no lighter than the ones before it. -/

namespace Sys2Proof.Laws

open Sys2Proof.Machine

/-! ## Keys in a growing node store -/

theorem freqAt_new {node : List Node} (r : Node) (hn : node.length < 512) :
    freqAt (node ++ [r]) (BitVec.ofNat 9 node.length) = r.freq := by
  simp [freqAt, Nat.mod_eq_of_lt hn]

theorem keyLt_append {node : List Node} {x y : NodeIdx} (rest : List Node) (hx : x.toNat < node.length)
    (hy : y.toNat < node.length) : keyLt (node ++ rest) x y = keyLt node x y := by
  rw [keyLt, keyLt, freqAt_append _ hx, freqAt_append _ hy]

theorem freqAt_le_of_keyLt {node : List Node} {x y : NodeIdx} (h : keyLt node x y = true) :
    (freqAt node x).toNat ≤ (freqAt node y).toNat := by
  rw [keyLt_iff] at h
  omega

theorem heapOk_nil (node : List Node) : HeapOk node [] := fun i _ hi => absurd hi (Nat.not_lt_zero i)

theorem heapOk_append {node : List Node} {h : List NodeIdx} (rest : List Node) (hin : ∀ x ∈ h, x.toNat < node.length)
    (hok : HeapOk node h) : HeapOk (node ++ rest) h := by
  have hat : ∀ i, i < h.length → (heapAt h i).toNat < node.length := fun i hi => by
    rw [heapAt_eq_getElem hi]
    exact hin _ (List.getElem_mem hi)
  intro i hi0 hi
  rw [keyLt_append rest (hat _ (by omega)) (hat _ hi)]
  exact hok i hi0 hi

/-! ## One added record -/

/-- The sum of the frequencies of the entries in the heap. -/
def heapSum (b : Build) : Nat := (b.heap.map (fun x => (freqAt b.node x).toNat)).sum

section

variable {b : Build} (r : Node) (hn : b.node.length < 512) (hin : ∀ x ∈ b.heap, x.toNat < b.node.length)

include hn hin

theorem add_heapOk (hnd : b.heap.Nodup) (hok : HeapOk b.node b.heap) : HeapOk (b.add r).node (b.add r).heap := by
  refine heapPush_heapOk (heapOk_append [r] hin hok) (fun hmem => ?_) hnd
  have := hin _ hmem
  rw [toNat_ofNat_nodeIdx hn] at this
  omega

theorem add_heapSum : heapSum (b.add r) = heapSum b + r.freq.toNat := by
  have hp := (add_heap_perm b r).map (fun x => (freqAt (b.add r).node x).toNat)
  have hold : b.heap.map (fun x => (freqAt (b.node ++ [r]) x).toNat) = b.heap.map (fun x => (freqAt b.node x).toNat) :=
    List.map_congr_left fun x hx => by rw [freqAt_append _ (hin x hx)]
  rw [heapSum, hp.sum_eq, List.map_cons, List.sum_cons, add_node, freqAt_new r hn, hold, Nat.add_comm]
  rfl

end

/-! ## The leaves -/

theorem HeapHoldsAll.lt {b : Build} (h : HeapHoldsAll b) {x : NodeIdx} (hx : x ∈ b.heap) :
    x.toNat < b.node.length :=
  List.mem_range.1 (List.Perm.mem_iff h |>.1 (List.mem_map_of_mem hx))

theorem HeapHoldsAll.nodup {b : Build} (h : HeapHoldsAll b) : b.heap.Nodup :=
  (List.Perm.nodup_iff h |>.2 List.nodup_range).of_map

theorem foldl_addLeaf_heapOk (f : Table Word) {l : List Byte} {b : Build} (hl : b.node.length + l.length ≤ 512)
    (hall : HeapHoldsAll b) (hok : HeapOk b.node b.heap) :
    HeapOk (l.foldl (addLeaf f) b).node (l.foldl (addLeaf f) b).heap ∧
      heapSum (l.foldl (addLeaf f) b) = heapSum b + (l.map (fun x => (Table.get f x).toNat)).sum := by
  induction l generalizing b with
  | nil => exact ⟨hok, rfl⟩
  | cons x rest ih =>
    rw [List.length_cons] at hl
    rw [List.foldl_cons, List.map_cons, List.sum_cons, addLeaf]
    split_ifs with hx
    · simpa [hx] using ih (by omega) hall hok
    · have hn : b.node.length < 512 := by omega
      obtain ⟨hok', hsum⟩ := ih (b := b.add (leafNode x (Table.get f x))) (by simp; omega)
        (add_heapHoldsAll _ hn hall) (add_heapOk _ hn (fun _ => hall.lt) hall.nodup hok)
      refine ⟨hok', ?_⟩
      rw [hsum, add_heapSum _ hn (fun _ => hall.lt), Nat.add_assoc]
      rfl

theorem enumerateLeaves_heapOk (f : Table Word) : HeapOk (enumerateLeaves f).node (enumerateLeaves f).heap :=
  (foldl_addLeaf_heapOk f (by simp [allSyms]) (by simp [HeapHoldsAll]) (heapOk_nil _)).1

theorem enumerateLeaves_heapSum (f : Table Word) : heapSum (enumerateLeaves f) = totalCount f := by
  have hsum := (foldl_addLeaf_heapOk f (l := allSyms) (b := { node := [], heap := [] }) (by simp [allSyms])
    (by simp [HeapHoldsAll]) (heapOk_nil _)).2
  rw [enumerateLeaves, hsum]
  exact Nat.zero_add _

/-! ## One merge -/

/-- `x` and `y` are the two entries of least key, `rest` the others. -/
structure TwoLeast (b : Build) (x y : NodeIdx) (rest : List NodeIdx) : Prop where
  perm : b.heap.Perm (x :: y :: rest)
  first : keyLt b.node x y = true
  second : ∀ z ∈ rest, keyLt b.node y z = true

/-- The parent of the two entries (41 R96). -/
def parentNode (b : Build) (x y : NodeIdx) : Node := internalNode (freqAt b.node x + freqAt b.node y) x y

/-- The builder with the parent in the two entries' place (41 R96). -/
def merged (b : Build) (x y : NodeIdx) (rest : List NodeIdx) : Build :=
  Build.add { b with heap := rest } (parentNode b x y)

/-- A merge pops the two entries of least key, and its outcome depends on their sum alone. -/
theorem mergeOnce_eq {b : Build} (hok : HeapOk b.node b.heap) (hnd : b.heap.Nodup) (h2 : 1 < b.heap.length) :
    ∃ x y rest, TwoLeast b x y rest ∧ HeapOk b.node rest ∧ mergeOnce b =
      if 2 ^ 64 ≤ (freqAt b.node x).toNat + (freqAt b.node y).toNat then
        .error { code := .freqOvf, info := BitVec.ofNat 64 b.node.length }
      else .ok (merged b x y rest) := by
  obtain ⟨x, h1, hx, hp1, hmin, hok1⟩ := heapPop_spec hok hnd (List.length_pos_iff.1 (by omega))
  have hlen := hp1.length_eq
  rw [List.length_cons] at hlen
  have hnd1 : h1.Nodup := (hp1.nodup_iff.1 hnd).of_cons
  obtain ⟨y, rest, hy, hp2, hmin', hok2⟩ := heapPop_spec hok1 hnd1 (List.length_pos_iff.1 (by omega))
  refine ⟨x, y, rest, ⟨hp1.trans (hp2.cons x), hmin y (hp2.mem_iff.2 (by simp)), hmin'⟩, hok2, ?_⟩
  simp only [mergeOnce, hx, hy, merged, parentNode]

@[simp] theorem merged_node (b : Build) (x y : NodeIdx) (rest : List NodeIdx) :
    (merged b x y rest).node = b.node ++ [parentNode b x y] := rfl

theorem merged_heap_perm (b : Build) (x y : NodeIdx) (rest : List NodeIdx) :
    (merged b x y rest).heap.Perm (BitVec.ofNat 9 b.node.length :: rest) :=
  add_heap_perm { b with heap := rest } _

theorem freq_merged_new {b : Build} {x y : NodeIdx} (rest : List NodeIdx) (hn : b.node.length < 512)
    (hsum : (freqAt b.node x).toNat + (freqAt b.node y).toNat < 2 ^ 64) :
    (freqAt (merged b x y rest).node (BitVec.ofNat 9 b.node.length)).toNat =
      (freqAt b.node x).toNat + (freqAt b.node y).toNat := by
  rw [merged_node, freqAt_new _ hn]
  exact BitVec.toNat_add_of_lt hsum

namespace TwoLeast

variable {b : Build} {x y : NodeIdx} {rest : List NodeIdx} (h : TwoLeast b x y rest)

include h

theorem mem_first : x ∈ b.heap := h.perm.mem_iff.2 (by simp)

theorem mem_second : y ∈ b.heap := h.perm.mem_iff.2 (by simp)

theorem mem_of_mem_rest {z : NodeIdx} (hz : z ∈ rest) : z ∈ b.heap := h.perm.mem_iff.2 (by simp [hz])

theorem ne : x ≠ y := by
  rintro rfl
  simpa [keyLt_irrefl] using h.first

theorem heapSum_eq :
    heapSum b = (freqAt b.node x).toNat + (freqAt b.node y).toNat + heapSum { b with heap := rest } := by
  rw [heapSum, (h.perm.map _).sum_eq, List.map_cons, List.map_cons, List.sum_cons, List.sum_cons, Nat.add_assoc]
  rfl

/-- The two frequencies are no greater than any other. -/
theorem le_of_mem_rest {z : NodeIdx} (hz : z ∈ rest) :
    (freqAt b.node x).toNat ≤ (freqAt b.node z).toNat ∧ (freqAt b.node y).toNat ≤ (freqAt b.node z).toNat :=
  ⟨freqAt_le_of_keyLt (keyLt_trans h.first (h.second z hz)), freqAt_le_of_keyLt (h.second z hz)⟩

variable (hn : b.node.length < 512) (hin : ∀ z ∈ b.heap, z.toNat < b.node.length)

include hn hin

theorem merged_heapOk (hnd : b.heap.Nodup) (hok : HeapOk b.node rest) :
    HeapOk (merged b x y rest).node (merged b x y rest).heap :=
  add_heapOk (b := { b with heap := rest }) _ hn (fun z hz => hin z (h.mem_of_mem_rest hz))
    (h.perm.nodup_iff.1 hnd).of_cons.of_cons hok

variable (hsum : (freqAt b.node x).toNat + (freqAt b.node y).toNat < 2 ^ 64)

include hsum

/-- The parent weighs what its children weigh, so the heap's sum stays. -/
theorem merged_heapSum : heapSum (merged b x y rest) = heapSum b := by
  have hparent : (parentNode b x y).freq.toNat = (freqAt b.node x).toNat + (freqAt b.node y).toNat :=
    BitVec.toNat_add_of_lt hsum
  rw [h.heapSum_eq, merged,
    add_heapSum (b := { b with heap := rest }) _ hn fun z hz => hin z (h.mem_of_mem_rest hz), hparent]
  omega

/-- The parent does not outweigh two entries of the new heap together: one of them is the parent, or each weighs at
least as much as a child. -/
theorem le_of_mem_merged {u v : NodeIdx} (hu : u ∈ (merged b x y rest).heap) (hv : v ∈ (merged b x y rest).heap)
    (huv : u ≠ v) : (freqAt b.node x).toNat + (freqAt b.node y).toNat ≤
      (freqAt (merged b x y rest).node u).toNat + (freqAt (merged b x y rest).node v).toNat := by
  have hnew := freq_merged_new rest hn hsum
  have hrest : ∀ z ∈ rest, (freqAt b.node x).toNat ≤ (freqAt (merged b x y rest).node z).toNat ∧
      (freqAt b.node y).toNat ≤ (freqAt (merged b x y rest).node z).toNat := fun z hz => by
    rw [merged_node, freqAt_append _ (hin z (h.mem_of_mem_rest hz))]
    exact h.le_of_mem_rest hz
  rcases List.mem_cons.1 ((merged_heap_perm b x y rest).mem_iff.1 hu) with rfl | hu'
  · omega
  · rcases List.mem_cons.1 ((merged_heap_perm b x y rest).mem_iff.1 hv) with rfl | hv'
    · omega
    · exact Nat.add_le_add (hrest u hu').1 (hrest v hv').2

end TwoLeast

/-! ## The invariant of the reduction -/

/-- What holds of the builder between two merges, for the table `f`: a partial tree on the leaves of `f` whose heap is
in order and weighs the sum of all counts; the internal records stand in non-decreasing order, and none outweighs two
entries of the heap together, so that the next one will not be lighter. -/
structure Reducing (f : Table Word) (b : Build) : Prop extends PartialTree (distinctCount f) b where
  heapOk : HeapOk b.node b.heap
  leavesFirst : b.node.take (distinctCount f) = distinctLeaves f
  weight : heapSum b = totalCount f
  sorted : ∀ i j, distinctCount f ≤ i → i ≤ j → j < b.node.length →
    (freqAt b.node (BitVec.ofNat 9 i)).toNat ≤ (freqAt b.node (BitVec.ofNat 9 j)).toNat
  light : ∀ i, distinctCount f ≤ i → i < b.node.length → ∀ u ∈ b.heap, ∀ v ∈ b.heap, u ≠ v →
    (freqAt b.node (BitVec.ofNat 9 i)).toNat ≤ (freqAt b.node u).toNat + (freqAt b.node v).toNat

theorem PartialTree.heap_nodup {m : Nat} {b : Build} (h : PartialTree m b) : b.heap.Nodup :=
  ((List.nodup_append.1 (h.parents.nodup_iff.2 List.nodup_range)).2.1).of_map

/-- The reduction starts with the leaves alone. -/
theorem enumerateLeaves_reducing (f : Table Word) : Reducing f (enumerateLeaves f) := by
  have hlen : (enumerateLeaves f).node.length = distinctCount f := by
    rw [enumerateLeaves_node, distinctLeaves_length]
  exact
    { enumerateLeaves_partialTree f with
      heapOk := enumerateLeaves_heapOk f
      leavesFirst := by rw [List.take_of_length_le hlen.le, enumerateLeaves_node]
      weight := enumerateLeaves_heapSum f
      sorted := fun _ _ _ _ _ => by omega
      light := fun _ _ _ => by omega }

/-- A merge that does not raise keeps the invariant: the parent is the heaviest internal record so far. -/
theorem Reducing.merge {f : Table Word} {b c : Build} (hb : Reducing f b) (h2 : 1 < b.heap.length)
    (h : mergeOnce b = .ok c) : Reducing f c := by
  have hpart := mergeOnce_partialTree h2 hb.toPartialTree h
  obtain ⟨x, y, rest, htwo, hok, hmerge⟩ := mergeOnce_eq hb.heapOk hb.heap_nodup h2
  rw [hmerge] at h
  split_ifs at h with hsum
  obtain rfl := Except.ok.inj h
  have hn : b.node.length < 512 := by have := hb.size; have := hb.bound; omega
  have hin : ∀ z ∈ b.heap, z.toNat < b.node.length := fun z => hb.lt_of_mem_heap
  have hsum' := Nat.not_le.1 hsum
  have hnew := freq_merged_new rest hn hsum'
  have hlen : (merged b x y rest).node.length = b.node.length + 1 := by simp
  have hold : ∀ i < b.node.length, freqAt (merged b x y rest).node (BitVec.ofNat 9 i) =
      freqAt b.node (BitVec.ofNat 9 i) := fun i hi =>
    freqAt_append _ (by rwa [toNat_ofNat_nodeIdx (by omega)])
  have hheaviest : ∀ i, distinctCount f ≤ i → i ≤ b.node.length →
      (freqAt (merged b x y rest).node (BitVec.ofNat 9 i)).toNat ≤
        (freqAt b.node x).toNat + (freqAt b.node y).toNat := by
    intro i hi hle
    rcases Nat.lt_or_eq_of_le hle with hlt | rfl
    · rw [hold i hlt]
      exact hb.light i hi hlt x htwo.mem_first y htwo.mem_second htwo.ne
    · exact hnew.le
  refine
    { hpart with
      heapOk := htwo.merged_heapOk hn hin hb.heap_nodup hok
      leavesFirst := by rw [merged_node, List.take_append_of_le_length hb.full, hb.leavesFirst]
      weight := (htwo.merged_heapSum hn hin hsum').trans hb.weight
      sorted := fun i j hi hij hj => ?_
      light := fun i hi hlt u hu v hv huv =>
        (hheaviest i hi (by omega)).trans (htwo.le_of_mem_merged hn hin hsum' hu hv huv) }
  rcases Nat.lt_or_eq_of_le (show j ≤ b.node.length by omega) with hlt | rfl
  · rw [hold i (by omega), hold j hlt]
    exact hb.sorted i j hi hij hlt
  · exact (hheaviest i hi hij).trans hnew.ge

/-- The last entry weighs the sum of all counts. -/
theorem Reducing.root_weight {f : Table Word} {b : Build} {r : NodeIdx} (hb : Reducing f b) (hr : b.heap = [r]) :
    (freqAt b.node r).toNat = totalCount f := by
  simpa [heapSum, hr] using hb.weight

/-! ## The loop -/

/-- What every merge keeps holds after the loop of merges, or where the loop stops, at a merge that raises. -/
theorem mergeAll_cases (P : Build → Prop)
    (hstep : ∀ b c, 1 < b.heap.length → P b → mergeOnce b = .ok c → P c) {fuel : Nat} {b : Build}
    (hf : b.heap.length ≤ fuel + 1) (hb : P b) :
    (∃ c, mergeAll fuel b = .ok c ∧ P c) ∨
      ∃ d r, 1 < d.heap.length ∧ P d ∧ mergeOnce d = .error r ∧ mergeAll fuel b = .error r := by
  induction fuel generalizing b with
  | zero => exact .inl ⟨b, rfl, hb⟩
  | succ fuel ih =>
    by_cases h2 : 1 < b.heap.length
    · cases hm : mergeOnce b with
      | error r => exact .inr ⟨b, r, h2, hb, hm, by simp only [mergeAll, if_pos h2, hm]⟩
      | ok d =>
        have hd := mergeOnce_sizes h2 hm
        simpa only [mergeAll, if_pos h2, hm] using ih (by omega) (hstep b d h2 hb hm)
    · exact .inl ⟨b, by rw [mergeAll, if_neg h2], hb⟩

/-- The reduction ends with one entry, the last record, or stops at two entries whose sum is 2^64 or more. -/
theorem reduction_cases {f : Table Word} (hk : 2 ≤ distinctCount f) :
    (∃ c r, mergeAll (distinctCount f) (enumerateLeaves f) = .ok c ∧ Reducing f c ∧
        TreeShape (distinctCount f) c.node ∧ c.heap = [r] ∧ r.toNat = 2 * distinctCount f - 2) ∨
      ∃ d x y rest, Reducing f d ∧ TwoLeast d x y rest ∧
        2 ^ 64 ≤ (freqAt d.node x).toNat + (freqAt d.node y).toNat ∧
        mergeAll (distinctCount f) (enumerateLeaves f) =
          .error { code := .freqOvf, info := BitVec.ofNat 64 d.node.length } := by
  rcases mergeAll_cases (Reducing f) (fun b c h2 hb => hb.merge h2)
    (Nat.le_succ_of_le (enumerateLeaves_heap_length f).le) (enumerateLeaves_reducing f) with
    ⟨c, hc, hred⟩ | ⟨d, r, h2, hred, hr, hall⟩
  · obtain ⟨hshape, r, hr, hroot⟩ := mergeAll_treeShape hk hc
    exact .inl ⟨c, r, hc, hred, hshape, hr, hroot⟩
  · obtain ⟨x, y, rest, htwo, -, hmerge⟩ := mergeOnce_eq hred.heapOk hred.heap_nodup h2
    rw [hmerge] at hr
    split_ifs at hr with hsum
    obtain rfl := Except.error.inj hr
    exact .inr ⟨d, x, y, rest, hred, htwo, hsum, hall⟩

/-! ## The builder -/

/-- With two distinct symbols or more the builder is the loop of merges over the leaves. -/
theorem buildTree_of_two_le {f : Table Word} (ph : Byte) (hk : 2 ≤ distinctCount f) :
    buildTree ph f = (mergeAll (distinctCount f) (enumerateLeaves f)).map popRoot := by
  have hlen := distinctLeaves_length f
  simp only [buildTree, enumerateLeaves_heap_length, enumerateLeaves_node]
  rcases hl : distinctLeaves f with _ | ⟨leaf, _ | ⟨second, others⟩⟩
  · simp [hl] at hlen
    omega
  · simp [hl] at hlen
    omega
  · cases mergeAll (distinctCount f) (enumerateLeaves f) <;> rfl

theorem popRoot_of_singleton {b : Build} {r : NodeIdx} (h : b.heap = [r]) :
    popRoot b = { node := b.node, root := r, empty := false } := by
  rw [popRoot, h, heapPop_singleton]

end Sys2Proof.Laws
end

section
/-! PROOFS. The array heap against a plain queue (41 R103). Heap and queue hold the same entries in different orders;
both give up the two entries of least key, so that every merge does the same to both. -/

namespace Sys2Proof.Laws

open Sys2Proof.Machine

/-! ## The queue -/

theorem mem_of_leastKey {node : List Node} {q : List NodeIdx} {r : NodeIdx} (h : leastKey node q = some r) : r ∈ q := by
  induction q generalizing r with
  | nil => simp [leastKey] at h
  | cons a rest ih =>
    rw [leastKey] at h
    cases hl : leastKey node rest with
    | none => simp_all
    | some b =>
      rw [hl] at h
      simp only at h
      split_ifs at h <;> obtain rfl := Option.some.inj h
      · exact List.mem_cons_of_mem _ (ih hl)
      · exact List.mem_cons_self

/-- The entry whose key is less than every other one is what the queue gives up. -/
theorem leastKey_eq_some {node : List Node} {q : List NodeIdx} {r : NodeIdx} (hr : r ∈ q)
    (hleast : ∀ x ∈ q, x ≠ r → keyLt node r x = true) : leastKey node q = some r := by
  induction q with
  | nil => simp at hr
  | cons a rest ih =>
    have hrest : ∀ x ∈ rest, x ≠ r → keyLt node r x = true := fun x hx => hleast x (List.mem_cons_of_mem a hx)
    rw [leastKey]
    by_cases hmem : r ∈ rest
    · rw [ih hmem hrest]
      by_cases ha : a = r
      · simp [ha]
      · simp [hleast a List.mem_cons_self ha]
    · obtain rfl : r = a := (List.mem_cons.1 hr).resolve_right hmem
      cases hl : leastKey node rest with
      | none => rfl
      | some b =>
        have hb := mem_of_leastKey hl
        have hnot : keyLt node b r = false := by
          have hrb := hrest b hb fun e => hmem (e ▸ hb)
          rw [← Bool.not_eq_true]
          intro hbr
          simpa [keyLt_irrefl] using keyLt_trans hrb hbr
        simp [hnot]

/-- The queue gives up the entry that the heap does. -/
theorem leastKey_of_perm {node : List Node} {q rest : List NodeIdx} {r : NodeIdx} (hp : q.Perm (r :: rest))
    (hleast : ∀ x ∈ rest, keyLt node r x = true) : leastKey node q = some r ∧ (q.erase r).Perm rest := by
  refine ⟨leastKey_eq_some (hp.mem_iff.2 List.mem_cons_self) fun x hx hne => ?_, ?_⟩
  · exact hleast x ((List.mem_cons.1 (hp.mem_iff.1 hx)).resolve_left hne)
  · simpa using hp.erase r

/-! ## Heap and queue side by side -/

/-- The same node store, the same entries. -/
structure SameEntries (b q : Build) : Prop where
  node : b.node = q.node
  entries : q.heap.Perm b.heap

/-- Two outcomes that agree: the same error, or builders with the same entries. -/
inductive SameOutcome : Except Raise Build → Except Raise Build → Prop where
  | error (r : Raise) : SameOutcome (.error r) (.error r)
  | ok {b q : Build} (h : SameEntries b q) : SameOutcome (.ok b) (.ok q)

theorem SameOutcome.eq_error {r : Raise} {o : Except Raise Build} (h : SameOutcome (.error r) o) : o = .error r := by
  cases h
  rfl

theorem SameOutcome.eq_ok {b : Build} {o : Except Raise Build} (h : SameOutcome (.ok b) o) :
    ∃ q, o = .ok q ∧ SameEntries b q := by
  cases h with
  | ok h => exact ⟨_, rfl, h⟩

theorem mergeOnce_sameOutcome {b q : Build} (hok : HeapOk b.node b.heap) (hnd : b.heap.Nodup) (h2 : 1 < b.heap.length)
    (hq : SameEntries b q) : SameOutcome (mergeOnce b) (queueMerge q) := by
  obtain ⟨node, queue⟩ := q
  obtain ⟨rfl, hperm⟩ := hq
  obtain ⟨x, y, rest, htwo, -, hmerge⟩ := mergeOnce_eq hok hnd h2
  obtain ⟨hx, hqx⟩ := leastKey_of_perm (hperm.trans htwo.perm) (List.forall_mem_cons.2
    ⟨htwo.first, fun z hz => keyLt_trans htwo.first (htwo.second z hz)⟩)
  obtain ⟨hy, hqy⟩ := leastKey_of_perm hqx htwo.second
  rw [hmerge]
  simp only [queueMerge, hx, hy]
  split_ifs
  · exact .error _
  · exact .ok ⟨rfl, (hqy.cons _).trans (merged_heap_perm b x y rest).symm⟩

/-- The loops agree from the start of a reduction. -/
theorem mergeAll_sameOutcome {f : Table Word} {fuel : Nat} {b q : Build} (hb : Reducing f b) (hq : SameEntries b q) :
    SameOutcome (mergeAll fuel b) (queueMergeAll fuel q) := by
  induction fuel generalizing b q with
  | zero => exact .ok hq
  | succ fuel ih =>
    rw [mergeAll, queueMergeAll, hq.entries.length_eq]
    split_ifs with h2
    · have hone := mergeOnce_sameOutcome hb.heapOk hb.heap_nodup h2 hq
      cases hm : mergeOnce b with
      | error r =>
        rw [hm] at hone
        rw [hone.eq_error]
        exact .error r
      | ok c =>
        rw [hm] at hone
        obtain ⟨p, hp, h⟩ := hone.eq_ok
        rw [hp]
        exact ih (hb.merge h2 hm) h
    · exact .ok hq

/-- The builder and the queue start from the same leaves. -/
theorem enumerateLeaves_sameEntries (f : Table Word) : SameEntries (enumerateLeaves f)
    { node := distinctLeaves f, heap := (List.range (distinctLeaves f).length).map (BitVec.ofNat 9) } where
  node := enumerateLeaves_node f
  entries := by
    have hp := (enumerateLeaves_heapHoldsAll f).map (BitVec.ofNat 9)
    rw [enumerateLeaves_node, List.map_map] at hp
    exact hp.symm.trans (.of_eq (by simp [Function.comp_def]))

/-- Settles O27: heap and queue agree through the reduction, and their last entry is the root. -/
theorem arrayHeapBuildsTheQueuesTree : Obligations.ArrayHeapBuildsTheQueuesTree := by
  intro ph f hk
  have hsame := mergeAll_sameOutcome (fuel := distinctCount f) (enumerateLeaves_reducing f)
    (enumerateLeaves_sameEntries f)
  rw [buildTree_of_two_le ph hk, queueTree, distinctLeaves_length]
  rw [distinctLeaves_length] at hsame
  cases hm : mergeAll (distinctCount f) (enumerateLeaves f) with
  | error r =>
    rw [hm] at hsame
    rw [hsame.eq_error]
    rfl
  | ok c =>
    obtain ⟨-, r, hr, -⟩ := mergeAll_treeShape hk hm
    rw [hm] at hsame
    obtain ⟨q, hq, h⟩ := hsame.eq_ok
    have hqueue : q.heap = [r] := List.perm_singleton.1 (hr ▸ h.entries)
    simp [hq, hqueue, Except.map, popRoot_of_singleton hr, h.node]

end Sys2Proof.Laws
end

section
/-! PROOFS. `TB_BUILD` on an empty table, on one symbol and on more (41 R96 to R102), and the node read-out (41
R104). -/

namespace Sys2Proof.Laws

open Sys2Proof.Machine

/-! ## The completion of `TB_BUILD` -/

/-- `TB_BUILD` completes with the builder's tree. -/
theorem exec_tbBuild_of_ok {s : State} {t : Tree} (h : buildTree s.params.phSym s.freq = .ok t) :
    exec .tbBuild s = .next (complete (s.withTree t)) := by
  rw [exec_eq_finish, body, tbBuild, h, finish]

theorem exec_tbBuild_of_error {s : State} {r : Raise} (h : buildTree s.params.phSym s.freq = .error r) :
    exec .tbBuild s = .next (errorCompletion r s) := by
  rw [exec_eq_finish, body, tbBuild, h, finish]

/-! ## No symbol, one symbol -/

theorem buildTree_of_nil {f : Table Word} (ph : Byte) (h : distinctLeaves f = []) :
    buildTree ph f = .ok { node := [], root := 0, empty := true } := by
  simp only [buildTree, enumerateLeaves_node, h]

theorem buildTree_of_singleton {f : Table Word} {leaf : Node} (ph : Byte) (h : distinctLeaves f = [leaf]) :
    buildTree ph f =
      .ok { node := [leaf, placeholderNode ph, internalNode leaf.freq 0 1], root := 2, empty := false } := by
  simp only [buildTree, enumerateLeaves_node, h]

theorem distinctLeaves_of_zero {f : Table Word} (h : ∀ x, Table.get f x = 0) : distinctLeaves f = [] := by
  have hnone : allSyms.filter (fun x => Table.get f x != 0) = [] := List.filter_eq_nil_iff.2 fun x _ => by simp [h x]
  rw [distinctLeaves, hnone, List.map_nil]

theorem distinctLeaves_of_single {f : Table Word} {x : Byte} (hx : Table.get f x ≠ 0)
    (hother : ∀ y, y ≠ x → Table.get f y = 0) : distinctLeaves f = [leafNode x (Table.get f x)] := by
  have hone : allSyms.filter (fun y => Table.get f y != 0) = [x] := by
    have hiff : ∀ y ∈ allSyms, (Table.get f y != 0) = (y == x) := fun y _ => by
      by_cases hy : y = x
      · simpa [hy] using hx
      · simp [hy, hother y hy]
    rw [List.filter_congr hiff, List.filter_beq, List.count_eq_one_of_mem allSyms_nodup (mem_allSyms x),
      List.replicate_one]
  rw [distinctLeaves, hone, List.map_singleton]

/-- Settles O28: no leaf is enumerated. -/
theorem tbBuildOfEmptyTable : Obligations.TbBuildOfEmptyTable := fun _ hzero =>
  exec_tbBuild_of_ok (buildTree_of_nil _ (distinctLeaves_of_zero hzero))

/-- Settles O29: one leaf is enumerated, and the placeholder becomes its sibling. -/
theorem tbBuildOfSingleSymbol : Obligations.TbBuildOfSingleSymbol := fun _ _ hx hother =>
  exec_tbBuild_of_ok (buildTree_of_singleton _ (distinctLeaves_of_single hx hother))

/-! ## Two symbols or more -/

/-- Settles O30: the reduction cannot overflow, since its entries weigh less than 2^64 together. -/
theorem tbBuildBuildsTheTree : Obligations.TbBuildBuildsTheTree := by
  intro s hk hsum
  rcases reduction_cases hk with ⟨c, r, hc, hred, hshape, hr, hroot⟩ | ⟨d, x, y, rest, hred, htwo, hover, -⟩
  · have hbuild : buildTree s.params.phSym s.freq = .ok { node := c.node, root := r, empty := false } := by
      rw [buildTree_of_two_le _ hk, hc, ← popRoot_of_singleton hr]
      rfl
    exact ⟨_, exec_tbBuild_of_ok hbuild, hshape, hred.leavesFirst, hroot, hred.root_weight hr, hred.sorted, rfl⟩
  · have := htwo.heapSum_eq
    have := hred.weight
    omega

/-- Settles O31: a reduction that ends has a root of the whole sum, which 64 bits do not hold. -/
theorem tbBuildOverflowRaises : Obligations.TbBuildOverflowRaises := by
  intro s hk hsum
  rcases reduction_cases hk with ⟨c, r, -, hred, -, hr, -⟩ | ⟨d, x, y, rest, hred, htwo, -, hall⟩
  · have := hred.root_weight hr
    have := (freqAt c.node r).isLt
    omega
  · have hbuild : buildTree s.params.phSym s.freq =
        .error { code := .freqOvf, info := BitVec.ofNat 64 d.node.length } := by
      rw [buildTree_of_two_le _ hk, hall]
      rfl
    have hsize := hred.size
    have hlen := htwo.perm.length_eq
    simp only [List.length_cons] at hlen
    exact ⟨_, _, exec_tbBuild_of_error hbuild, hred.full, by omega, errorCompletion_failedWith _ _ s⟩

/-! ## The node read-out -/

/-- The word of `ND_READ`: its opcode, and its index in bits 16:8 (30 R61). -/
theorem decode_ndReadWord (idx : NodeIdx) : decode (0x21 ||| idx.setWidth 64 <<< 8) = .ok (.ndRead idx) := by
  have hword : encode (.ndRead idx) = 0x21 ||| idx.setWidth 64 <<< 8 := by
    rw [encode, Instr.operand, BitVec.ofNat_toNat]
    rfl
  exact hword ▸ decodeOfEncodeIsTheCommand _ (wf_all _)

theorem toNat_setWidth_shiftLeft {w : Nat} (v : BitVec w) {k : Nat} (h : w + k ≤ 28) :
    (v.setWidth 28 <<< k).toNat = 2 ^ k * v.toNat := by
  have hv : v.toNat * 2 ^ k < 2 ^ 28 :=
    calc v.toNat * 2 ^ k < 2 ^ w * 2 ^ k := Nat.mul_lt_mul_of_pos_right v.isLt (Nat.two_pow_pos k)
      _ = 2 ^ (w + k) := (Nat.pow_add 2 w k).symm
      _ ≤ 2 ^ 28 := Nat.pow_le_pow_right (by omega) h
  rw [BitVec.toNat_shiftLeft, BitVec.toNat_setWidth_of_le (by omega), Nat.shiftLeft_eq, Nat.mod_eq_of_lt hv,
    Nat.mul_comm]

/-- The fields of `NODE_INFO` stand side by side, so that the word is their weighted sum (10 R24). -/
theorem toNat_info (n : Node) : n.info.toNat =
    if n.isLeaf then 1 + 2 * n.ph.toNat + 4 * n.sym.toNat else 2 ^ 10 * n.left.toNat + 2 ^ 19 * n.right.toNat := by
  unfold Node.info
  split_ifs
  · have hph := n.ph.toNat_le
    have hflags : 1 ||| 2 ^ 1 * n.ph.toNat = 1 + 2 * n.ph.toNat := by
      rw [Nat.or_comm, ← Nat.two_pow_add_eq_or_of_lt (by omega), Nat.add_comm, Nat.pow_one]
    rw [BitVec.toNat_or, BitVec.toNat_or, toNat_setWidth_shiftLeft _ (by omega), toNat_setWidth_shiftLeft _ (by omega),
      BitVec.toNat_ofBool]
    change 1 ||| 2 ^ 1 * n.ph.toNat ||| 2 ^ 2 * n.sym.toNat = _
    rw [hflags, Nat.or_comm, ← Nat.two_pow_add_eq_or_of_lt (by omega), Nat.add_comm]
  · have hleft := n.left.isLt
    rw [BitVec.toNat_or, toNat_setWidth_shiftLeft _ (by omega), toNat_setWidth_shiftLeft _ (by omega), Nat.or_comm,
      ← Nat.two_pow_add_eq_or_of_lt (by omega), Nat.add_comm]

theorem exec_ndRead_of_lt {s : State} {idx : NodeIdx} (hv : s.status.treeValid = true) (h : idx.toNat < s.nn) :
    exec (.ndRead idx) s = .next (complete { s with
      regs := { s.regs with nodeFreq := (s.nodeAt idx).freq, nodeInfo := (s.nodeAt idx).info } }) := by
  rw [exec_eq_finish, body, requires, if_pos hv, readNode, if_neg (by omega), finish]

/-- Settles O33: the index selects a record in use, or the command raises. -/
theorem ndReadCopiesTheRecord : Obligations.NdReadCopiesTheRecord := by
  refine ⟨decode_ndReadWord, fun s idx => ⟨fun n hv hn => ?_, fun hv => ?_, fun hv hle => ?_⟩⟩
  · have hat : s.nodeAt idx = n := by simp only [State.nodeAt, hn]
    have hlt : idx.toNat < s.nn := (List.getElem?_eq_some_iff.1 hn).1
    exact ⟨_, exec_ndRead_of_lt hv hlt, congrArg Node.freq hat, hat ▸ toNat_info (s.nodeAt idx), rfl⟩
  · refine ⟨_, ?_, errorCompletion_failedWith .seq s.cmd s⟩
    rw [exec_eq_finish, body, requires, if_neg (by simp [hv]), finish]
  · refine ⟨_, ?_, errorCompletion_failedWith .nodeRange (idx.setWidth 64) s⟩
    rw [exec_eq_finish, body, requires, if_pos hv, readNode, if_pos hle, finish]

end Sys2Proof.Laws
end

section
/-! SUPPORT. The walk of `CT_DERIVE` over any node store (42 R110, R114): it writes for a symbol a path to a leaf of that
symbol, whenever a path short enough exists. -/

namespace Sys2Proof.Laws

open Sys2Proof.Machine

variable {nodeAt : NodeIdx → Node} {n x : NodeIdx} {p q : Bits} {b : Bool} {sym : Byte}

/-! ## Paths -/

theorem follow_cons_of_internal (h : (nodeAt n).isLeaf = false) :
    follow nodeAt n (b :: p) = follow nodeAt ((nodeAt n).child b) p := by
  simp [follow, h, Node.child]

/-- A path ends at the first leaf it meets. -/
theorem follow_eq_some_of_leaf (h : (nodeAt n).isLeaf = true) : follow nodeAt n p = some x ↔ p = [] ∧ n = x := by
  cases p <;> simp [follow, h]

theorem follow_append (nodeAt : NodeIdx → Node) (n : NodeIdx) (p q : Bits) :
    follow nodeAt n (p ++ q) = (follow nodeAt n p).bind (fun x => follow nodeAt x q) := by
  induction p generalizing n with
  | nil => rfl
  | cons b p ih =>
    cases h : (nodeAt n).isLeaf with
    | true => simp [follow, h]
    | false => rw [List.cons_append, follow_cons_of_internal h, follow_cons_of_internal h, ih]

/-! ## Paths to the leaf of a symbol -/

/-- From `n` the path `p` leads to a leaf of the symbol `sym` that is not the placeholder. -/
def LeadsTo (nodeAt : NodeIdx → Node) (n : NodeIdx) (p : Bits) (sym : Byte) : Prop :=
  ∃ x, follow nodeAt n p = some x ∧ (nodeAt x).isLeaf = true ∧ (nodeAt x).ph = false ∧ (nodeAt x).sym = sym

theorem leadsTo_of_leaf (h : (nodeAt n).isLeaf = true) :
    LeadsTo nodeAt n p sym ↔ p = [] ∧ (nodeAt n).ph = false ∧ (nodeAt n).sym = sym := by
  simp only [LeadsTo, follow_eq_some_of_leaf h]
  constructor
  · rintro ⟨_, ⟨rfl, rfl⟩, -, hph, hsym⟩
    exact ⟨rfl, hph, hsym⟩
  · rintro ⟨rfl, hph, hsym⟩
    exact ⟨n, ⟨rfl, rfl⟩, h, hph, hsym⟩

theorem not_leadsTo_nil_of_internal (h : (nodeAt n).isLeaf = false) : ¬ LeadsTo nodeAt n [] sym := by
  simp [LeadsTo, follow, h]

theorem leadsTo_cons_of_internal (h : (nodeAt n).isLeaf = false) :
    LeadsTo nodeAt n (b :: p) sym ↔ LeadsTo nodeAt ((nodeAt n).child b) p sym := by
  rw [LeadsTo, LeadsTo, follow_cons_of_internal h]

/-- Nothing follows a leaf, so that no path to a leaf begins a path to another (42 R116). -/
theorem LeadsTo.sym_eq_of_isPrefix {a c : Byte} (ha : LeadsTo nodeAt n p a) (hc : LeadsTo nodeAt n q c) (h : p <+: q) :
    a = c := by
  obtain ⟨rest, rfl⟩ := h
  obtain ⟨x, hx, hleaf, -, rfl⟩ := ha
  obtain ⟨y, hy, -, -, rfl⟩ := hc
  rw [follow_append, hx, Option.bind_some, follow_eq_some_of_leaf hleaf] at hy
  rw [hy.2]

/-! ## The walk -/

/-- What a walk from `n` with the path `p` so far and this fuel makes of the entry of `sym`, from `old` to `new`: it
writes a path to a leaf of `sym`, or there is none within the fuel and the entry stays. -/
def WalkWrites (nodeAt : NodeIdx → Node) (fuel : Nat) (n : NodeIdx) (p : Bits) (sym : Byte) (old new : Bits) : Prop :=
  (∃ q, LeadsTo nodeAt n q sym ∧ new = p ++ q) ∨
    ((∀ q, q.length < fuel → ¬ LeadsTo nodeAt n q sym) ∧ new = old)

theorem WalkWrites.leaf (h : (nodeAt n).isLeaf = true) (fuel : Nat) (t : Table Bits) :
    WalkWrites nodeAt fuel n p sym (Table.get t sym)
      (Table.get (if (nodeAt n).ph then t else Table.put t (nodeAt n).sym p) sym) := by
  cases hph : (nodeAt n).ph with
  | true => exact .inr ⟨fun q _ hq => by simp [leadsTo_of_leaf h, hph] at hq, rfl⟩
  | false =>
    by_cases hsym : sym = (nodeAt n).sym
    · subst hsym
      exact .inl ⟨[], (leadsTo_of_leaf h).2 ⟨rfl, hph, rfl⟩, by simp⟩
    · refine .inr ⟨fun q _ hq => hsym ((leadsTo_of_leaf h).1 hq).2.2.symm, ?_⟩
      simp [get_put_other _ _ hsym]

/-- The walk of the left subtree, then of the right one, is a walk of the tree. -/
theorem WalkWrites.internal (h : (nodeAt n).isLeaf = false) {fuel : Nat} {old mid new : Bits}
    (hleft : WalkWrites nodeAt fuel (nodeAt n).left (p ++ [false]) sym old mid)
    (hright : WalkWrites nodeAt fuel (nodeAt n).right (p ++ [true]) sym mid new) :
    WalkWrites nodeAt (fuel + 1) n p sym old new := by
  rcases hright with ⟨q, hq, rfl⟩ | ⟨hnoRight, rfl⟩
  · exact .inl ⟨true :: q, (leadsTo_cons_of_internal h).2 hq, by simp⟩
  · rcases hleft with ⟨q, hq, rfl⟩ | ⟨hnoLeft, rfl⟩
    · exact .inl ⟨false :: q, (leadsTo_cons_of_internal h).2 hq, by simp⟩
    · refine .inr ⟨fun q hlen hq => ?_, rfl⟩
      match q with
      | [] => exact not_leadsTo_nil_of_internal h hq
      | true :: q => exact hnoRight q (by simpa using hlen) ((leadsTo_cons_of_internal h).1 hq)
      | false :: q => exact hnoLeft q (by simpa using hlen) ((leadsTo_cons_of_internal h).1 hq)

theorem walk_writes (nodeAt : NodeIdx → Node) (fuel : Nat) (n : NodeIdx) (p : Bits) (t : Table Bits) (sym : Byte) :
    WalkWrites nodeAt fuel n p sym (Table.get t sym) (Table.get (walk nodeAt fuel n p t) sym) := by
  induction fuel generalizing n p t with
  | zero => exact .inr ⟨fun q hlen => absurd hlen (Nat.not_lt_zero _), rfl⟩
  | succ fuel ih =>
    cases h : (nodeAt n).isLeaf with
    | true =>
      rw [walk, if_pos h]
      exact .leaf h (fuel + 1) t
    | false =>
      rw [walk, if_neg (by simp [h])]
      exact .internal h (ih _ _ t) (ih _ _ _)

/-- A symbol's derived code leads to a leaf of the symbol, or is absent because no path of at most 255 bits does. -/
theorem derivedCodes_cases {s : State} (he : s.status.treeEmpty = false) (sym : Byte) :
    LeadsTo s.nodeAt s.regs.root (Table.get s.derivedCodes sym) sym ∨
      (∀ q, q.length < 256 → ¬ LeadsTo s.nodeAt s.regs.root q sym) ∧ Table.get s.derivedCodes sym = [] := by
  rw [State.derivedCodes, if_neg (by simp [he])]
  rcases walk_writes s.nodeAt 256 s.regs.root [] (Vector.replicate 256 []) sym with ⟨q, hq, h⟩ | ⟨hno, h⟩
  · exact .inl (by rwa [h])
  · exact .inr ⟨hno, by simpa using h⟩

theorem derivedCodes_of_empty {s : State} (he : s.status.treeEmpty = true) (sym : Byte) :
    Table.get s.derivedCodes sym = [] := by
  rw [State.derivedCodes, if_pos he, get_replicate]

theorem leadsTo_derivedCodes {s : State} {sym : Byte} (h : Table.get s.derivedCodes sym ≠ []) :
    LeadsTo s.nodeAt s.regs.root (Table.get s.derivedCodes sym) sym := by
  have he : s.status.treeEmpty = false := Bool.eq_false_iff.2 fun he => h (derivedCodes_of_empty he sym)
  exact (derivedCodes_cases he sym).resolve_right fun hno => h hno.2

end Sys2Proof.Laws
end

section
/-! PROOFS. The codes of a built tree (42 R110 to R113, R116): every record is reached from the root, a path has at most
as many bits as there are internal records, and each counted symbol has its own leaf. -/

namespace Sys2Proof.Laws

open Sys2Proof.Machine

/-! ## The records in use -/

theorem nodeAt_of_getElem? {s : State} {i : NodeIdx} {r : Node} (h : s.node[i.toNat]? = some r) : s.nodeAt i = r := by
  simp only [State.nodeAt, h]

theorem getElem?_nodeAt {s : State} {i : NodeIdx} (h : i.toNat < s.node.length) :
    s.node[i.toNat]? = some (s.nodeAt i) := by
  have hget := List.getElem?_eq_getElem h
  rw [hget, nodeAt_of_getElem? hget]

/-! ## The real leaves of the builder -/

/-- The leaves that are not the placeholder. -/
def realLeaves (node : List Node) : List Node := node.filter (fun n => n.isLeaf && !n.ph)

theorem mem_realLeaves {node : List Node} {n : Node} :
    n ∈ realLeaves node ↔ n ∈ node ∧ n.isLeaf = true ∧ n.ph = false := by
  simp [realLeaves]

theorem mem_distinctLeaves {f : Table Word} {n : Node} :
    n ∈ distinctLeaves f ↔ ∃ x, Table.get f x ≠ 0 ∧ leafNode x (Table.get f x) = n := by
  simp [distinctLeaves, mem_allSyms]

/-- The leaves that start the reduction stay the only ones. -/
theorem Reducing.realLeaves_eq {f : Table Word} {b : Build} (h : Reducing f b) :
    realLeaves b.node = distinctLeaves f := by
  have hfirst : realLeaves (b.node.take (distinctCount f)) = distinctLeaves f := by
    rw [h.leavesFirst]
    exact List.filter_eq_self.2 fun n hn => by simp [isLeaf_of_mem_distinctLeaves hn]
  have hrest : realLeaves (b.node.drop (distinctCount f)) = [] := by
    refine List.filter_eq_nil_iff.2 fun n hn hleaf => ?_
    obtain ⟨k, hk, rfl⟩ := List.mem_drop_iff_getElem.1 hn
    have hlt := (h.leaves _ _ (List.getElem?_eq_getElem (by omega))).1 (Bool.and_eq_true_iff.1 hleaf).1
    omega
  rw [← List.take_append_drop (distinctCount f) b.node, realLeaves, List.filter_append]
  exact (congrArg₂ _ hfirst hrest).trans (List.append_nil _)

/-- The state holds a tree of the shape of R33 for its own frequency table, with `m` leaves. -/
structure HoldsTree (m : Nat) (s : State) : Prop extends TreeShape m s.node where
  root : s.regs.root.toNat = 2 * m - 2
  symbols : m = max 2 (distinctCount s.freq)
  real : realLeaves s.node = distinctLeaves s.freq

/-- A valid, non-empty tree is the builder's, of one symbol or of more (10 R17, 41 R97, R102). -/
theorem holdsTree_of_flagsOk {s : State} (h : s.FlagsOk) (hvalid : s.status.treeValid = true)
    (hempty : s.status.treeEmpty = false) : ∃ m, HoldsTree m s := by
  have hbuild := h.tree hvalid
  rw [hempty] at hbuild
  rcases buildTree_ok hbuild with ⟨-, ht⟩ | ⟨leaf, hl, ht⟩ | ⟨hk, -⟩
  · simp at ht
  · obtain ⟨hnode, hroot, -⟩ := Tree.mk.injEq .. ▸ ht
    obtain ⟨x, -, rfl⟩ := mem_distinctLeaves.1 (hl ▸ List.mem_singleton_self leaf)
    have hshape := singleTree_treeShape s.params.phSym x (Table.get s.freq x)
    exact ⟨2,
      { (hnode ▸ hshape : TreeShape 2 s.node) with
        root := by rw [hroot]; rfl
        symbols := by rw [← distinctLeaves_length, hl]; rfl
        real := by rw [hnode, hl]; rfl }⟩
  · rcases reduction_cases hk with ⟨c, r, hc, hred, hshape, hr, hroot⟩ | ⟨_, _, _, _, -, -, -, hall⟩
    · rw [buildTree_of_two_le _ hk, hc, Except.map, popRoot_of_singleton hr, Except.ok.injEq, Tree.mk.injEq] at hbuild
      obtain ⟨hnode, rfl, -⟩ := hbuild
      exact ⟨distinctCount s.freq,
        { (hnode ▸ hshape : TreeShape _ s.node) with
          root := hroot
          symbols := (max_eq_right hk).symm
          real := hnode ▸ hred.realLeaves_eq }⟩
    · rw [buildTree_of_two_le _ hk, hall] at hbuild
      cases hbuild

namespace HoldsTree

variable {m : Nat} {s : State} (h : HoldsTree m s)
include h

theorem isLeaf_false_iff {i : NodeIdx} (hi : i.toNat < s.node.length) :
    (s.nodeAt i).isLeaf = false ↔ m ≤ i.toNat := by
  rw [← Bool.not_eq_true, h.leaves _ _ (getElem?_nodeAt hi), Nat.not_lt]

/-- A child stands before its parent. -/
theorem child_lt {i : NodeIdx} (hi : i.toNat < s.node.length) (hint : (s.nodeAt i).isLeaf = false) (b : Bool) :
    ((s.nodeAt i).child b).toNat < i.toNat := by
  obtain ⟨-, hleft, hright, -⟩ := h.children _ _ (getElem?_nodeAt hi) hint
  cases b
  · exact hleft
  · exact hright

/-! ## Every record is reached -/

/-- A record that is not the last is a child of an internal record. -/
theorem exists_parent {i : NodeIdx} (hi : i.toNat < 2 * m - 2) :
    ∃ (j : NodeIdx) (b : Bool), j.toNat < s.node.length ∧ (s.nodeAt j).isLeaf = false ∧ (s.nodeAt j).child b = i := by
  obtain ⟨r, hr, hchild⟩ := List.mem_flatMap.1 (h.parents.mem_iff.2 (List.mem_range.2 hi))
  obtain ⟨k, hk, rfl⟩ := List.mem_drop_iff_getElem.1 hr
  have hsize := h.size
  have hbound := h.bound
  have hj : (BitVec.ofNat 9 (m + k)).toNat = m + k := toNat_ofNat_nodeIdx (by omega)
  have hlt : (BitVec.ofNat 9 (m + k)).toNat < s.node.length := by omega
  have hat : s.nodeAt (BitVec.ofNat 9 (m + k)) = s.node[m + k] :=
    nodeAt_of_getElem? (by rw [hj]; exact List.getElem?_eq_getElem _)
  obtain ⟨b, hb⟩ : ∃ b, (s.node[m + k].child b).toNat = i.toNat := by
    rcases List.mem_pair.1 hchild with hleft | hright
    · exact ⟨false, hleft.symm⟩
    · exact ⟨true, hright.symm⟩
  exact ⟨_, b, hlt, (h.isLeaf_false_iff hlt).2 (by omega), hat ▸ BitVec.eq_of_toNat_eq hb⟩

/-- From the root every record is reached, by the path to its parent and one more bit. -/
theorem exists_path {i : NodeIdx} (hi : i.toNat < s.node.length) : ∃ p, follow s.nodeAt s.regs.root p = some i := by
  have hsize := h.size
  by_cases hlast : i.toNat = 2 * m - 2
  · exact ⟨[], congrArg some (BitVec.eq_of_toNat_eq (h.root.trans hlast.symm))⟩
  · obtain ⟨j, b, hj, hint, rfl⟩ := h.exists_parent (i := i) (by omega)
    have hdecreases := h.child_lt hj hint b
    obtain ⟨p, hp⟩ := exists_path hj
    refine ⟨p ++ [b], ?_⟩
    rw [follow_append, hp, Option.bind_some, follow_cons_of_internal hint, follow]
  termination_by s.node.length - i.toNat

/-! ## Paths are short and stay among the records in use -/

/-- A path passes internal records only, each before the one it came from. -/
theorem path_le {p : Bits} {i x : NodeIdx} (hi : i.toNat < s.node.length) (hp : follow s.nodeAt i p = some x) :
    p.length + m ≤ max m (i.toNat + 1) ∧ x.toNat < s.node.length := by
  induction p generalizing i with
  | nil =>
    obtain rfl := Option.some.inj hp
    exact ⟨by simp, hi⟩
  | cons b p ih =>
    cases hleaf : (s.nodeAt i).isLeaf with
    | true => simp [follow_eq_some_of_leaf hleaf] at hp
    | false =>
      rw [follow_cons_of_internal hleaf] at hp
      have hm := (h.isLeaf_false_iff hi).1 hleaf
      have hlt := h.child_lt hi hleaf b
      obtain ⟨hlen, hx⟩ := ih (hlt.trans hi) hp
      rw [List.length_cons]
      exact ⟨by omega, hx⟩

theorem root_lt : s.regs.root.toNat < s.node.length := by
  have := h.root
  have := h.size
  have := h.two
  omega

theorem root_internal : (s.nodeAt s.regs.root).isLeaf = false := by
  have := h.root
  have := h.two
  exact (h.isLeaf_false_iff h.root_lt).2 (by omega)

/-- From the root a path has at most as many bits as there are internal records (42 R113). -/
theorem rootPath_le {p : Bits} {x : NodeIdx} (hp : follow s.nodeAt s.regs.root p = some x) : p.length ≤ m - 1 := by
  obtain ⟨hlen, -⟩ := h.path_le h.root_lt hp
  have := h.root
  have := h.two
  omega

/-! ## One real leaf for each counted symbol -/

/-- Two real leaves of one symbol are the same record. -/
theorem realLeaf_unique {i j : NodeIdx} {r q : Node} (hi : s.node[i.toNat]? = some r) (hj : s.node[j.toNat]? = some q)
    (hr : r.isLeaf = true ∧ r.ph = false) (hq : q.isLeaf = true ∧ q.ph = false) (hsym : r.sym = q.sym) : i = j := by
  have hpair := List.pairwise_iff_getElem.1 (List.pairwise_filter.1 (List.pairwise_map.1 h.distinct))
  obtain ⟨hilt, rfl⟩ := List.getElem?_eq_some_iff.1 hi
  obtain ⟨hjlt, rfl⟩ := List.getElem?_eq_some_iff.1 hj
  rcases lt_trichotomy i.toNat j.toNat with hlt | heq | hgt
  · exact absurd hsym (hpair _ _ hilt hjlt hlt (by simp [hr]) (by simp [hq]))
  · exact BitVec.eq_of_toNat_eq heq
  · exact absurd hsym.symm (hpair _ _ hjlt hilt hgt (by simp [hq]) (by simp [hr]))

theorem realLeaf_of_counted {sym : Byte} (hsym : s.freqOf sym ≠ 0) :
    ∃ i : NodeIdx, s.node[i.toNat]? = some (leafNode sym (s.freqOf sym)) := by
  have hmem : leafNode sym (s.freqOf sym) ∈ realLeaves s.node := h.real ▸ mem_distinctLeaves.2 ⟨sym, hsym, rfl⟩
  obtain ⟨k, hk, hget⟩ := List.mem_iff_getElem.1 (mem_realLeaves.1 hmem).1
  have hsize := h.size
  have hbound := h.bound
  refine ⟨BitVec.ofNat 9 k, ?_⟩
  rw [toNat_ofNat_nodeIdx (by omega), List.getElem?_eq_getElem hk, hget]

theorem counted_of_realLeaf {r : Node} (hmem : r ∈ s.node) (hleaf : r.isLeaf = true) (hph : r.ph = false) :
    s.freqOf r.sym ≠ 0 := by
  have hreal : r ∈ realLeaves s.node := mem_realLeaves.2 ⟨hmem, hleaf, hph⟩
  obtain ⟨x, hx, rfl⟩ := mem_distinctLeaves.1 (h.real ▸ hreal)
  exact hx

/-! ## The derived codes -/

/-- The derived code of a real leaf's symbol leads from the root to that leaf (42 R110). -/
theorem follow_derivedCodes (hempty : s.status.treeEmpty = false) {i : NodeIdx} {r : Node}
    (hi : s.node[i.toNat]? = some r) (hleaf : r.isLeaf = true) (hph : r.ph = false) :
    follow s.nodeAt s.regs.root (Table.get s.derivedCodes r.sym) = some i := by
  have hat := nodeAt_of_getElem? hi
  obtain ⟨p, hp⟩ := h.exists_path (List.getElem?_eq_some_iff.1 hi).1
  have hshort : p.length < 256 := by
    have := h.rootPath_le hp
    have := h.bound
    have := h.two
    omega
  have hlead : LeadsTo s.nodeAt s.regs.root p r.sym := ⟨i, hp, by simp [hat, hleaf, hph]⟩
  obtain ⟨x, hx, hxleaf, hxph, hxsym⟩ := (derivedCodes_cases hempty r.sym).resolve_right fun hno =>
    hno.1 p hshort hlead
  have hxget := getElem?_nodeAt (h.path_le h.root_lt hx).2
  rw [hx, h.realLeaf_unique hxget hi ⟨hxleaf, hxph⟩ ⟨hleaf, hph⟩ hxsym]

/-- Exactly the counted symbols have a code (42 R111). -/
theorem derivedCodes_ne_nil_iff (hempty : s.status.treeEmpty = false) (sym : Byte) :
    Table.get s.derivedCodes sym ≠ [] ↔ s.freqOf sym ≠ 0 := by
  constructor
  · intro hne
    obtain ⟨x, hx, hleaf, hph, rfl⟩ := leadsTo_derivedCodes hne
    exact h.counted_of_realLeaf (List.mem_of_getElem? (getElem?_nodeAt (h.path_le h.root_lt hx).2)) hleaf hph
  · intro hsym hnil
    obtain ⟨i, hi⟩ := h.realLeaf_of_counted hsym
    have hpath := h.follow_derivedCodes hempty hi rfl rfl
    exact not_leadsTo_nil_of_internal (sym := sym) h.root_internal
      ⟨i, hnil ▸ hpath, by simp [nodeAt_of_getElem? hi, leafNode]⟩

/-- A code has at most `max 1 (k - 1)` bits for `k` counted symbols (42 R113). -/
theorem derivedCodes_length_le {sym : Byte} (hne : Table.get s.derivedCodes sym ≠ []) :
    (Table.get s.derivedCodes sym).length ≤ max 1 (distinctCount s.freq - 1) := by
  obtain ⟨x, hx, -⟩ := leadsTo_derivedCodes hne
  have := h.rootPath_le hx
  have := h.symbols
  omega

end HoldsTree

/-! ## The command -/

/-- A command whose flag is 0 raises `E_SEQ` (00 R9). -/
theorem finish_requires_of_false {flag : Bool} (h : flag = false) (body : State → Except Raise State) (s : State) :
    ∃ t, finish s (requires flag body s) = .next t ∧ FailedWith .seq s.cmd s t :=
  ⟨_, by rw [h, requires, if_neg Bool.false_ne_true, finish], errorCompletion_failedWith .seq s.cmd s⟩

/-- What `CT_DERIVE` completes with (42 R112, R114). -/
def derived (s : State) : State :=
  complete { s with code := s.derivedCodes, status := { s.status with codesValid := true } }

@[simp] theorem codeOf_derived (s : State) (sym : Byte) : (derived s).codeOf sym = Table.get s.derivedCodes sym := rfl

theorem exec_ctDerive_of_valid {s : State} (h : s.status.treeValid = true) : exec .ctDerive s = .next (derived s) := by
  rw [exec_eq_finish, body, requires, if_pos h, deriveCodes, finish, derived]

/-- Settles O34: the command completes with the derived codes, or raises. -/
theorem ctDeriveWritesTheCodeTable : Obligations.CtDeriveWritesTheCodeTable := by
  refine fun s => ⟨fun hvalid => ⟨_, exec_ctDerive_of_valid hvalid, fun hempty sym => ?_, rfl⟩, fun hinvalid => ?_⟩
  · have hnil : (derived s).codeOf sym = [] := derivedCodes_of_empty hempty sym
    exact ⟨hnil, by rw [State.clenOf, hnil]; rfl⟩
  · exact finish_requires_of_false hinvalid deriveCodes s

/-- Settles O35: the walk finds the path to each real leaf, and the real leaves are those of the counted symbols. -/
theorem codesAreRootToLeafPaths : Obligations.CodesAreRootToLeafPaths := by
  intro s hs hvalid hempty
  obtain ⟨m, h⟩ := holdsTree_of_flagsOk hs hvalid hempty
  exact ⟨_, exec_ctDerive_of_valid hvalid, fun _ _ hi hleaf hph => h.follow_derivedCodes hempty hi hleaf hph,
    h.derivedCodes_ne_nil_iff hempty⟩

/-- Settles O36: a code is a path from the root, which is no leaf, through internal records. -/
theorem codeLengthsAreBounded : Obligations.CodeLengthsAreBounded := by
  intro s hs hvalid hempty
  obtain ⟨m, h⟩ := holdsTree_of_flagsOk hs hvalid hempty
  refine ⟨_, exec_ctDerive_of_valid hvalid, fun sym hsym => ?_⟩
  have hne := (h.derivedCodes_ne_nil_iff hempty sym).2 hsym
  exact ⟨List.length_pos_iff.2 hne, h.derivedCodes_length_le hne, derivedCodes_codesShort s sym⟩

/-- Settles O37: both codes lead to leaves, and nothing follows a leaf. -/
theorem codesArePrefixFree : Obligations.CodesArePrefixFree := by
  intro s t _ hvalid ht a b hab ha hb hinit
  obtain rfl : derived s = t := by simpa [exec_ctDerive_of_valid hvalid] using ht
  exact hab ((leadsTo_derivedCodes ha).sym_eq_of_isPrefix (leadsTo_derivedCodes hb) hinit)

end Sys2Proof.Laws
end

section
/-! PROOFS. The code read-out (42 R115): the code's value is the sum of its weighted bits, and four words hold it. -/

namespace Sys2Proof.Laws

open Sys2Proof.Machine

/-- The sum of the bits of a code, the first bit most significant (10 R27). -/
def weightedBits (c : Bits) : Nat :=
  ((List.range c.length).map (fun i => (c.getD i false).toNat * 2 ^ (c.length - 1 - i))).sum

theorem weightedBits_cons (b : Bool) (c : Bits) : weightedBits (b :: c) = b.toNat * 2 ^ c.length + weightedBits c := by
  simp only [weightedBits, List.length_cons, List.range_succ_eq_map, List.map_cons, List.map_map, List.sum_cons]
  congr 1
  refine congrArg List.sum (List.map_congr_left fun i _ => ?_)
  simp [Nat.sub_sub, Nat.add_comm]

theorem weightedBits_lt (c : Bits) : weightedBits c < 2 ^ c.length := by
  induction c with
  | nil => simp [weightedBits]
  | cons b c ih =>
    rw [weightedBits_cons, List.length_cons, Nat.pow_succ]
    cases b <;> simp <;> omega

theorem foldl_codeValue (c : Bits) (v : Nat) :
    c.foldl (fun v b => 2 * v + b.toNat) v = v * 2 ^ c.length + weightedBits c := by
  induction c generalizing v with
  | nil => simp [weightedBits]
  | cons b c ih =>
    rw [List.foldl_cons, ih, weightedBits_cons, List.length_cons]
    ring

theorem codeValue_eq (c : Bits) : codeValue c = weightedBits c := by
  simpa [codeValue] using foldl_codeValue c 0

/-- Four words of 64 bits hold a value of 256 bits. -/
theorem sum_extractLsb'_words (v : BitVec 256) :
    (v.extractLsb' 0 64).toNat + 2 ^ 64 * (v.extractLsb' 64 64).toNat + 2 ^ 128 * (v.extractLsb' 128 64).toNat +
      2 ^ 192 * (v.extractLsb' 192 64).toNat = v.toNat := by
  have := v.isLt
  simp only [BitVec.extractLsb'_toNat, Nat.shiftRight_eq_div_pow]
  omega

theorem toNat_codeWord {c : Bits} (h : c.length ≤ 255) : (BitVec.ofNat 256 (codeValue c)).toNat = weightedBits c := by
  have hlt : weightedBits c < 2 ^ 256 := (weightedBits_lt c).trans (Nat.pow_lt_pow_right (by omega) (by omega))
  rw [codeValue_eq, BitVec.toNat_ofNat, Nat.mod_eq_of_lt hlt]

/-- Settles O38: the word decodes by its fields, and the value of a code of at most 255 bits fits the four words. -/
theorem ctReadWritesLengthAndValue : Obligations.CtReadWritesLengthAndValue := by
  refine ⟨fun sym => decode_symWord (i := .ctRead sym) rfl, fun s sym => ⟨fun hvalid hlen => ?_, fun hinvalid => ?_⟩⟩
  · have hexec : exec (.ctRead sym) s = finish s (readCode sym s) := by
      rw [exec_eq_finish, body, requires, if_pos hvalid]
    refine ⟨_, hexec, ?_, ?_, rfl⟩
    · exact (BitVec.toNat_ofNat ..).trans (Nat.mod_eq_of_lt (by omega))
    · exact (sum_extractLsb'_words _).trans (toNat_codeWord hlen)
  · exact finish_requires_of_false hinvalid (readCode sym) s

end Sys2Proof.Laws
end

section
/-! SUPPORT. The bit writer (43 R121 to R126): what one bit, a run of bits and the flush do to the bytes it holds, and
when they raise. -/

namespace Sys2Proof.Laws

open Sys2Proof.Machine

/-! ## Completions -/

theorem exec_of_ok {i : Instr} {s t : State} (h : body i s = .ok t) : exec i s = .next (complete t) := by
  rw [exec_eq_finish, h, finish]

theorem exec_of_error {i : Instr} {s : State} {c : ErrCode} {info : Word}
    (h : body i s = .error { code := c, info := info }) : ∃ t, exec i s = .next t ∧ FailedWith c info s t :=
  ⟨_, by rw [exec_eq_finish, h, finish], errorCompletion_failedWith c info s⟩

/-! ## Positions and bits -/

theorem and_seven_eq_zero_iff (n : Word) : n &&& 7 = 0 ↔ n.toNat % 8 = 0 := by
  rw [← BitVec.toNat_inj, and_seven_toNat]
  rfl

theorem and_seven_eq_seven_iff (n : Word) : n &&& 7 = 7 ↔ n.toNat % 8 = 7 := by
  rw [← BitVec.toNat_inj, and_seven_toNat]
  rfl

theorem toNat_ceil8 (n : Word) : (ceil8 n).toNat = (n.toNat + 7) / 8 := by
  have hn := n.isLt
  have hcarry : (if n &&& 7 = 0 then (0 : Word) else 1).toNat = if n.toNat % 8 = 0 then 0 else 1 := by
    simp only [and_seven_eq_zero_iff, apply_ite BitVec.toNat]
    rfl
  rw [ceil8, BitVec.toNat_add, shiftRight_three_toNat, hcarry]
  split_ifs <;> omega

/-- The first bit of a byte is its most significant one (20 R46). -/
theorem streamBit_eq (byteAt : Nat → Byte) (p : Nat) : streamBit byteAt p = (byteAt (p / 8)).getLsbD (7 - p % 8) := by
  rw [streamBit, BitVec.getMsbD, decide_eq_true (Nat.mod_lt p (by omega)), Bool.true_and]

/-- The bits of the accumulator after a bit is put at position `7 - j` (43 R122). -/
theorem accWith_getLsbD (acc : Byte) (j : Word) (b : Bool) {k : Nat} (hk : k < 8) :
    (accWith acc j b).getLsbD k = ((k == 7 - j.toNat && b) || (j != 0 && acc.getLsbD k)) := by
  have hput : ((BitVec.ofBool b).setWidth 8 <<< (7 - j.toNat)).getLsbD k = (k == 7 - j.toNat && b) := by
    rw [BitVec.getLsbD_shiftLeft, BitVec.getLsbD_setWidth, BitVec.getLsbD_ofBool]
    rcases Nat.lt_trichotomy k (7 - j.toNat) with h | h | h
    · simp [h, h.ne]
    · simp [h, h ▸ hk]
    · simp [show k - (7 - j.toNat) ≠ 0 by omega, h.ne']
  rw [accWith, BitVec.getLsbD_or, hput, Bool.or_comm]
  by_cases hj : j = 0
  · simp [hj]
  · rw [if_neg hj, bne_iff_ne.2 hj, Bool.true_and]

/-! ## The bytes the writer holds -/

/-- The byte at `a` of the bit sequence the writer holds: a stored one, or the accumulator (43 R121). -/
def heldByte (s : State) (a : Nat) : Byte :=
  if a < s.regs.bwBits.toNat / 8 then s.obuf.read .obuf a else s.bwAcc

theorem writtenBits_eq (s : State) : s.writtenBits = (List.range s.regs.bwBits.toNat).map (streamBit (heldByte s)) := rfl

/-- A writer that `bw_put` may go on with, while there is room. -/
structure WriterReady (s : State) : Prop where
  params : s.params.wf = true
  writer : s.WriterOk
  notFlushed : s.status.bwFlushed = false

/-! ## One bit -/

/-- The state after `bw_put` of `b`, when it does not raise (43 R122). -/
def bitPut (b : Bool) (s : State) : State :=
  { s with
    bwAcc := accWith s.bwAcc (s.regs.bwBits &&& 7) b
    regs := { s.regs with bwBits := s.regs.bwBits + 1 }
    obuf := if s.regs.bwBits &&& 7 = 7 then
        s.obuf.write (s.regs.bwBits >>> 3).toNat (accWith s.bwAcc (s.regs.bwBits &&& 7) b)
      else s.obuf }

theorem bwPut_of_flushed {s : State} (h : s.status.bwFlushed = true) (b : Bool) :
    bwPut b s = .error { code := .seq, info := s.cmd } :=
  if_pos h

/-- A bit that would start a byte beyond `OBUF` is refused. -/
theorem bwPut_of_full {s : State} (hf : s.status.bwFlushed = false) (hj : s.regs.bwBits.toNat % 8 = 0)
    (hcap : s.params.obufCap ≤ s.regs.bwBits.toNat / 8) (b : Bool) :
    bwPut b s = .error { code := .obufFull, info := s.regs.bwBits >>> 3 } := by
  rw [← shiftRight_three_toNat] at hcap
  simp only [bwPut]
  rw [if_neg (by simp [hf]), if_pos ⟨(and_seven_eq_zero_iff _).2 hj, hcap⟩]

theorem bwPut_of_room {s : State} (hf : s.status.bwFlushed = false)
    (hroom : s.regs.bwBits.toNat < 8 * s.params.obufCap) (b : Bool) : bwPut b s = .ok (bitPut b s) := by
  cases h : bwPut b s with
  | ok t => rw [(bwPut_ok h).2, bitPut]
  | error r =>
    rcases bwPut_error h with ⟨hflushed, -⟩ | ⟨-, hcap, -⟩
    · simp [hf] at hflushed
    · rw [shiftRight_three_toNat] at hcap
      omega

theorem bitPut_bwAcc_getLsbD (b : Bool) (s : State) {k : Nat} (hk : k < 8) :
    (bitPut b s).bwAcc.getLsbD k =
      ((k == 7 - s.regs.bwBits.toNat % 8 && b) || (s.regs.bwBits.toNat % 8 != 0 && s.bwAcc.getLsbD k)) := by
  have hj : (s.regs.bwBits &&& 7 != 0) = (s.regs.bwBits.toNat % 8 != 0) := by
    rw [Bool.eq_iff_iff, bne_iff_ne, bne_iff_ne, Ne, and_seven_eq_zero_iff]
  rw [bitPut, accWith_getLsbD _ _ _ hk, hj, and_seven_toNat]

/-- A byte is stored exactly when it is full. -/
theorem read_obuf_bitPut (b : Bool) (s : State) (a : Nat) :
    (bitPut b s).obuf.read .obuf a =
      if s.regs.bwBits.toNat % 8 = 7 ∧ a = s.regs.bwBits.toNat / 8 then (bitPut b s).bwAcc
      else s.obuf.read .obuf a := by
  have hobuf : (bitPut b s).obuf = if s.regs.bwBits.toNat % 8 = 7 then
      s.obuf.write (s.regs.bwBits.toNat / 8) (bitPut b s).bwAcc else s.obuf := by
    simp only [bitPut, and_seven_eq_seven_iff, shiftRight_three_toNat]
  rw [hobuf]
  by_cases hj : s.regs.bwBits.toNat % 8 = 7
  · simp only [hj, if_true, true_and, read_write]
  · simp only [hj, if_false, false_and]

section

variable {s : State} (hp : s.params.wf = true) (hroom : s.regs.bwBits.toNat < 8 * s.params.obufCap) (b : Bool)

include hp hroom

theorem toNat_bwBits_bitPut : (bitPut b s).regs.bwBits.toNat = s.regs.bwBits.toNat + 1 := by
  have hcap := obufCap_lt hp
  exact BitVec.toNat_add_of_lt (by simp; omega)

/-- Up to the byte in progress, the writer holds the bytes stored before and the accumulator. -/
theorem heldByte_bitPut {a : Nat} (ha : a ≤ s.regs.bwBits.toNat / 8) :
    heldByte (bitPut b s) a =
      if a < s.regs.bwBits.toNat / 8 then s.obuf.read .obuf a else (bitPut b s).bwAcc := by
  rw [heldByte, toNat_bwBits_bitPut hp hroom, read_obuf_bitPut]
  by_cases hlt : a < s.regs.bwBits.toNat / 8
  · rw [if_pos hlt, if_pos (by omega), if_neg (by omega)]
  · rw [if_neg hlt, ite_eq_right_iff]
    exact fun hnext => if_pos (by omega)

/-- The bits held before are not touched. -/
theorem streamBit_heldByte_bitPut {p : Nat} (hlt : p < s.regs.bwBits.toNat) :
    streamBit (heldByte (bitPut b s)) p = streamBit (heldByte s) p := by
  rw [streamBit_eq, streamBit_eq, heldByte_bitPut hp hroom b (by omega), heldByte]
  split_ifs with hstored
  · rfl
  · have hpos : (7 - p % 8 == 7 - s.regs.bwBits.toNat % 8) = false := beq_false_of_ne (by omega)
    have hj : (s.regs.bwBits.toNat % 8 != 0) = true := bne_iff_ne.2 (by omega)
    rw [bitPut_bwAcc_getLsbD b s (by omega), hpos, hj, Bool.false_and, Bool.false_or, Bool.true_and]

/-- The new bit meets a 0 in its place. -/
theorem streamBit_heldByte_bitPut_last (hok : s.WriterOk) :
    streamBit (heldByte (bitPut b s)) s.regs.bwBits.toNat = b := by
  have hpad : (s.regs.bwBits.toNat % 8 != 0 && s.bwAcc.getLsbD (7 - s.regs.bwBits.toNat % 8)) = false := by
    by_cases hj : s.regs.bwBits.toNat % 8 = 0
    · simp [hj]
    · simp [hok.2 (7 - s.regs.bwBits.toNat % 8) hj (by omega)]
  rw [streamBit_eq, heldByte_bitPut hp hroom b (le_refl _), if_neg (lt_irrefl _),
    bitPut_bwAcc_getLsbD b s (by omega), hpad, beq_self_eq_true, Bool.true_and, Bool.or_false]

theorem writtenBits_bitPut (hok : s.WriterOk) : (bitPut b s).writtenBits = s.writtenBits ++ [b] := by
  rw [writtenBits_eq, writtenBits_eq, toNat_bwBits_bitPut hp hroom, List.range_succ, List.map_append,
    List.map_singleton, streamBit_heldByte_bitPut_last hp hroom b hok]
  exact congrArg (· ++ [b]) (List.map_congr_left fun p hmem =>
    streamBit_heldByte_bitPut hp hroom b (List.mem_range.1 hmem))

end

/-! ## A run of bits -/

/-- The writer of `t` is that of `s` with `bits` appended: the bytes of `OBUF` outside those filled are unchanged. -/
structure Appended (s : State) (bits : Bits) (t : State) : Prop where
  params : t.params = s.params
  bwFlushed : t.status.bwFlushed = s.status.bwFlushed
  err : t.status.err = s.status.err
  count : t.regs.bwBits.toNat = s.regs.bwBits.toNat + bits.length
  held : t.writtenBits = s.writtenBits ++ bits
  writer : t.WriterOk
  kept : ∀ a, a < s.regs.bwBits.toNat / 8 ∨ t.regs.bwBits.toNat / 8 ≤ a → t.obuf.read .obuf a = s.obuf.read .obuf a

namespace Appended

variable {s t u : State} {bits more : Bits}

theorem refl (h : s.WriterOk) : Appended s [] s where
  params := rfl
  bwFlushed := rfl
  err := rfl
  count := rfl
  held := (List.append_nil _).symm
  writer := h
  kept _ _ := rfl

theorem trans (h1 : Appended s bits t) (h2 : Appended t more u) : Appended s (bits ++ more) u where
  params := h2.params.trans h1.params
  bwFlushed := h2.bwFlushed.trans h1.bwFlushed
  err := h2.err.trans h1.err
  count := by rw [h2.count, h1.count, List.length_append, Nat.add_assoc]
  held := by rw [h2.held, h1.held, List.append_assoc]
  writer := h2.writer
  kept a ha := by
    have hst := h1.count
    have htu := h2.count
    rw [h2.kept a (by omega), h1.kept a (by omega)]

/-- The handshake does not touch the writer. -/
theorem complete (h : Appended s bits t) : Appended s bits (complete t) := { h with }

theorem ready (h : Appended s bits t) (hs : WriterReady s) : WriterReady t where
  params := h.params ▸ hs.params
  writer := h.writer
  notFlushed := h.bwFlushed.trans hs.notFlushed

end Appended

theorem bitPut_appended {s : State} (hs : WriterReady s) (hroom : s.regs.bwBits.toNat < 8 * s.params.obufCap)
    (b : Bool) : Appended s [b] (bitPut b s) where
  params := rfl
  bwFlushed := rfl
  err := rfl
  count := toNat_bwBits_bitPut hs.params hroom b
  held := writtenBits_bitPut hs.params hroom b hs.writer
  writer := bwPut_writerOk hs.params hs.writer (bwPut_of_room hs.notFlushed hroom b)
  kept a ha := by
    rw [toNat_bwBits_bitPut hs.params hroom] at ha
    rw [read_obuf_bitPut, if_neg (by omega)]

/-- Bits that fit are appended. -/
theorem bwPutAll_of_fits {s : State} {bits : Bits} (hs : WriterReady s)
    (hfit : s.regs.bwBits.toNat + bits.length ≤ 8 * s.params.obufCap) :
    ∃ t, bwPutAll bits s = .ok t ∧ Appended s bits t ∧ WriterOnly s t := by
  suffices h : ∃ t, bwPutAll bits s = .ok t ∧ Appended s bits t by
    obtain ⟨t, hput, happ⟩ := h
    exact ⟨t, hput, happ, bwPutAll_invariant (WriterOnly s) (fun _ _ _ => bwPut_writerOnly) _ _ _ (.refl s) hput⟩
  induction bits generalizing s with
  | nil => exact ⟨s, rfl, .refl hs.writer⟩
  | cons b rest ih =>
    rw [List.length_cons] at hfit
    have hroom : s.regs.bwBits.toNat < 8 * s.params.obufCap := by omega
    have happ := bitPut_appended hs hroom b
    obtain ⟨t, hput, hrest⟩ := ih (happ.ready hs) (by rw [happ.count, happ.params, List.length_singleton]; omega)
    exact ⟨t, by rw [bwPutAll, bwPut_of_room hs.notFlushed hroom]; exact hput, happ.trans hrest⟩

/-- Bits that do not fit stop at the end of `OBUF`. -/
theorem bwPutAll_of_overflow {s : State} {bits : Bits} (hs : WriterReady s)
    (hover : 8 * s.params.obufCap < s.regs.bwBits.toNat + bits.length) :
    bwPutAll bits s = .error { code := .obufFull, info := BitVec.ofNat 64 s.params.obufCap } := by
  induction bits generalizing s with
  | nil => exact absurd hs.writer.1 (Nat.not_le.2 hover)
  | cons b rest ih =>
    rw [List.length_cons] at hover
    by_cases hroom : s.regs.bwBits.toNat < 8 * s.params.obufCap
    · have happ := bitPut_appended hs hroom b
      rw [bwPutAll, bwPut_of_room hs.notFlushed hroom]
      exact ih (happ.ready hs) (by rw [happ.count, happ.params, List.length_singleton]; omega)
    · have hfull := hs.writer.1
      have hbyte : s.regs.bwBits.toNat / 8 = s.params.obufCap := by omega
      have hinfo : s.regs.bwBits >>> 3 = BitVec.ofNat 64 s.params.obufCap := by
        rw [← hbyte, ← shiftRight_three_toNat, BitVec.ofNat_toNat, BitVec.setWidth_eq]
      rw [bwPutAll, bwPut_of_full hs.notFlushed (by omega) hbyte.ge, hinfo]

theorem bwPutAll_of_flushed {s : State} {bits : Bits} (h : s.status.bwFlushed = true) (hne : bits ≠ []) :
    bwPutAll bits s = .error { code := .seq, info := s.cmd } := by
  obtain ⟨b, rest, rfl⟩ := List.exists_cons_of_ne_nil hne
  rw [bwPutAll, bwPut_of_flushed h]

/-! ## The flush -/

/-- The state after `bw_flush`, when it does not raise (43 R126). -/
def flushed (s : State) : State :=
  forgetAboveOutLen { s with
    obuf := if s.regs.bwBits.toNat % 8 = 0 then s.obuf else s.obuf.write (s.regs.bwBits.toNat / 8) s.bwAcc
    regs := { s.regs with outLen := ceil8 s.regs.bwBits }
    status := { s.status with bwFlushed := true } }

theorem bwFlush_of_flushed {s : State} (h : s.status.bwFlushed = true) :
    bwFlush s = .error { code := .seq, info := s.cmd } :=
  if_pos h

theorem storePartial_of_writerOk {s : State} (h : s.WriterOk) : storePartial s = .ok { s with
    obuf := if s.regs.bwBits.toNat % 8 = 0 then s.obuf else s.obuf.write (s.regs.bwBits.toNat / 8) s.bwAcc } := by
  have hroom := h.1
  simp only [storePartial, and_seven_eq_zero_iff]
  by_cases hj : s.regs.bwBits.toNat % 8 = 0
  · rw [if_pos hj, if_pos hj]
  · rw [if_neg hj, if_neg hj, obufPut, shiftRight_three_toNat, if_neg (by omega)]

theorem bwFlush_of_ready {s : State} (h : WriterReady s) : bwFlush s = .ok (flushed s) := by
  rw [bwFlush, if_neg (by simp [h.notFlushed]), storePartial_of_writerOk h.writer]
  rfl

theorem toNat_outLen_flushed (s : State) : (flushed s).regs.outLen.toNat = (s.regs.bwBits.toNat + 7) / 8 :=
  toNat_ceil8 s.regs.bwBits

/-- Below `OUT_LEN` stand the bytes the writer held, the partial one among them. -/
theorem read_obuf_flushed {s : State} {a : Nat} (ha : a < (s.regs.bwBits.toNat + 7) / 8) :
    (flushed s).obuf.read .obuf a = heldByte s a := by
  rw [← toNat_ceil8] at ha
  rw [flushed, forgetAboveOutLen_obuf, read_forgetFrom_below _ _ _ ha, heldByte]
  rw [toNat_ceil8] at ha
  by_cases hlt : a < s.regs.bwBits.toNat / 8
  · rw [if_pos hlt]
    split_ifs
    · rfl
    · exact read_write_other _ _ _ (by omega)
  · obtain rfl : a = s.regs.bwBits.toNat / 8 := by omega
    rw [if_neg hlt, if_neg (by omega), read_write_same]

theorem streamBit_obuf_flushed {s : State} {p : Nat} (hlt : p < 8 * (flushed s).regs.outLen.toNat) :
    streamBit (fun a => (flushed s).obuf.read .obuf a) p = streamBit (heldByte s) p := by
  rw [toNat_outLen_flushed] at hlt
  rw [streamBit, streamBit, read_obuf_flushed (by omega)]

theorem obuf_bits_flushed (s : State) : (flushed s).obuf.bits .obuf s.regs.bwBits.toNat = s.writtenBits :=
  List.map_congr_left fun p hp => streamBit_obuf_flushed (by
    have := List.mem_range.1 hp
    rw [toNat_outLen_flushed]
    omega)

/-- The last byte is padded with the zeros of the accumulator (43 R121). -/
theorem streamBit_heldByte_padding {s : State} (hok : s.WriterOk) {p : Nat} (hle : s.regs.bwBits.toNat ≤ p)
    (hlt : p < 8 * (flushed s).regs.outLen.toNat) : streamBit (heldByte s) p = false := by
  rw [toNat_outLen_flushed] at hlt
  rw [streamBit_eq, heldByte, if_neg (by omega)]
  exact hok.2 _ (by omega) (by omega)

end Sys2Proof.Laws
end

section
/-! PROOFS. The commands of the bit writer (43 R123 to R126). -/

namespace Sys2Proof.Laws

open Sys2Proof.Machine

/-- Settles O39: the command completes with `bw_reset`. -/
theorem bwResetStartsEmpty : Obligations.BwResetStartsEmpty := ⟨by decide, fun _ => rfl⟩

/-- Settles O40: the bit is put, or refused after a flush or at the end of `OBUF`. -/
theorem bwPutFillsTheAccumulator : Obligations.BwPutFillsTheAccumulator := by
  refine ⟨by decide, by decide, fun s b => ⟨fun hp hopen hroom => ?_, fun hflushed => ?_, fun hopen hj hcap => ?_⟩⟩
  · exact ⟨_, exec_of_ok (i := .bwPut b) (bwPut_of_room hopen hroom b), fun _ => bitPut_bwAcc_getLsbD b s,
      toNat_bwBits_bitPut hp hroom b, read_obuf_bitPut b s, rfl⟩
  · exact exec_of_error (i := .bwPut b) (bwPut_of_flushed hflushed b)
  · exact exec_of_error (i := .bwPut b) (bwPut_of_full hopen hj hcap b)

theorem byteBits_eq (v : Byte) : byteBits v = (List.range 8).map (fun j => v.getMsbD j) :=
  List.map_congr_left fun j hj => by
    rw [BitVec.getMsbD, decide_eq_true (List.mem_range.1 hj), Bool.true_and]

/-- A symbol is written with one bit at least. -/
theorem symBits_ne_nil (s : State) (sym : Byte) : s.symBits sym ≠ [] := by
  unfold State.symBits
  split_ifs with h
  · simp [byteBits]
  · exact h

/-- Settles O41: the command is `bw_put` of each bit of the code, or of the raw byte. -/
theorem bwPutsymAppendsTheCode : Obligations.BwPutsymAppendsTheCode := by
  refine ⟨fun sym => decode_symWord (i := .bwPutsym sym) rfl, fun s sym bits hbits => ?_⟩
  have hsym : s.symBits sym = bits := by rw [hbits, State.symBits, byteBits_eq]
  have hbody (hv : s.status.codesValid = true) : body (.bwPutsym sym) s = bwPutAll bits s := by
    rw [body, requires, if_pos hv, bwPutsym, hsym]
  refine ⟨fun hp hok hv hopen hfit => ?_, fun hbad => ?_, fun hp hok hv hopen hover => ?_⟩
  · obtain ⟨t, hput, happ, acc, n, m, rfl⟩ := bwPutAll_of_fits ⟨hp, hok, hopen⟩ hfit
    exact ⟨_, exec_of_ok ((hbody hv).trans hput), happ.held, happ.writer, happ.count, happ.kept, rfl⟩
  · by_cases hv : s.status.codesValid = true
    · have hne : bits ≠ [] := hsym ▸ symBits_ne_nil s sym
      exact exec_of_error ((hbody hv).trans (bwPutAll_of_flushed (hbad.resolve_left (by simp [hv])) hne))
    · exact finish_requires_of_false (eq_false_of_ne_true hv) (bwPutsym sym) s
  · exact exec_of_error ((hbody hv).trans (bwPutAll_of_overflow ⟨hp, hok, hopen⟩ hover))

/-- Settles O42: below `OUT_LEN` the buffer holds the writer's bytes, and what follows its bits there is padding. -/
theorem bwFlushPublishesTheStream : Obligations.BwFlushPublishesTheStream := by
  refine ⟨by decide, fun s => ⟨fun hp hok hopen => ?_, fun hflushed => ?_⟩⟩
  · refine ⟨_, exec_of_ok (i := .bwFlush) (bwFlush_of_ready ⟨hp, hok, hopen⟩), toNat_outLen_flushed s,
      obuf_bits_flushed s, fun p hle hlt => ?_, fun a ha => ?_, rfl⟩
    · exact (streamBit_obuf_flushed hlt).trans (streamBit_heldByte_padding hok hle hlt)
    · exact (read_obuf_flushed (by omega)).trans (if_pos ha)
  · exact exec_of_error (i := .bwFlush) (bwFlush_of_flushed hflushed)

end Sys2Proof.Laws
end

section
/-! PROOFS. The bit reader (43 R128 to R130). -/

namespace Sys2Proof.Laws

open Sys2Proof.Machine

/-- Settles O43: the command clears the cursor and the bit read. -/
theorem brResetRewindsTheCursor : Obligations.BrResetRewindsTheCursor := ⟨by decide, fun _ => rfl⟩

theorem bitOfByte_eq_streamBit (byteAt : Nat → Byte) (p : Word) :
    bitOfByte (byteAt (p.toNat / 8)) p = streamBit byteAt p.toNat := by
  rw [bitOfByte, and_seven_toNat, streamBit_eq]

/-- The state after `BITVAL <- br_get()`, when it does not raise (43 R128, R130). -/
def bitRead (s : State) : State :=
  { s with regs := { s.regs with
      bitval := BitVec.ofBool (streamBit (fun a => s.ibuf.read .ibuf a) s.regs.brPos.toNat)
      brPos := s.regs.brPos + 1 } }

theorem brGet_of_end {s : State} (h : s.regs.totalBits.toNat ≤ s.regs.brPos.toNat) :
    brGet s = .error { code := .brEnd, info := s.regs.brPos } :=
  if_pos h

/-- Before the end of the stream `br_get` looks at the byte that holds the bit. -/
theorem brGet_of_lt {s : State} (h : s.regs.brPos.toNat < s.regs.totalBits.toNat) :
    brGet s =
      if s.regs.inLen.toNat ≤ s.regs.brPos.toNat / 8 ∨ s.params.ibufCap ≤ s.regs.brPos.toNat / 8 then
        .error { code := .ibufRange, info := s.regs.brPos >>> 3 }
      else .ok (streamBit (fun a => s.ibuf.read .ibuf a) s.regs.brPos.toNat,
        { s with regs := { s.regs with brPos := s.regs.brPos + 1 } }) := by
  rw [brGet, if_neg (BitVec.not_le.2 h), ibufGet, shiftRight_three_toNat]
  split_ifs
  · rfl
  · rw [← bitOfByte_eq_streamBit]

theorem readBit_of_error {s : State} {r : Raise} (h : brGet s = .error r) : readBit s = .error r := by
  rw [readBit, h]

theorem readBit_of_lt {s : State} (hpos : s.regs.brPos.toNat < s.regs.totalBits.toNat)
    (hin : s.regs.brPos.toNat / 8 < s.regs.inLen.toNat) (hcap : s.regs.brPos.toNat / 8 < s.params.ibufCap) :
    readBit s = .ok (bitRead s) := by
  rw [readBit, brGet_of_lt hpos, if_neg (by omega)]
  rfl

/-- Settles O44: `br_get` finds the bit, the end of the stream or the end of the buffer. -/
theorem brGetReadsTheNextBit : Obligations.BrGetReadsTheNextBit := by
  refine ⟨by decide, fun s => ⟨fun hpos hin hcap => ?_, fun hend => ?_, fun hpos hrange => ?_⟩⟩
  · exact exec_of_ok (i := .brGet) (readBit_of_lt hpos hin hcap)
  · exact exec_of_error (i := .brGet) (readBit_of_error (brGet_of_end hend))
  · exact exec_of_error (i := .brGet) (readBit_of_error ((brGet_of_lt hpos).trans (if_pos hrange)))

end Sys2Proof.Laws
end

section
/-! PROOFS. Writer and reader are inverse (43 R131). The commands of the writer are followed bit by bit to the flush,
those of the reader by the position of its cursor. -/

namespace Sys2Proof.Laws

open Sys2Proof.Machine

/-! ## Runs of commands -/

theorem runCommands_append {s t : State} {p : List Instr} (q : List Instr) (h : runCommands p s = some t) :
    runCommands (p ++ q) s = runCommands q t := by
  induction p generalizing s with
  | nil => rw [Option.some.inj h, List.nil_append]
  | cons i rest ih =>
    obtain ⟨u, hu⟩ : ∃ u, exec i s = .next u := exec_eq_finish i s ▸ finish_total s _
    simp only [List.cons_append, runCommands, hu] at h ⊢
    exact ih h

theorem runCommands_singleton {s t : State} {i : Instr} (h : exec i s = .next t) : runCommands [i] s = some t := by
  simp only [runCommands, h]

/-! ## The writer's side -/

/-- A run of `BW_PUT` appends its bits, when they fit. -/
theorem runCommands_bwPut {s : State} {w : Bits} (hs : WriterReady s)
    (hfit : s.regs.bwBits.toNat + w.length ≤ 8 * s.params.obufCap) :
    ∃ t, runCommands (w.map Instr.bwPut) s = some t ∧ Appended s w t := by
  induction w generalizing s with
  | nil => exact ⟨s, rfl, .refl hs.writer⟩
  | cons b rest ih =>
    rw [List.length_cons] at hfit
    have hroom : s.regs.bwBits.toNat < 8 * s.params.obufCap := by omega
    have happ := (bitPut_appended hs hroom b).complete
    obtain ⟨t, hrun, hrest⟩ := ih (happ.ready hs) (by rw [happ.count, happ.params, List.length_singleton]; omega)
    refine ⟨t, ?_, happ.trans hrest⟩
    simp only [List.map_cons, runCommands, exec_of_ok (i := .bwPut b) (bwPut_of_room hs.notFlushed hroom b), hrun]

/-- After the flush the bits written stand in `OBUF`. -/
theorem runCommands_bwPut_bwFlush {s : State} {w : Bits} (hs : WriterReady s) (hempty : s.regs.bwBits = 0)
    (hfit : w.length ≤ 8 * s.params.obufCap) :
    ∃ u, runCommands (w.map Instr.bwPut ++ [.bwFlush]) s = some u ∧ u.status.err = s.status.err ∧
      u.regs.outLen.toNat = (w.length + 7) / 8 ∧ u.obuf.bits .obuf w.length = w := by
  have hzero : s.regs.bwBits.toNat = 0 := by rw [hempty]; rfl
  obtain ⟨t, hrun, happ⟩ := runCommands_bwPut (w := w) hs (by omega)
  have hcount : t.regs.bwBits.toNat = w.length := by rw [happ.count, hzero, Nat.zero_add]
  have hheld : t.writtenBits = w := by rw [happ.held, writtenBits_eq, hzero]; rfl
  have hflush := exec_of_ok (i := .bwFlush) (bwFlush_of_ready (happ.ready hs))
  refine ⟨complete (flushed t), ?_, happ.err, ?_, ?_⟩
  · rw [runCommands_append _ hrun, runCommands_singleton hflush]
  · rw [← hcount]
    exact toNat_outLen_flushed t
  · rw [← hcount, ← hheld]
    exact obuf_bits_flushed t

/-! ## The reader's side -/

/-- `v` is `r` with the reader moved to bit `i`, and no error recorded. -/
structure ReadUpTo (r : State) (i : Nat) (v : State) : Prop where
  ibuf : v.ibuf = r.ibuf
  params : v.params = r.params
  inLen : v.regs.inLen = r.regs.inLen
  totalBits : v.regs.totalBits = r.regs.totalBits
  brPos : v.regs.brPos.toNat = i
  err : v.status.err = false

/-- A reader at bit 0 of a stream whose bytes lie within `IN_LEN` and `IBUF`. -/
structure ReaderReady (r : State) : Prop where
  brPos : r.regs.brPos = 0
  err : r.status.err = false
  inLen : (r.regs.totalBits.toNat + 7) / 8 ≤ r.regs.inLen.toNat
  room : r.regs.inLen.toNat ≤ r.params.ibufCap

section

variable {r v : State} {i : Nat}

/-- `BR_GET` reads bit `i` and moves on. -/
theorem ReadUpTo.next (hr : ReaderReady r) (h : ReadUpTo r i v) (hi : i < r.regs.totalBits.toNat) :
    ∃ u, exec .brGet v = .next u ∧ ReadUpTo r (i + 1) u ∧
      u.regs.bitval = BitVec.ofBool (streamBit (fun a => r.ibuf.read .ibuf a) i) := by
  have hlen := hr.inLen
  have hroom := hr.room
  have hpos := h.brPos
  have hin : v.regs.inLen.toNat = r.regs.inLen.toNat := by rw [h.inLen]
  have hread : readBit v = .ok (bitRead v) := readBit_of_lt (by rwa [h.brPos, h.totalBits])
    (by omega) (by rw [h.params]; omega)
  refine ⟨_, exec_of_ok (i := .brGet) hread, { h with brPos := ?_ }, ?_⟩
  · have := r.regs.totalBits.isLt
    rw [← h.brPos]
    exact BitVec.toNat_add_of_lt (by simp; omega)
  · rw [← h.brPos, ← h.ibuf]
    rfl

/-- Any number of `BR_GET` up to `TOTAL_BITS` brings the cursor there. -/
theorem ReaderReady.readUpTo (hr : ReaderReady r) (hi : i ≤ r.regs.totalBits.toNat) :
    ∃ v, runCommands (List.replicate i .brGet) r = some v ∧ ReadUpTo r i v := by
  induction i with
  | zero => exact ⟨r, rfl, rfl, rfl, rfl, rfl, by rw [hr.brPos]; rfl, hr.err⟩
  | succ i ih =>
    obtain ⟨v, hrun, hv⟩ := ih (by omega)
    obtain ⟨u, hexec, hu, -⟩ := hv.next hr hi
    refine ⟨u, ?_, hu⟩
    rw [List.replicate_succ', runCommands_append _ hrun, runCommands_singleton hexec]

/-- The `i`-th `BR_GET`, counted from 0, reads bit `i`. -/
theorem ReaderReady.read_bit (hr : ReaderReady r) (hi : i < r.regs.totalBits.toNat) :
    ∃ v, runCommands (List.replicate (i + 1) .brGet) r = some v ∧ v.status.err = false ∧
      v.regs.bitval = BitVec.ofBool (streamBit (fun a => r.ibuf.read .ibuf a) i) := by
  obtain ⟨v, hrun, hv⟩ := hr.readUpTo hi.le
  obtain ⟨u, hexec, hu, hbit⟩ := hv.next hr hi
  refine ⟨u, ?_, hu.err, hbit⟩
  rw [List.replicate_succ', runCommands_append _ hrun, runCommands_singleton hexec]

/-- One `BR_GET` more than the stream has bits raises `E_BR_END`. -/
theorem ReaderReady.read_end (hr : ReaderReady r) :
    ∃ v, runCommands (List.replicate (r.regs.totalBits.toNat + 1) .brGet) r = some v ∧ v.status.err = true ∧
      v.errcode = ErrCode.brEnd.code ∧ v.errinfo = r.regs.totalBits := by
  obtain ⟨v, hrun, hv⟩ := hr.readUpTo (le_refl _)
  have hpos : v.regs.brPos = r.regs.totalBits := BitVec.eq_of_toNat_eq hv.brPos
  have hend : brGet v = .error { code := .brEnd, info := v.regs.brPos } :=
    brGet_of_end (by rw [hv.totalBits, hpos])
  obtain ⟨u, hexec, hfail⟩ := exec_of_error (i := .brGet) (readBit_of_error hend)
  refine ⟨u, ?_, hfail.err, hfail.errcode, hfail.errinfo.trans hpos⟩
  rw [List.replicate_succ', runCommands_append _ hrun, runCommands_singleton hexec]

end

/-! ## Both -/

theorem getD_memory_bits (id : BufId) (m : Memory) {n p : Nat} (hp : p < n) :
    (m.bits id n).getD p false = streamBit (fun a => m.read id a) p := by
  simp [Memory.bits, hp]

/-- Settles O45: the flush leaves the bits in `OBUF`, and the reader finds them by position in the same bytes. -/
theorem readerReturnsWhatTheWriterPacked : Obligations.ReaderReturnsWhatTheWriterPacked := by
  intro s w hp hempty hopen hfit
  have hzero : s.regs.bwBits.toNat = 0 := by rw [hempty]; rfl
  have hok : s.WriterOk := ⟨by omega, fun k hk => absurd (by rw [hzero]) hk⟩
  obtain ⟨u, hrun, herr, hlen, hbits⟩ := runCommands_bwPut_bwFlush (w := w) ⟨hp, hok, hopen⟩ hempty hfit
  refine ⟨u, hrun, herr, hlen, fun r hrerr hin hroom htotal hpos hbytes => ?_⟩
  have hr : ReaderReady r := ⟨hpos, hrerr, by rw [htotal, hin, hlen], hroom⟩
  have hbit : ∀ i < w.length, streamBit (fun a => r.ibuf.read .ibuf a) i = w.getD i false := fun i hi => by
    calc streamBit (fun a => r.ibuf.read .ibuf a) i = streamBit (fun a => u.obuf.read .obuf a) i := by
          rw [streamBit, streamBit, hbytes (i / 8) (by omega)]
      _ = w.getD i false := by rw [← getD_memory_bits .obuf u.obuf hi, hbits]
  refine ⟨fun i hi => ?_, ?_⟩
  · rw [← hbit i hi]
    exact hr.read_bit (htotal ▸ hi)
  · rw [← htotal, BitVec.ofNat_toNat, BitVec.setWidth_eq]
    exact hr.read_end

end Sys2Proof.Laws
end

section
/-! PROOFS. `ENC_RUN` (44 R135, R136). After `k` input bytes the writer holds their codes, in order; a byte whose code does
not fit stops the loop at the end of `OBUF`. -/

namespace Sys2Proof.Laws

open Sys2Proof.Machine

/-! ## The codes of the input -/

/-- What `ENC_RUN` has packed after `k` input bytes. -/
def encodedPrefix (s : State) (k : Nat) : Bits := (s.inputBytes.take k).flatMap s.symBits

/-- The bits `ENC_RUN` packs for input byte number `k`. -/
def inputCode (s : State) (k : Nat) : Bits := s.symBits (s.inputBytes.getD k 0)

theorem encodedPrefix_succ {s : State} {k : Nat} (hk : k < s.regs.inLen.toNat) :
    encodedPrefix s (k + 1) = encodedPrefix s k ++ inputCode s k := by
  rw [encodedPrefix, take_succ_inputBytes hk, List.flatMap_append, List.flatMap_singleton]
  rfl

theorem encodedPrefix_inLen (s : State) : encodedPrefix s s.regs.inLen.toNat = s.encodedBits := by
  rw [encodedPrefix, ← length_inputBytes, List.take_length, State.encodedBits]

theorem length_encodedPrefix_le (s : State) (k : Nat) : (encodedPrefix s k).length ≤ s.encodedBits.length :=
  ((List.take_sublist k s.inputBytes).flatMap s.symBits).length_le

theorem toNat_ofNat_word {n : Nat} (h : n < 2 ^ 64) : (BitVec.ofNat 64 n).toNat = n := by
  rw [BitVec.toNat_ofNat, Nat.mod_eq_of_lt h]

/-- Within `IN_LEN` and the capacity the `k`-th byte of `IBUF` is input byte number `k`. -/
theorem ibufGet_of_lt {s : State} {k : Nat} (hcap : s.regs.inLen.toNat ≤ s.params.ibufCap)
    (hk : k < s.regs.inLen.toNat) : ibufGet (BitVec.ofNat 64 k) s = .ok (s.inputBytes.getD k 0) := by
  rw [ibufGet, toNat_ofNat_word (hk.trans s.regs.inLen.isLt), if_neg (by omega), getD_inputBytes hk]

/-! ## The loop of `ENC_RUN` -/

/-- `u` is the state of `ENC_RUN` on `s` after `k` input bytes. -/
structure Packed (s : State) (k : Nat) (u : State) : Prop where
  appended : Appended (bwReset s) (encodedPrefix s k) u
  frame : WriterOnly (bwReset s) u

theorem bwReset_writerReady {s : State} (hp : s.params.wf = true) : WriterReady (bwReset s) where
  params := hp
  writer := ⟨Nat.zero_le _, fun _ h => absurd rfl h⟩
  notFlushed := rfl

section

variable {s u : State} {k : Nat} (hp : s.params.wf = true)

include hp

theorem Packed.start : Packed s 0 (bwReset s) where
  appended := .refl (bwReset_writerReady hp).writer
  frame := .refl _

variable (h : Packed s k u)

include h

theorem Packed.ready : WriterReady u := h.appended.ready (bwReset_writerReady hp)

omit hp

theorem Packed.count : u.regs.bwBits.toNat = (encodedPrefix s k).length :=
  h.appended.count.trans (Nat.zero_add _)

theorem Packed.held : u.writtenBits = encodedPrefix s k := h.appended.held.trans (List.nil_append _)

theorem Packed.cap : u.params.obufCap = s.params.obufCap := congrArg Params.obufCap h.appended.params

variable (hcap : s.regs.inLen.toNat ≤ s.params.ibufCap) (hk : k < s.regs.inLen.toNat)

include hcap hk

/-- The next iteration puts the code of the next input byte. -/
theorem Packed.encByte_eq : encByte k u = bwPutAll (inputCode s k) u := by
  obtain ⟨acc, n, m, rfl⟩ := h.frame
  rw [encByte, ibufGet_of_lt (by exact hcap) (by exact hk)]
  rfl

include hp

theorem Packed.next {v : State} (hv : encByte k u = .ok v) : Packed s (k + 1) v := by
  rw [h.encByte_eq hcap hk] at hv
  have hready := h.ready hp
  by_cases hfit : u.regs.bwBits.toNat + (inputCode s k).length ≤ 8 * u.params.obufCap
  · obtain ⟨t, hput, happ, -⟩ := bwPutAll_of_fits hready hfit
    obtain rfl : t = v := Except.ok.inj (hput.symm.trans hv)
    exact
      { appended := encodedPrefix_succ hk ▸ h.appended.trans happ
        frame := bwPutAll_invariant _ (fun _ _ _ => bwPut_writerOnly) _ _ _ h.frame hput }
  · simp [bwPutAll_of_overflow hready (Nat.not_le.1 hfit)] at hv

/-- The only error is the end of `OBUF`, before a code that does not fit. -/
theorem Packed.overflow {r : Raise} (hr : encByte k u = .error r) :
    8 * s.params.obufCap < s.encodedBits.length ∧
      r = { code := .obufFull, info := BitVec.ofNat 64 s.params.obufCap } := by
  rw [h.encByte_eq hcap hk] at hr
  have hready := h.ready hp
  by_cases hfit : u.regs.bwBits.toNat + (inputCode s k).length ≤ 8 * u.params.obufCap
  · obtain ⟨t, hput, -, -⟩ := bwPutAll_of_fits hready hfit
    simp [hput] at hr
  · have hle := length_encodedPrefix_le s (k + 1)
    rw [encodedPrefix_succ hk, List.length_append, ← h.count] at hle
    rw [bwPutAll_of_overflow hready (Nat.not_le.1 hfit), h.cap] at hr
    rw [h.cap] at hfit
    exact ⟨by omega, (Except.error.inj hr).symm⟩

end

/-- The loop ends with the whole input packed, which then fits `OBUF`, or stops because it does not fit. -/
theorem encLoop_cases {s : State} (hp : s.params.wf = true) (hcap : s.regs.inLen.toNat ≤ s.params.ibufCap) :
    (∃ u, forUp encByte s.regs.inLen.toNat 0 (bwReset s) = .ok u ∧ Packed s s.regs.inLen.toNat u ∧
        s.encodedBits.length ≤ 8 * s.params.obufCap) ∨
      (8 * s.params.obufCap < s.encodedBits.length ∧ forUp encByte s.regs.inLen.toNat 0 (bwReset s) =
        .error { code := .obufFull, info := BitVec.ofNat 64 s.params.obufCap }) := by
  have hcases := forUp_cases (Packed s) (count := s.regs.inLen.toNat) (first := 0)
    (fun i _ _ hi hu => hu.next hp hcap (by omega)) (.start hp)
  rw [Nat.zero_add] at hcases
  rcases hcases with ⟨u, hloop, hu⟩ | ⟨k, u, r, hk, hu, hr, hloop⟩
  · refine .inl ⟨u, hloop, hu, ?_⟩
    rw [← encodedPrefix_inLen, ← hu.count, ← hu.cap]
    exact hu.appended.writer.1
  · obtain ⟨hover, rfl⟩ := hu.overflow hp hcap hk hr
    exact .inr ⟨hover, hloop⟩

/-! ## The command -/

/-- With codes and within the capacity `ENC_RUN` is its loop from an empty writer and the flush. -/
theorem body_encRun_of_le {s : State} (hv : s.status.codesValid = true)
    (hcap : s.regs.inLen.toNat ≤ s.params.ibufCap) :
    body .encRun s = (forUp encByte s.regs.inLen.toNat 0 (bwReset s)).bind bwFlush := by
  rw [body, requires, if_pos hv, encRun, if_neg (Nat.not_lt.2 hcap)]
  cases forUp encByte s.regs.inLen.toNat 0 (bwReset s) <;> rfl

/-- Settles O46: the loop leaves the codes of the input in the writer, and the flush publishes them. -/
theorem encRunPacksTheCodes : Obligations.EncRunPacksTheCodes := by
  intro s hp hv hcap hfit
  rcases encLoop_cases hp hcap with ⟨u, hloop, hu, -⟩ | ⟨hover, -⟩
  · have hready := hu.ready hp
    have hcount : u.regs.bwBits.toNat = s.encodedBits.length := by rw [hu.count, encodedPrefix_inLen]
    have hheld : u.writtenBits = s.encodedBits := by rw [hu.held, encodedPrefix_inLen]
    have hbody : body .encRun s = .ok (flushed u) := by
      rw [body_encRun_of_le hv hcap, hloop]
      exact bwFlush_of_ready hready
    refine ⟨_, exec_of_ok hbody, hcount, ?_, ?_, fun p hle hlt => ?_, ?_⟩
    · rw [← hcount]
      exact toNat_outLen_flushed u
    · rw [← hcount, ← hheld]
      exact obuf_bits_flushed u
    · exact (streamBit_obuf_flushed hlt).trans (streamBit_heldByte_padding hready.writer (hcount ▸ hle) hlt)
    · obtain ⟨acc, n, m, rfl⟩ := hu.frame
      rfl
  · omega

/-- Settles O47: the checks stand before the loop, and the loop's only error is the end of `OBUF`. -/
theorem encRunRaisesInOrder : Obligations.EncRunRaisesInOrder := by
  refine fun s => ⟨fun hv => ?_, fun hv hrange => ?_, fun hp hv hcap hover => ?_⟩
  · exact finish_requires_of_false hv encRun s
  · refine exec_of_error (i := .encRun) ?_
    rw [body, requires, if_pos hv, encRun, if_pos hrange]
  · rcases encLoop_cases hp hcap with ⟨-, -, -, hfit⟩ | ⟨-, hloop⟩
    · omega
    · refine exec_of_error (i := .encRun) ?_
      rw [body_encRun_of_le hv hcap, hloop]
      rfl

end Sys2Proof.Laws
end

section
/-! PROOFS. `DEC_RUN` (44 R138 to R142). The loop is followed bit by bit against the walk over the payload bits: the cursor
stands at the first bit the walk has still to read, and `OBUF` starts with the bytes emitted so far. -/

namespace Sys2Proof.Laws

open Sys2Proof.Machine

/-! ## The walk over a bit-string -/

section

variable {nodeAt : NodeIdx → Node} {root cur : NodeIdx} {b : Bool} {bits : Bits} {left : Nat}

theorem decodeBits_of_none_wanted (nodeAt : NodeIdx → Node) (root : NodeIdx) (bits : Bits) (cur : NodeIdx) :
    decodeBits nodeAt root bits cur 0 = ([], 0) := by
  cases bits <;> rfl

/-- At a leaf the walk emits its byte and begins again at the root. -/
theorem decodeBits_cons_of_leaf (h : (nodeAt ((nodeAt cur).child b)).isLeaf = true) :
    decodeBits nodeAt root (b :: bits) cur (left + 1) =
      ((nodeAt ((nodeAt cur).child b)).sym :: (decodeBits nodeAt root bits root left).1,
        (decodeBits nodeAt root bits root left).2 + 1) :=
  if_pos h

theorem decodeBits_cons_of_internal (h : (nodeAt ((nodeAt cur).child b)).isLeaf = false) :
    decodeBits nodeAt root (b :: bits) cur (left + 1) =
      ((decodeBits nodeAt root bits ((nodeAt cur).child b) (left + 1)).1,
        (decodeBits nodeAt root bits ((nodeAt cur).child b) (left + 1)).2 + 1) :=
  if_neg (Bool.eq_false_iff.1 h)

theorem length_decodeBits_le (nodeAt : NodeIdx → Node) (root : NodeIdx) (bits : Bits) (cur : NodeIdx) (left : Nat) :
    (decodeBits nodeAt root bits cur left).1.length ≤ left := by
  induction bits generalizing cur left with
  | nil => exact Nat.zero_le _
  | cons b bits ih =>
    cases left with
    | zero => simp [decodeBits_of_none_wanted]
    | succ left =>
      cases h : (nodeAt ((nodeAt cur).child b)).isLeaf with
      | true =>
        rw [decodeBits_cons_of_leaf h]
        exact Nat.succ_le_succ (ih root left)
      | false =>
        rw [decodeBits_cons_of_internal h]
        exact ih _ _

end

/-! ## The loop's equations -/

section

variable {fuel : Nat} {cur : NodeIdx} {produced : Word} {u t : State} {b : Bool}

theorem decLoop_of_stop (fuel : Nat) (cur : NodeIdx)
    (h : ¬ (produced < u.regs.origSize ∧ u.regs.brPos < u.regs.totalBits)) :
    decLoop fuel cur produced u = .ok (produced, u) := by
  cases fuel with
  | zero => rfl
  | succ fuel => exact if_neg h

variable (hgo : produced < u.regs.origSize ∧ u.regs.brPos < u.regs.totalBits) (hget : brGet u = .ok (b, t))

include hgo hget

/-- A bit that leads to a leaf stores the leaf's byte, and the loop goes on from the root. -/
theorem decLoop_of_leaf (hleaf : (t.nodeAt ((t.nodeAt cur).child b)).isLeaf = true) :
    decLoop (fuel + 1) cur produced u =
      (obufPut produced (t.nodeAt ((t.nodeAt cur).child b)).sym t).bind
        (fun v => decLoop fuel v.regs.root (produced + 1) v) := by
  simp only [decLoop, if_pos hgo, hget, if_pos hleaf]
  cases obufPut produced (t.nodeAt ((t.nodeAt cur).child b)).sym t <;> rfl

theorem decLoop_of_internal (hint : (t.nodeAt ((t.nodeAt cur).child b)).isLeaf = false) :
    decLoop (fuel + 1) cur produced u = decLoop fuel ((t.nodeAt cur).child b) produced t := by
  simp only [decLoop, if_pos hgo, hget, hint, Bool.false_eq_true, if_false]

end

/-! ## The loop's states -/

/-- `u` is the state of the decode loop on `s` after `p` bits, with the bytes `out` stored. -/
structure Decoding (s : State) (p : Nat) (out : List Byte) (u : State) : Prop where
  frame : DecoderOnly s u
  brPos : u.regs.brPos.toNat = p
  stored : ∀ i < out.length, u.obuf.read .obuf i = out.getD i 0

theorem Decoding.start (s : State) : Decoding (decStart s) 0 [] (decStart s) where
  frame := ⟨_, _, rfl⟩
  brPos := rfl
  stored _ hi := absurd hi (Nat.not_lt_zero _)

/-- The declared payload bits lie in the input, which lies in `IBUF` (44 R140). -/
structure PayloadFits (s : State) : Prop where
  bits : (s.regs.totalBits.toNat + 7) / 8 ≤ s.regs.inLen.toNat
  bytes : s.regs.inLen.toNat ≤ s.params.ibufCap

theorem length_payloadBits (s : State) : s.payloadBits.length = s.regs.totalBits.toNat := by
  simp [State.payloadBits, Memory.bits]

/-- The bits from position `p` on begin with bit `p` of `IBUF`. -/
theorem drop_payloadBits_cons {s : State} {p : Nat} {b : Bool} {bits : Bits}
    (h : s.payloadBits.drop p = b :: bits) :
    p < s.regs.totalBits.toNat ∧ streamBit (fun a => s.ibuf.read .ibuf a) p = b ∧ s.payloadBits.drop (p + 1) = bits := by
  have hp : p < s.payloadBits.length := by
    rw [← not_le, ← List.drop_eq_nil_iff, h]
    exact List.cons_ne_nil _ _
  rw [List.drop_eq_getElem_cons hp, List.cons.injEq] at h
  refine ⟨length_payloadBits s ▸ hp, ?_, h.2⟩
  simpa [State.payloadBits, Memory.bits] using h.1

theorem le_of_drop_payloadBits_nil {s : State} {p : Nat} (h : s.payloadBits.drop p = []) :
    s.regs.totalBits.toNat ≤ p :=
  length_payloadBits s ▸ List.drop_eq_nil_iff.1 h

namespace Decoding

variable {s u : State} {p : Nat} {out : List Byte} (h : Decoding s p out u)

include h

theorem nodeAt_eq : u.nodeAt = s.nodeAt := by
  obtain ⟨m, q, rfl⟩ := h.frame
  rfl

theorem regs_eq : u.regs.root = s.regs.root ∧ u.regs.origSize = s.regs.origSize ∧
    u.regs.totalBits = s.regs.totalBits := by
  obtain ⟨m, q, rfl⟩ := h.frame
  exact ⟨rfl, rfl, rfl⟩

theorem cap : u.params.obufCap = s.params.obufCap := by
  obtain ⟨m, q, rfl⟩ := h.frame
  rfl

/-- The loop goes on while bytes are wanted and bits are left. -/
theorem goes_on_iff (hout : out.length ≤ s.regs.origSize.toNat) :
    (BitVec.ofNat 64 out.length < u.regs.origSize ∧ u.regs.brPos < u.regs.totalBits) ↔
      out.length < s.regs.origSize.toNat ∧ p < s.regs.totalBits.toNat := by
  obtain ⟨-, horig, htotal⟩ := h.regs_eq
  rw [horig, htotal, BitVec.lt_def, BitVec.lt_def, h.brPos,
    toNat_ofNat_word (hout.trans_lt s.regs.origSize.isLt)]

/-- `br_get` reads bit `p` and moves the cursor on. -/
theorem get (hfit : PayloadFits s) (hp : p < s.regs.totalBits.toNat) :
    ∃ t, brGet u = .ok (streamBit (fun a => s.ibuf.read .ibuf a) p, t) ∧ Decoding s (p + 1) out t := by
  have hbits := hfit.bits
  have hbytes := hfit.bytes
  have hpos := h.brPos
  obtain ⟨m, q, rfl⟩ := h.frame
  dsimp only at hpos
  subst hpos
  refine ⟨_, (brGet_of_lt hp).trans (if_neg ?_), ⟨_, _, rfl⟩, ?_, h.stored⟩
  · dsimp only
    omega
  · have := s.regs.totalBits.isLt
    exact BitVec.toNat_add_of_lt (by simp; omega)

/-- A byte is stored behind those stored before. -/
theorem put (hlen : out.length < 2 ^ 64) (hroom : out.length < s.params.obufCap) (v : Byte) :
    ∃ t, obufPut (BitVec.ofNat 64 out.length) v u = .ok t ∧ Decoding s p (out ++ [v]) t := by
  have hcap := h.cap
  have hput : obufPut (BitVec.ofNat 64 out.length) v u = .ok { u with obuf := u.obuf.write out.length v } := by
    rw [obufPut, toNat_ofNat_word hlen, if_neg (by omega)]
  refine ⟨_, hput, ?_, h.brPos, fun i hi => ?_⟩
  · obtain ⟨m, q, rfl⟩ := h.frame
    exact ⟨_, _, rfl⟩
  · rw [List.length_append, List.length_singleton] at hi
    dsimp only
    rw [read_write]
    split_ifs with hlast
    · simp [hlast]
    · have hold : i < out.length := by omega
      rw [h.stored i hold, List.getD_append _ _ _ _ hold]

/-- At the end of `OBUF` the next byte is refused. -/
theorem put_of_full (hlen : out.length < 2 ^ 64) (hfull : out.length = s.params.obufCap) (v : Byte) :
    obufPut (BitVec.ofNat 64 out.length) v u =
      .error { code := .obufFull, info := BitVec.ofNat 64 s.params.obufCap } := by
  rw [obufPut, toNat_ofNat_word hlen, h.cap, if_pos hfull.ge, hfull]

end Decoding

/-! ## The loop against the walk -/

/-- The loop on `s`, with `out` stored after `p` bits, ends as the rest of the walk says: it stores the bytes emitted and
moves the cursor over the bits consumed, or the bytes do not fit `OBUF`. -/
def EndsAs (s : State) (p : Nat) (out : List Byte) (rest : List Byte × Nat) (r : Except Raise (Word × State)) : Prop :=
  (out.length + rest.1.length ≤ s.params.obufCap ∧
    ∃ t, r = .ok (BitVec.ofNat 64 (out ++ rest.1).length, t) ∧ Decoding s (p + rest.2) (out ++ rest.1) t) ∨
  (s.params.obufCap < out.length + rest.1.length ∧
    r = .error { code := .obufFull, info := BitVec.ofNat 64 s.params.obufCap })

section

variable {s u : State} {p : Nat} {out : List Byte} {rest : List Byte × Nat} {r : Except Raise (Word × State)}

/-- Nothing is left to walk. -/
theorem EndsAs.stop (h : Decoding s p out u) (hroom : out.length ≤ s.params.obufCap) :
    EndsAs s p out ([], 0) (.ok (BitVec.ofNat 64 out.length, u)) :=
  .inl ⟨hroom, u, by rw [List.append_nil], by simpa using h⟩

theorem EndsAs.bit (h : EndsAs s (p + 1) out rest r) : EndsAs s p out (rest.1, rest.2 + 1) r := by
  rwa [EndsAs, Nat.add_right_comm] at h

theorem EndsAs.byte {v : Byte} (h : EndsAs s (p + 1) (out ++ [v]) rest r) :
    EndsAs s p out (v :: rest.1, rest.2 + 1) r := by
  rwa [EndsAs, Nat.add_right_comm, List.append_assoc, List.singleton_append, List.length_append,
    List.length_singleton, Nat.add_assoc, Nat.add_comm 1, ← List.length_cons] at h

/-- A byte emitted is stored and the loop goes on, or it is the one that does not fit. -/
theorem EndsAs.store {v : Byte} {more : State → Except Raise (Word × State)} (h : Decoding s (p + 1) out u)
    (hlen : out.length < 2 ^ 64) (hroom : out.length ≤ s.params.obufCap)
    (hmore : ∀ w, out.length < s.params.obufCap → Decoding s (p + 1) (out ++ [v]) w →
      EndsAs s (p + 1) (out ++ [v]) rest (more w)) :
    EndsAs s p out (v :: rest.1, rest.2 + 1) ((obufPut (BitVec.ofNat 64 out.length) v u).bind more) := by
  rcases hroom.lt_or_eq with hlt | hfull
  · obtain ⟨w, hput, hw⟩ := h.put hlen hlt v
    rw [hput]
    exact (hmore w hlt hw).byte
  · rw [h.put_of_full hlen hfull]
    exact .inr ⟨by rw [hfull, List.length_cons]; omega, rfl⟩

end

theorem ofNat_length_concat (out : List Byte) (v : Byte) :
    BitVec.ofNat 64 (out ++ [v]).length = BitVec.ofNat 64 out.length + 1 := by
  rw [List.length_append, BitVec.ofNat_add]
  rfl

/-- The decode loop walks over the payload bits from the cursor on. -/
theorem decLoop_endsAs {s : State} (hfit : PayloadFits s) (bits : Bits) (cur : NodeIdx) {p : Nat} {out : List Byte}
    {u : State} {left : Nat} (hbits : s.payloadBits.drop p = bits) (hu : Decoding s p out u)
    (hleft : out.length + left = s.regs.origSize.toNat) (hroom : out.length ≤ s.params.obufCap) :
    EndsAs s p out (decodeBits s.nodeAt s.regs.root bits cur left)
      (decLoop bits.length cur (BitVec.ofNat 64 out.length) u) := by
  induction bits generalizing cur p out u left with
  | nil =>
    have hend := le_of_drop_payloadBits_nil hbits
    rw [decLoop_of_stop _ _ (by rw [hu.goes_on_iff (by omega)]; omega)]
    exact .stop hu hroom
  | cons b bits ih =>
    obtain ⟨hp, hbit, hrest⟩ := drop_payloadBits_cons hbits
    cases left with
    | zero =>
      rw [decodeBits_of_none_wanted, decLoop_of_stop _ _ (by rw [hu.goes_on_iff (by omega)]; omega)]
      exact .stop hu hroom
    | succ left =>
      have hgo := (hu.goes_on_iff (by omega)).2 ⟨by omega, hp⟩
      obtain ⟨t, hget, ht⟩ := hu.get hfit hp
      rw [hbit] at hget
      have hnode := ht.nodeAt_eq
      rw [List.length_cons]
      cases hleaf : (s.nodeAt ((s.nodeAt cur).child b)).isLeaf with
      | false =>
        rw [decodeBits_cons_of_internal hleaf, decLoop_of_internal hgo hget (by rw [hnode, hleaf]), hnode]
        exact (ih _ hrest ht hleft hroom).bit
      | true =>
        rw [decodeBits_cons_of_leaf hleaf, decLoop_of_leaf hgo hget (by rw [hnode, hleaf]), hnode]
        have hlen : out.length < 2 ^ 64 := by
          have := s.regs.origSize.isLt
          omega
        refine .store ht hlen hroom fun w hlt hw => ?_
        obtain ⟨hroot, -, -⟩ := hw.regs_eq
        rw [hroot, ← ofNat_length_concat]
        exact ih _ hrest hw (by simp; omega) (by simp; omega)

/-- What `DEC_RUN` walks over: the payload bits, or nothing when there is no tree (44 R141). -/
def decodeResult (s : State) : List Byte × Nat :=
  if s.status.treeEmpty then ([], 0)
  else decodeBits s.nodeAt s.regs.root s.payloadBits s.regs.root s.regs.origSize.toNat

theorem length_decodeResult_le (s : State) : (decodeResult s).1.length ≤ s.regs.origSize.toNat := by
  unfold decodeResult
  split_ifs
  · exact Nat.zero_le _
  · exact length_decodeBits_le ..

theorem decWalk_endsAs {s : State} (hfit : PayloadFits s) :
    EndsAs (decStart s) 0 [] (decodeResult s) (decWalk (decStart s)) := by
  have hstart := Decoding.start s
  cases he : s.status.treeEmpty with
  | true =>
    rw [decodeResult, if_pos he, decWalk, if_pos (by exact he)]
    exact .stop hstart (Nat.zero_le _)
  | false =>
    have hloop := decLoop_endsAs (s := decStart s) { hfit with } s.payloadBits s.regs.root rfl hstart (Nat.zero_add _)
      (Nat.zero_le _)
    rw [length_payloadBits] at hloop
    rwa [decodeResult, if_neg (by simp [he]), decWalk, if_neg (by simp [he])]

/-! ## The command -/

theorem inLen_lt_ceil8_iff (s : State) :
    s.regs.inLen < ceil8 s.regs.totalBits ↔ s.regs.inLen.toNat < (s.regs.totalBits.toNat + 7) / 8 := by
  rw [BitVec.lt_def, toNat_ceil8]

theorem body_decRun_of_valid {s : State} (hv : s.status.treeValid = true) : body .decRun s = decRun s := by
  rw [body, requires, if_pos hv]

/-- With a tree and the payload within its bounds `DEC_RUN` is its walk and what is recorded of it. -/
theorem body_decRun_of_fits {s : State} (hv : s.status.treeValid = true) (hfit : PayloadFits s) :
    body .decRun s = (decWalk (decStart s)).bind (fun d => .ok (decDone d.1 d.2)) := by
  rw [body_decRun_of_valid hv, decRun, if_neg (Nat.not_lt.2 hfit.bytes),
    if_neg (by rw [inLen_lt_ceil8_iff]; exact Nat.not_lt.2 hfit.bits)]
  cases decWalk (decStart s) <;> rfl

/-- Settles O48: the loop stores the bytes of the walk and stands behind the bits it consumed. -/
theorem decRunStoresTheWalk : Obligations.DecRunStoresTheWalk := by
  intro s out used hv hbytes hbits hwalk hroom
  have hfit : PayloadFits s := ⟨hbits, hbytes⟩
  have hlen : out.length ≤ s.regs.origSize.toNat := by
    have := length_decodeResult_le s
    rwa [decodeResult, ← hwalk] at this
  have hend := decWalk_endsAs hfit
  rw [decodeResult, ← hwalk] at hend
  rcases hend with ⟨-, t, hok, ht⟩ | ⟨hover, -⟩
  · rw [List.nil_append, Nat.zero_add] at ht
    rw [List.nil_append] at hok
    have hword : (BitVec.ofNat 64 out.length).toNat = out.length :=
      toNat_ofNat_word (hlen.trans_lt s.regs.origSize.isLt)
    obtain ⟨-, horig, -⟩ := ht.regs_eq
    have hbody : body .decRun s = .ok (decDone (BitVec.ofNat 64 out.length) t) := by
      rw [body_decRun_of_fits hv hfit, hok]
      rfl
    refine ⟨_, exec_of_ok hbody, hword, ht.brPos, fun i hi => ?_, ?_, ?_⟩
    · exact (read_forgetFrom_below _ _ _ (hword.symm ▸ hi)).trans (ht.stored i hi)
    · rw [complete_status, decDone_status, horig]
      simp only [BitVec.lt_def, hword, decStart_regs]
    · obtain ⟨m, q, rfl⟩ := ht.frame
      rfl
  · exact absurd hroom (by simpa using hover)

/-- Settles O49: the checks stand before the loop, and the loop's only error is the end of `OBUF`. -/
theorem decRunRaisesInOrder : Obligations.DecRunRaisesInOrder := by
  refine fun s => ⟨fun hv => ?_, fun hv hrange => ?_, fun hv hbytes hrange => ?_,
    fun _ hv he hbytes hbits hover => ?_⟩
  · exact finish_requires_of_false hv decRun s
  · refine exec_of_error (i := .decRun) ?_
    rw [body_decRun_of_valid hv, decRun, if_pos hrange]
  · refine exec_of_error (i := .decRun) ?_
    rw [body_decRun_of_valid hv, decRun, if_neg (Nat.not_lt.2 hbytes), if_pos ((inLen_lt_ceil8_iff s).2 hrange),
      ← toNat_ceil8, BitVec.ofNat_toNat, BitVec.setWidth_eq]
  · have hfit : PayloadFits s := ⟨hbits, hbytes⟩
    have hend := decWalk_endsAs hfit
    rw [decodeResult, if_neg (by simp [he])] at hend
    rcases hend with ⟨hroom, -⟩ | ⟨-, herr⟩
    · exact absurd hover (by simpa using hroom)
    · refine exec_of_error (i := .decRun) ?_
      rw [body_decRun_of_fits hv hfit, herr]
      rfl

end Sys2Proof.Laws
end

section
/-! PROOFS. The round trip through the core (44 R143). A run without an error keeps the input it started from; each input
byte's code leads from the root to its leaf, also in another core that built the same tree; so the walk over the codes
emits the input. -/

namespace Sys2Proof.Laws

open Sys2Proof.Machine

/-! ## Runs without an error -/

/-- `t` has the parameters, the input and the error flag of `s`. -/
structure SameInput (s t : State) : Prop where
  params : t.params = s.params
  ibuf : t.ibuf = s.ibuf
  inLen : t.regs.inLen = s.regs.inLen
  err : t.status.err = s.status.err

theorem SameInput.trans {s t u : State} (h1 : SameInput s t) (h2 : SameInput t u) : SameInput s u where
  params := h2.params.trans h1.params
  ibuf := h2.ibuf.trans h1.ibuf
  inLen := h2.inLen.trans h1.inLen
  err := h2.err.trans h1.err

theorem SameInput.inputBytes {s t : State} (h : SameInput s t) : t.inputBytes = s.inputBytes := by
  rw [State.inputBytes, State.inputBytes, h.inLen, h.ibuf]

/-- A command that resets nothing and ends without an error completed normally, and keeps the input. -/
theorem exec_of_err_false {i : Instr} {s t : State} (hi : i ≠ .sessionReset) (h : exec i s = .next t)
    (herr : t.status.err = false) : ∃ u, Effect i s u ∧ t = complete u ∧ SameInput s t := by
  rcases exec_next h with ⟨u, -, hu, rfl⟩ | ⟨r, rfl⟩
  · obtain ⟨hibuf, -, hparams, -⟩ := hu.frame
    obtain ⟨-, hinLen, -, -, -, -, -, -, hsame⟩ := hu.writers hi
    exact ⟨u, hu, rfl, hparams, hibuf, hinLen, hsame⟩
  · exact absurd herr (by simp [Status.failed])

theorem runCommands_cons {i : Instr} {rest : List Instr} {s t : State} (h : runCommands (i :: rest) s = some t) :
    ∃ u, exec i s = .next u ∧ runCommands rest u = some t := by
  obtain ⟨u, hu⟩ : ∃ u, exec i s = .next u := exec_eq_finish i s ▸ finish_total s _
  simp only [runCommands, hu] at h
  exact ⟨u, hu, h⟩

/-- Nothing but `SESSION_RESET` clears an error, so a run that ends without one had none, and keeps the input. -/
theorem runCommands_sameInput {p : List Instr} {s t : State} (hp : .sessionReset ∉ p)
    (h : runCommands p s = some t) (herr : t.status.err = false) : SameInput s t := by
  induction p generalizing s with
  | nil =>
    obtain rfl := Option.some.inj h
    exact ⟨rfl, rfl, rfl, rfl⟩
  | cons i rest ih =>
    obtain ⟨hi, hrest⟩ := List.ne_and_not_mem_of_not_mem_cons hp
    obtain ⟨u, hexec, hrun⟩ := runCommands_cons h
    have hu := ih hrest hrun
    obtain ⟨-, -, -, hfirst⟩ := exec_of_err_false (Ne.symm hi) hexec (hu.err.symm.trans herr)
    exact hfirst.trans hu

/-! ## The walk over codes -/

section

variable {nodeAt : NodeIdx → Node} {root n : NodeIdx} {p rest : Bits} {sym : Byte}

/-- From an internal record the walk over a path to a leaf emits the leaf's byte and begins again at the root. -/
theorem decodeBits_of_leadsTo (hlead : LeadsTo nodeAt n p sym) (hint : (nodeAt n).isLeaf = false) (left : Nat) :
    decodeBits nodeAt root (p ++ rest) n (left + 1) =
      (sym :: (decodeBits nodeAt root rest root left).1, p.length + (decodeBits nodeAt root rest root left).2) := by
  induction p generalizing n with
  | nil => exact absurd hlead (not_leadsTo_nil_of_internal hint)
  | cons b p ih =>
    have hchild := (leadsTo_cons_of_internal hint).1 hlead
    rw [List.cons_append, List.length_cons]
    cases hleaf : (nodeAt ((nodeAt n).child b)).isLeaf with
    | true =>
      obtain ⟨rfl, -, rfl⟩ := (leadsTo_of_leaf hleaf).1 hchild
      rw [decodeBits_cons_of_leaf hleaf, List.nil_append, List.length_nil, Nat.zero_add, Nat.add_comm]
    | false =>
      rw [decodeBits_cons_of_internal hleaf, ih hchild hleaf, Nat.add_right_comm]

/-- The walk over the codes of some bytes emits these bytes and consumes every bit. -/
theorem decodeBits_flatMap {code : Byte → Bits} (hint : (nodeAt root).isLeaf = false) {bytes : List Byte}
    (hcode : ∀ x ∈ bytes, LeadsTo nodeAt root (code x) x) :
    decodeBits nodeAt root (bytes.flatMap code) root bytes.length = (bytes, (bytes.flatMap code).length) := by
  induction bytes with
  | nil => rfl
  | cons x bytes ih =>
    obtain ⟨hx, hbytes⟩ := List.forall_mem_cons.1 hcode
    rw [List.flatMap_cons, List.length_cons, decodeBits_of_leadsTo hx hint, ih hbytes, List.length_append]

end

/-! ## Two cores with one tree -/

theorem nodeAt_congr {s t : State} (hnode : t.node = s.node) {i : NodeIdx} (hi : i.toNat < s.node.length) :
    t.nodeAt i = s.nodeAt i :=
  nodeAt_of_getElem? (hnode ▸ getElem?_nodeAt hi)

/-- A path from a record in use depends on the records alone. -/
theorem HoldsTree.leadsTo_congr {m : Nat} {s t : State} (h : HoldsTree m s) (hnode : t.node = s.node) {p : Bits}
    {i : NodeIdx} {sym : Byte} (hi : i.toNat < s.node.length) (hp : LeadsTo s.nodeAt i p sym) :
    LeadsTo t.nodeAt i p sym := by
  have hat := nodeAt_congr hnode hi
  induction p generalizing i with
  | nil =>
    obtain ⟨x, hx, hleaf⟩ := hp
    obtain rfl := Option.some.inj hx
    exact ⟨i, rfl, hat ▸ hleaf⟩
  | cons b p ih =>
    cases hleaf : (s.nodeAt i).isLeaf with
    | true => simp [leadsTo_of_leaf hleaf] at hp
    | false =>
      have hlt := (h.child_lt hi hleaf b).trans hi
      rw [leadsTo_cons_of_internal hleaf] at hp
      rw [leadsTo_cons_of_internal (hat ▸ hleaf), hat]
      exact ih hlt hp (nodeAt_congr hnode hlt)

/-- What `TB_BUILD` completes with when it yields `tree`. -/
def built (s : State) (tree : Tree) : State := complete (s.withTree tree)

theorem built_holdsTree {s : State} {tree : Tree} (h : buildTree s.params.phSym s.freq = .ok tree)
    (he : tree.empty = false) : ∃ m, HoldsTree m (built s tree) :=
  holdsTree_of_flagsOk ⟨fun _ => h, fun hc => absurd hc (by simp [built, Status.treeBuilt])⟩ rfl he

/-- The bits `ENC_RUN` packs for a counted byte are a path to its leaf, in every core with the same tree. -/
theorem leadsTo_symBits {s r : State} {tree : Tree} (h : buildTree s.params.phSym s.freq = .ok tree)
    (he : tree.empty = false) {x : Byte} (hx : s.freqOf x ≠ 0) :
    LeadsTo (built r tree).nodeAt tree.root ((derived (built s tree)).symBits x) x := by
  obtain ⟨m, htree⟩ := built_holdsTree h he
  have hne : Table.get (built s tree).derivedCodes x ≠ [] := (htree.derivedCodes_ne_nil_iff he x).2 hx
  rw [State.symBits, codeOf_derived, if_neg hne]
  exact htree.leadsTo_congr (t := built r tree) rfl htree.root_lt (leadsTo_derivedCodes hne)

/-- Without a tree no byte is counted (41 R98). -/
theorem freqOf_of_buildTree_empty {s : State} {ph : Byte} {tree : Tree} (h : buildTree ph s.freq = .ok tree)
    (he : tree.empty = true) (x : Byte) : s.freqOf x = 0 := by
  rw [buildTree_empty h, beq_iff_eq, distinctCount, List.countP_eq_zero] at he
  simpa [State.freqOf] using he x (mem_allSyms x)

/-- The walk of `DEC_RUN` over the encoded bits of a counted input gives the input. -/
theorem decodeResult_of_payload {s r : State} {tree : Tree} {bytes : List Byte}
    (hbuild : buildTree s.params.phSym s.freq = .ok tree) (hrbuild : buildTree r.params.phSym r.freq = .ok tree)
    (hcounted : ∀ x ∈ bytes, s.freqOf x ≠ 0) (hsize : r.regs.origSize.toNat = bytes.length)
    (hpayload : r.payloadBits = bytes.flatMap (derived (built s tree)).symBits) :
    decodeResult (built r tree) = (bytes, (bytes.flatMap (derived (built s tree)).symBits).length) := by
  rw [decodeResult]
  cases he : tree.empty with
  | true =>
    have hnone : bytes = [] := List.eq_nil_iff_forall_not_mem.2 fun x hx =>
      hcounted x hx (freqOf_of_buildTree_empty hbuild he x)
    rw [if_pos (by exact he), hnone]
    rfl
  | false =>
    obtain ⟨m, htree⟩ := built_holdsTree hrbuild he
    rw [if_neg (by simp [built, Status.treeBuilt, he])]
    have hwalk := decodeBits_flatMap htree.root_internal fun x hx => leadsTo_symBits (r := r) hbuild he (hcounted x hx)
    rw [← hpayload, ← hsize] at hwalk
    rw [← hpayload]
    exact hwalk

/-! ## The encoding core -/

/-- The commands of the encoding core before `ENC_RUN` leave its input counted, and the tree and the codes of its counts. -/
theorem encodingCore_run {s t : State} (hcap : s.regs.inLen.toNat ≤ s.params.ibufCap)
    (hrun : runCommands [.ftClear, .ftAccbuf, .tbBuild, .ctDerive, .encRun] s = some t)
    (herr : t.status.err = false) :
    ∃ c tree, (∀ x ∈ s.inputBytes, c.freqOf x ≠ 0) ∧ buildTree c.params.phSym c.freq = .ok tree ∧
      SameInput s (derived (built c tree)) ∧ exec .encRun (derived (built c tree)) = .next t := by
  obtain ⟨c, hcount, -, -, hcounts⟩ := clearedCountsSumToInLen s hcap
  have hbuilding : runCommands [.tbBuild, .ctDerive, .encRun] c = some t :=
    (runCommands_append _ hcount).symm.trans hrun
  have hcerr : c.status.err = false := (runCommands_sameInput (by decide) hbuilding herr).err.symm.trans herr
  obtain ⟨b, hb, hderiving⟩ := runCommands_cons hbuilding
  have hberr : b.status.err = false := (runCommands_sameInput (by decide) hderiving herr).err.symm.trans herr
  obtain ⟨_, ⟨tree, hbuild, rfl⟩, rfl, hsameb⟩ := exec_of_err_false (by decide) hb hberr
  obtain ⟨d, hd, hencoding⟩ := runCommands_cons hderiving
  obtain rfl : derived (built c tree) = d :=
    Host.Outcome.next.inj ((exec_ctDerive_of_valid (s := built c tree) rfl).symm.trans hd)
  obtain ⟨_, hexec, hlast⟩ := runCommands_cons hencoding
  obtain rfl := Option.some.inj hlast
  refine ⟨c, tree, fun x hx hzero => ?_, hbuild, ?_, hexec⟩
  · have hnone : s.inputBytes.count x = 0 := by
      rw [← hcounts, hzero]
      rfl
    exact List.count_eq_zero.1 hnone hx
  · exact (runCommands_sameInput (by decide) hcount hcerr).trans (hsameb.trans ⟨rfl, rfl, rfl, rfl⟩)

/-- An `ENC_RUN` that ends without an error had room for the codes of its input. -/
theorem encodedBits_fit {d t : State} (hp : d.params.wf = true) (hv : d.status.codesValid = true)
    (hcap : d.regs.inLen.toNat ≤ d.params.ibufCap) (hexec : exec .encRun d = .next t)
    (herr : t.status.err = false) : d.encodedBits.length ≤ 8 * d.params.obufCap := by
  by_contra hover
  obtain ⟨-, -, hfull⟩ := encRunRaisesInOrder d
  obtain ⟨u, hu, hfail⟩ := hfull hp hv hcap (Nat.not_le.1 hover)
  obtain rfl : t = u := Host.Outcome.next.inj (hexec.symm.trans hu)
  simp [hfail.err] at herr

/-! ## Both cores -/

/-- The bits of a memory depend on the bytes that hold them. -/
theorem memory_bits_congr {id id' : BufId} {m m' : Memory} {n : Nat}
    (h : ∀ a, a < (n + 7) / 8 → m.read id a = m'.read id' a) : m.bits id n = m'.bits id' n :=
  List.map_congr_left fun p hp => by
    have hlt := List.mem_range.1 hp
    rw [streamBit, streamBit, h (p / 8) (by omega)]

theorem map_range_eq_of_getD {f : Nat → Byte} {bytes : List Byte} (h : ∀ i < bytes.length, f i = bytes.getD i 0) :
    (List.range bytes.length).map f = bytes :=
  List.ext_getElem (by simp) fun i _ hi => by
    rw [List.getElem_map, List.getElem_range, h i hi, List.getD_eq_getElem _ _ hi]

/-- The decoding core builds its tree and stores the walk; when that is as long as declared, nothing is short. -/
theorem decodingCore_run {r : State} {tree : Tree} {bytes : List Byte} {used : Nat}
    (hbuild : buildTree r.params.phSym r.freq = .ok tree) (hfit : PayloadFits r)
    (hwalk : decodeResult (built r tree) = (bytes, used)) (hsize : r.regs.origSize.toNat = bytes.length)
    (hroom : bytes.length ≤ r.params.obufCap) :
    ∃ u, runCommands [.tbBuild, .decRun] r = some u ∧ u.status.err = r.status.err ∧
      u.regs.outLen = r.regs.origSize ∧ (List.range bytes.length).map (fun a => u.obuf.read .obuf a) = bytes ∧
      u.regs.brPos.toNat = used ∧ u.status.decShort = false := by
  obtain ⟨u, hexec, hlen, hpos, hstored, hshort, hframe⟩ := decRunStoresTheWalk (built r tree) bytes used rfl
    hfit.bytes hfit.bits hwalk.symm hroom
  refine ⟨u, ?_, ?_, BitVec.eq_of_toNat_eq (hlen.trans hsize.symm), map_range_eq_of_getD hstored, hpos, ?_⟩
  · simp only [runCommands, exec_tbBuild_of_ok hbuild]
    exact runCommands_singleton hexec
  · rw [hframe]
    rfl
  · rw [hshort]
    exact decide_eq_false (Nat.not_lt.2 hsize.le)

/-- Settles O50: the payload is the codes of the input in order, and the walk of the decoding core, which builds the same
tree, leads over each code to its byte. -/
theorem decodeOfEncodeIsTheInput : Obligations.DecodeOfEncodeIsTheInput := by
  intro s t r hsp _ _ hrerr hcap hrun herr hfreq hph hlen hrcap htotal horig hbytes hroom
  obtain ⟨c, tree, hcounted, hbuild, hsame, hexec⟩ := encodingCore_run hcap hrun herr
  have hp : (derived (built c tree)).params.wf = true := hsame.params ▸ hsp
  have hdcap : (derived (built c tree)).regs.inLen.toNat ≤ (derived (built c tree)).params.ibufCap := by
    rwa [hsame.inLen, hsame.params]
  obtain ⟨_, henc, hcount, hout, hbits, -, hframe⟩ :=
    encRunPacksTheCodes _ hp rfl hdcap (encodedBits_fit hp rfl hdcap hexec herr)
  obtain rfl := Host.Outcome.next.inj (hexec.symm.trans henc)
  have hlength : s.inputBytes.length = s.regs.inLen.toNat := length_inputBytes s
  have hrbuild : buildTree r.params.phSym r.freq = .ok tree := by
    rw [hph, hfreq, ← hsame.params, congrArg State.freq hframe]
    exact hbuild
  have hpayload : r.payloadBits = s.inputBytes.flatMap (derived (built c tree)).symBits := by
    calc r.payloadBits = r.ibuf.bits .ibuf (derived (built c tree)).encodedBits.length := by
          rw [State.payloadBits, htotal, hcount]
      _ = t.obuf.bits .obuf (derived (built c tree)).encodedBits.length :=
          memory_bits_congr fun a ha => hbytes a (hout ▸ ha)
      _ = s.inputBytes.flatMap (derived (built c tree)).symBits := by
          rw [hbits, State.encodedBits, hsame.inputBytes]
  have hsize : r.regs.origSize.toNat = s.inputBytes.length := by rw [horig, hlength]
  have hfit : PayloadFits r := ⟨by rw [htotal, hcount, hlen, hout], hrcap⟩
  obtain ⟨u, hurun, huerr, hulen, hustored, hupos, hushort⟩ := decodingCore_run hrbuild hfit
    (decodeResult_of_payload hbuild hrbuild hcounted hsize hpayload) hsize (hlength ▸ hroom)
  refine ⟨u, hurun, huerr.trans hrerr, hulen.trans horig, hlength ▸ hustored, ?_, hushort⟩
  rw [← hsame.inputBytes] at hupos
  exact BitVec.eq_of_toNat_eq (hupos.trans hcount.symm)

end Sys2Proof.Laws
end

section
/-! PROOFS. The sequencer's turn and the two system commands (45 R150, R154, R155, 70 R202), and the host's accesses to
`CMD` (45 R151) and, while a command runs, to everything else (45 R153, 10 R14). -/

namespace Sys2Proof.Laws

open Sys2Proof.Machine

/-! ## The sequencer's turn -/

/-- With `rst_n` high, a command in progress and the host waiting, the step is the command's complete event. -/
theorem step_of_sequencer {s : State} (hrst : s.rstN = true) (hbusy : s.status.busy = true)
    (hyields : s.hostYields = true) : step s = perform s :=
  if_pos (by simp only [State.sequencerMoves, hrst, hbusy, hyields, Bool.and_self])

theorem perform_of_decode {s : State} {i : Instr} (h : decode s.cmd = .ok i) : perform s = exec i s := by
  simp only [perform, fetch, h]

/-- Settles O8: the step is the complete event, and that performs the decoded command. -/
theorem stepPerformsTheLatchedCommand : Obligations.StepPerformsTheLatchedCommand := by
  intro s i hrst hbusy hyields hdecode
  calc step s = perform s := step_of_sequencer hrst hbusy hyields
    _ = exec i s := perform_of_decode hdecode

/-! ## A write to `CMD` -/

theorem accepts_iff (s : State) (w : Word) :
    s.accepts w = true ↔ s.status.busy = false ∧ (s.status.err = false ∨ w = encode .sessionReset) := by
  rw [State.accepts, Bool.and_eq_true, Bool.or_eq_true, Bool.not_eq_true', Bool.not_eq_true', beq_iff_eq]

theorem issue_of_accepts {s : State} {w : Word} (h : s.accepts w = true) : issue w s = accept w s := if_pos h

theorem issue_of_not_accepts {s : State} {w : Word} (h : ¬ s.accepts w = true) :
    issue w s = { s with status := { s.status with ovr := true } } := if_neg h

/-- Settles O11: the write reaches `issue`, whose two cases are those of the statement. -/
theorem cmdWriteIsAcceptedOrDropped : Obligations.CmdWriteIsAcceptedOrDropped := by
  intro s w rest hrst hhost
  have hstep : step s = .next (issue w { s with host := rest }) := step_of_regWrite hrst hhost
  refine ⟨fun hbusy hword => ?accepted, fun hdrop => ?dropped⟩
  case accepted =>
    exact hstep.trans (congrArg _ (issue_of_accepts ((accepts_iff _ w).2 ⟨hbusy, hword⟩)))
  case dropped =>
    refine hstep.trans (congrArg _ (issue_of_not_accepts fun hacc => ?_))
    obtain ⟨hidle, hword⟩ := (accepts_iff _ w).1 hacc
    rcases hdrop with hbusy | ⟨herr, hw⟩
    · exact ne_true_of_eq_false hidle hbusy
    · exact hword.elim (ne_true_of_eq_false · herr) hw

/-! ## Accesses while a command runs -/

theorem regAt_eq_none {idx : BitVec 8} (h : ∀ r : RegName, r.index ≠ idx) : regAt idx = none :=
  Option.eq_none_iff_forall_ne_some.2 fun r hr => h r (regAt_some hr).symm

/-- While a command runs, a register write changes nothing but by way of `CMD`, `STATUS` and `IRQ_EN` (45 R153). -/
theorem hostRegWrite_busy {idx : BitVec 8} (v : Word) {s : State} (hbusy : s.status.busy = true)
    (hcmd : idx ≠ RegName.cmd.index) (hstatus : idx ≠ RegName.status.index) (hirq : idx ≠ RegName.irqEn.index) :
    hostRegWrite idx v s = s := by
  cases hr : regAt idx with
  | none => simp only [hostRegWrite, hr]
  | some r =>
    obtain rfl := regAt_some hr
    cases r with
    | cmd => exact absurd rfl hcmd
    | status => exact absurd rfl hstatus
    | irqEn => exact absurd rfl hirq
    | inLen | origSize | totalBits | fdata => exact if_pos hbusy
    | _ => rfl

theorem hostRegRead_reserved {idx : BitVec 8} (h : regAt idx = none) (s : State) :
    hostRegRead idx s = { s with regRdata := 0 } := by
  simp only [hostRegRead, h]

/-- An always-accessible register reads as its value, also while a command runs (10 R14). -/
theorem hostRegRead_alwaysAccessible {r : RegName} (h : r.alwaysAccessible = true) (s : State) :
    hostRegRead r.index s = { s with regRdata := s.regValue r } := by
  simp [hostRegRead, regAt_index, h]

/-- While a command runs, a read of a data register puts a free value on the port (45 R153, logs 5, 12). -/
theorem hostRegRead_busy {r : RegName} {s : State} (hbusy : s.status.busy = true) (h : r.alwaysAccessible = false) :
    hostRegRead r.index s = { s with regRdata := Config.free s.draws .portWord 64, draws := s.draws + 1 } := by
  simp [hostRegRead, regAt_index, hbusy, h]

theorem hostBufWrite_busy (id : BufId) (a : Word) (v : Byte) {s : State} (hbusy : s.status.busy = true) :
    hostBufWrite id a v s = s := if_pos (.inl hbusy)

/-- While a command runs, a read of a buffer puts a free value on the port (45 R153, log 5). -/
theorem hostBufRead_busy (id : BufId) (a : Word) {s : State} (hbusy : s.status.busy = true) :
    hostBufRead id a s = { s with bufRdata := Config.free s.draws .portByte 8, draws := s.draws + 1 } :=
  if_pos (.inl hbusy)

/-- Settles O15: access by access, with the busy case of each. -/
theorem dataAccessesWhileBusyAreDropped : Obligations.DataAccessesWhileBusyAreDropped := by
  intro s a rest hrst hhost hbusy
  refine ⟨?regWrite, ?irqEn, ?bufWrite, ?dataRead, ?alwaysRead, ?reservedRead, ?bufRead⟩
  case regWrite =>
    rintro idx v rfl hcmd hstatus hirq
    rw [step_of_regWrite hrst hhost, hostRegWrite_busy v (by exact hbusy) hcmd hstatus hirq]
  case irqEn =>
    rintro v rfl
    exact step_of_regWrite hrst hhost
  case bufWrite =>
    rintro id x v rfl
    rw [step_of_access hhost (by simp), hostAccess, unlessReset_high _ (by exact hrst),
      hostBufWrite_busy id x v (by exact hbusy)]
  case dataRead =>
    rintro r rfl hdata
    rw [step_of_access hhost (by simp), hostAccess, hostRegRead_busy (by exact hbusy) hdata]
    exact ⟨_, rfl⟩
  case alwaysRead =>
    rintro r rfl halways
    rw [step_of_access hhost (by simp), hostAccess, hostRegRead_alwaysAccessible halways]
    rfl
  case reservedRead =>
    rintro idx rfl hreserved
    rw [step_of_access hhost (by simp), hostAccess, hostRegRead_reserved (regAt_eq_none hreserved)]
  case bufRead =>
    rintro id x rfl
    rw [step_of_access hhost (by simp), hostAccess, hostBufRead_busy id x (by exact hbusy)]
    exact ⟨_, rfl⟩

/-! ## System commands -/

/-- Settles O18: the command completes with the state it started from. -/
theorem nopWritesOnlyTheHandshake : Obligations.NopWritesOnlyTheHandshake :=
  ⟨decodeOfEncodeIsTheCommand .nop rfl, fun _ => exec_of_ok (i := .nop) rfl⟩

/-- Settles O19: the command completes with the state of the return from reset (70 R202). -/
theorem sessionResetKeepsOnlyIrqEnAndBuffers : Obligations.SessionResetKeepsOnlyIrqEnAndBuffers :=
  ⟨decodeOfEncodeIsTheCommand .sessionReset rfl, fun s => exec_of_ok (t := sessionReset s) rfl⟩

end Sys2Proof.Laws
end

section
/-! PROOFS. The container format (46 R160, R161, R165): the little-endian numbers, where each field stands among a
container's bytes, and what the parser makes of a whole container and of a truncated one. -/

namespace Sys2Proof.Laws

open Sys2Proof.Machine

/-! ## Little-endian numbers -/

@[simp] theorem length_leBytes (n v : Nat) : (leBytes n v).length = n := by simp [leBytes]

theorem leBytes_succ (n v : Nat) : leBytes (n + 1) v = BitVec.ofNat 8 v :: leBytes n (v / 256) := by
  have hshift : ∀ i, v >>> (8 * (i + 1)) = (v / 256) >>> (8 * i) := fun i => by
    rw [Nat.mul_succ, Nat.add_comm, Nat.shiftRight_add, Nat.shiftRight_eq_div_pow v 8]
  simp [leBytes, List.range_succ_eq_map, Function.comp_def, hshift]

/-- The bytes of a number are read back as its low bits. -/
theorem ofLeBytes_leBytes (n v : Nat) : ofLeBytes (leBytes n v) = v % 256 ^ n := by
  induction n generalizing v with
  | zero => simp [leBytes, ofLeBytes, Nat.mod_one]
  | succ n ih =>
    calc ofLeBytes (leBytes (n + 1) v)
      _ = (BitVec.ofNat 8 v).toNat + 256 * ofLeBytes (leBytes n (v / 256)) := by rw [leBytes_succ]; rfl
      _ = v % 256 + 256 * (v / 256 % 256 ^ n) := by rw [ih, BitVec.toNat_ofNat]
      _ = v % 256 ^ (n + 1) := by rw [Nat.pow_succ', Nat.mod_mul]

theorem ofLeBytes_leBytes_toNat {w : Nat} (n : Nat) (v : BitVec w) (h : 2 ^ w = 256 ^ n) :
    ofLeBytes (leBytes n v.toNat) = v.toNat := by
  rw [ofLeBytes_leBytes, Nat.mod_eq_of_lt (h ▸ v.isLt)]

/-! ## Slices -/

/-- Behind a known beginning a slice is a slice of what follows it. -/
theorem slice_append_of_le {a : List Byte} (b : List Byte) {o : Nat} (n : Nat) (h : a.length ≤ o) :
    slice (a ++ b) o n = slice b (o - a.length) n := by
  rw [slice, List.drop_append, List.drop_eq_nil_of_le h, List.nil_append, slice]

theorem slice_append_zero {a : List Byte} (b : List Byte) {n : Nat} (h : a.length = n) : slice (a ++ b) 0 n = a := by
  rw [slice, List.drop_zero, List.take_left' h]

/-- Cutting off the end leaves the slices before it as they were. -/
theorem slice_take {bs : List Byte} {o n m : Nat} (h : o + n ≤ m) : slice (bs.take m) o n = slice bs o n := by
  rw [slice, List.drop_take, List.take_take, min_eq_left (by omega), slice]

/-! ## The symbol table -/

@[simp] theorem length_pairBytes (p : Byte × Word) : (pairBytes p).length = 9 := by simp [pairBytes]

theorem length_flatMap_pairBytes (pairs : List (Byte × Word)) :
    (pairs.flatMap pairBytes).length = 9 * pairs.length := by
  simp [List.length_flatMap, Nat.mul_comm]

/-- Where a pair stands in the symbol table: the bytes of the pairs before it have the length of their number. -/
theorem slice_pairs {pairs : List (Byte × Word)} (rest : List Byte) {i : Nat} (hi : i < pairs.length) (o n : Nat) :
    ∃ more, slice (pairs.flatMap pairBytes ++ rest) (9 * i + o) n = slice (pairBytes pairs[i] ++ more) o n := by
  have hsplit : pairs.flatMap pairBytes =
      (pairs.take i).flatMap pairBytes ++ (pairBytes pairs[i] ++ (pairs.drop (i + 1)).flatMap pairBytes) := by
    conv_lhs => rw [← List.take_append_drop i pairs, List.drop_eq_getElem_cons hi]
    rw [List.flatMap_append, List.flatMap_cons]
  have hlen : ((pairs.take i).flatMap pairBytes).length = 9 * i := by
    rw [length_flatMap_pairBytes, List.length_take, min_eq_left hi.le]
  refine ⟨(pairs.drop (i + 1)).flatMap pairBytes ++ rest, ?_⟩
  rw [hsplit, List.append_assoc, List.append_assoc, slice_append_of_le _ _ (by omega), hlen, Nat.add_sub_cancel_left]

/-! ## Where the fields of a container stand -/

section

variable (magic : Vector Byte 4) (c : Container) (extra : List Byte)

theorem length_containerBytes : (c.bytes magic).length = 28 + 9 * c.pairs.length + c.payload.length := by
  simp [Container.bytes]
  omega

theorem containerBytes_append : c.bytes magic ++ extra =
    magic.toList ++ (leBytes 8 c.originalSize.toNat ++ (leBytes 4 c.checksum.toNat ++ (leBytes 4 c.pairs.length ++
      (c.pairs.flatMap pairBytes ++ (leBytes 8 c.totalBits.toNat ++ (c.payload ++ extra)))))) := by
  simp only [Container.bytes, List.append_assoc]

theorem slice_magic : slice (c.bytes magic ++ extra) 0 4 = magic.toList := by
  simp [containerBytes_append, slice_append_zero]

theorem slice_originalSize : slice (c.bytes magic ++ extra) 4 8 = leBytes 8 c.originalSize.toNat := by
  simp [containerBytes_append, slice_append_of_le, slice_append_zero]

theorem slice_checksum : slice (c.bytes magic ++ extra) 12 4 = leBytes 4 c.checksum.toNat := by
  simp [containerBytes_append, slice_append_of_le, slice_append_zero]

theorem slice_count : slice (c.bytes magic ++ extra) 16 4 = leBytes 4 c.pairs.length := by
  simp [containerBytes_append, slice_append_of_le, slice_append_zero]

/-- Behind the first 20 bytes stand the pairs, `total_bits` and the payload. -/
theorem slice_symbolTable (o n : Nat) : slice (c.bytes magic ++ extra) (20 + o) n =
    slice (c.pairs.flatMap pairBytes ++ (leBytes 8 c.totalBits.toNat ++ (c.payload ++ extra))) o n := by
  have hlen : (magic.toList ++ leBytes 8 c.originalSize.toNat ++ leBytes 4 c.checksum.toNat ++
      leBytes 4 c.pairs.length).length = 20 := by simp
  rw [containerBytes_append, ← List.append_assoc, ← List.append_assoc, ← List.append_assoc,
    slice_append_of_le _ _ (by omega), hlen, Nat.add_sub_cancel_left]

theorem slice_totalBits :
    slice (c.bytes magic ++ extra) (20 + 9 * c.pairs.length) 8 = leBytes 8 c.totalBits.toNat := by
  have hlen := length_flatMap_pairBytes c.pairs
  rw [slice_symbolTable, slice_append_of_le _ _ hlen.le, hlen, Nat.sub_self, slice_append_zero _ (length_leBytes ..)]

theorem slice_payload :
    slice (c.bytes magic ++ extra) (28 + 9 * c.pairs.length) c.payload.length = c.payload := by
  have hlen : (c.pairs.flatMap pairBytes ++ leBytes 8 c.totalBits.toNat).length = 9 * c.pairs.length + 8 := by
    rw [List.length_append, length_flatMap_pairBytes, length_leBytes]
  rw [show 28 + 9 * c.pairs.length = 20 + (9 * c.pairs.length + 8) by omega, slice_symbolTable, ← List.append_assoc,
    slice_append_of_le _ _ hlen.le, hlen, Nat.sub_self, slice_append_zero _ rfl]

theorem pairAt_containerBytes {i : Nat} (hi : i < c.pairs.length) : pairAt (c.bytes magic ++ extra) i = c.pairs[i] := by
  obtain ⟨_, hsym⟩ := slice_pairs (leBytes 8 c.totalBits.toNat ++ (c.payload ++ extra)) hi 0 1
  obtain ⟨_, hfreq⟩ := slice_pairs (leBytes 8 c.totalBits.toNat ++ (c.payload ++ extra)) hi 1 8
  rw [pairAt, show 21 + 9 * i = 20 + (9 * i + 1) by omega, slice_symbolTable, slice_symbolTable, hfreq,
    ← Nat.add_zero (9 * i), hsym]
  refine Prod.ext ?sym ?freq
  case sym => simp [pairBytes, slice, ofLeBytes]
  case freq => simp [pairBytes, slice, ofLeBytes_leBytes_toNat]

theorem map_pairAt_containerBytes : (List.range c.pairs.length).map (pairAt (c.bytes magic ++ extra)) = c.pairs :=
  List.ext_getElem (by simp) fun i _ hi => by
    rw [List.getElem_map, List.getElem_range, pairAt_containerBytes magic c extra hi]

end

/-! ## The parser, by cases -/

section

variable {magic : Vector Byte 4} {bs : List Byte} {sc tb : Nat}

/-- Without the fixed part up to `symbol_count` there is nothing to parse (46 R165). -/
theorem parseContainer_of_short (h : bs.length < 20) : parseContainer magic bs = .error .formatError := if_pos h

variable (hmagic : slice bs 0 4 = magic.toList) (hsc : ofLeBytes (slice bs 16 4) = sc)

include hmagic hsc

theorem parseContainer_of_short_table (h : bs.length < 28 + 9 * sc) :
    parseContainer magic bs = .error .formatError := by
  by_cases h20 : bs.length < 20
  · exact parseContainer_of_short h20
  · simp only [parseContainer]
    rw [if_neg h20, if_neg (not_not.2 hmagic), hsc, if_pos (by omega)]

variable (htb : ofLeBytes (slice bs (20 + 9 * sc) 8) = tb)

include htb

theorem parseContainer_of_short_payload (h : bs.length < 28 + 9 * sc + ceil8Nat tb) :
    parseContainer magic bs = .error .formatError := by
  by_cases htable : bs.length < 28 + 9 * sc
  · exact parseContainer_of_short_table hmagic hsc htable
  · simp only [parseContainer]
    rw [if_neg (by omega), if_neg (not_not.2 hmagic), hsc, if_neg (by omega), htb, if_pos (by omega)]

/-- With every byte its counts ask for, a container parses. -/
theorem parseContainer_of_le (h : 28 + 9 * sc + ceil8Nat tb ≤ bs.length) : parseContainer magic bs = .ok
    { originalSize := BitVec.ofNat 64 (ofLeBytes (slice bs 4 8))
      checksum := BitVec.ofNat 32 (ofLeBytes (slice bs 12 4))
      pairs := (List.range sc).map (pairAt bs)
      totalBits := BitVec.ofNat 64 tb
      payload := slice bs (28 + 9 * sc) (ceil8Nat tb) } := by
  simp only [parseContainer]
  rw [if_neg (by omega), if_neg (not_not.2 hmagic), hsc, if_neg (by omega), htb, if_neg (by omega)]

end

/-! ## The obligations -/

theorem ofLeBytes_count {n : Nat} (h : n < 2 ^ 32) : ofLeBytes (leBytes 4 n) = n := by
  rw [ofLeBytes_leBytes]
  exact Nat.mod_eq_of_lt h

/-- Settles O58: the counts ask for no more bytes than there are, and each field is read back where it stands. -/
theorem parseOfContainerBytes : Obligations.ParseOfContainerBytes := by
  intro magic c extra hcount hpayload
  have hsc : ofLeBytes (slice (c.bytes magic ++ extra) 16 4) = c.pairs.length := by
    rw [slice_count, ofLeBytes_count hcount]
  have htb : ofLeBytes (slice (c.bytes magic ++ extra) (20 + 9 * c.pairs.length) 8) = c.totalBits.toNat := by
    rw [slice_totalBits, ofLeBytes_leBytes_toNat 8 c.totalBits rfl]
  have hlen : 28 + 9 * c.pairs.length + ceil8Nat c.totalBits.toNat ≤ (c.bytes magic ++ extra).length := by
    rw [List.length_append, length_containerBytes, hpayload]
    exact Nat.le_add_right ..
  rw [parseContainer_of_le (slice_magic magic c extra) hsc htb hlen, slice_originalSize, slice_checksum,
    map_pairAt_containerBytes, ← hpayload, slice_payload, ofLeBytes_leBytes_toNat 8 c.originalSize rfl,
    ofLeBytes_leBytes_toNat 4 c.checksum rfl, BitVec.ofNat_toNat, BitVec.ofNat_toNat, BitVec.ofNat_toNat]
  simp

/-- Settles O59: what is left of the counts is what the container has, and asks for more bytes than are left. -/
theorem truncatedContainersAreRejected : Obligations.TruncatedContainersAreRejected := by
  intro magic c hcount hpayload
  have hlen := hpayload ▸ length_containerBytes magic c
  refine ⟨hlen, fun n hn => ?_⟩
  have hcut : ((c.bytes magic).take n).length = n := List.length_take_of_le hn.le
  have hkept : ∀ {o k}, o + k ≤ n → slice ((c.bytes magic).take n) o k = slice (c.bytes magic ++ []) o k :=
    fun h => by rw [slice_take h, List.append_nil]
  by_cases h20 : n < 20
  · exact parseContainer_of_short (by omega)
  have hmagic : slice ((c.bytes magic).take n) 0 4 = magic.toList := by rw [hkept (by omega), slice_magic]
  have hsc : ofLeBytes (slice ((c.bytes magic).take n) 16 4) = c.pairs.length := by
    rw [hkept (by omega), slice_count, ofLeBytes_count hcount]
  by_cases htable : n < 28 + 9 * c.pairs.length
  · exact parseContainer_of_short_table hmagic hsc (by omega)
  have htb : ofLeBytes (slice ((c.bytes magic).take n) (20 + 9 * c.pairs.length) 8) = c.totalBits.toNat := by
    rw [hkept (by omega), slice_totalBits, ofLeBytes_leBytes_toNat 8 c.totalBits rfl]
  exact parseContainer_of_short_payload hmagic hsc htb (by omega)

end Sys2Proof.Laws
end

section
/-! PROOFS. The host's encode sequence on the empty input (46 R162, R173): what the machine plays of a host's accesses,
what a command of a script leaves behind, and the read-outs after an `ENCODE` that counted nothing. -/

namespace Sys2Proof.Laws

open Sys2Proof.Machine

/-! ## Playing accesses -/

theorem advance_of_step {s t : State} (h : step s = .next t) : advance s = t := by simp only [advance, h]

/-- `s` with these accesses for the host still to make. -/
def withHost (s : State) (accesses : List HostAccess) : State := { s with host := accesses }

/-- An idle core with nothing to do stays as it is (70 R204). -/
theorem advanceBy_of_idle {s : State} (hbusy : s.status.busy = false) (n : Nat) :
    advanceBy n (withHost s []) = withHost s [] := by
  have hstep : step (withHost s []) = .next (withHost s []) := by
    simp [step, State.sequencerMoves, withHost, hbusy, hostTurn]
  induction n with
  | zero => rfl
  | succ n ih => rw [advanceBy, advance_of_step hstep, ih]

/-- An access other than a wait takes one step. -/
theorem advanceBy_access (s : State) {a : HostAccess} (rest : List HostAccess) (ha : a ≠ .wait) (n : Nat) :
    advanceBy (n + 1) (withHost s (a :: rest)) = advanceBy n (hostAccess a (withHost s rest)) := by
  rw [advanceBy, advance_of_step (step_of_access rfl ha)]
  rfl

theorem decode_encode (i : Instr) : decode (encode i) = .ok i := by
  rw [decode_of_masked (rowShape i), withFields_encode]

/-- The state in which a command the host issues and waits for is performed (45 R150). -/
def issued (i : Instr) (rest : List HostAccess) (s : State) : State := accept (encode i) (withHost s (.wait :: rest))

/-- An accepted command with its wait takes three steps: accept, complete, and the end of the wait. -/
theorem advanceBy_command {i : Instr} {s t : State} {rest : List HostAccess} (hrst : s.rstN = true)
    (hacc : s.accepts (encode i) = true) (hexec : exec i (issued i rest s) = .next t) (n : Nat) :
    advanceBy (n + 3) (withHost s (commandAccesses i ++ rest)) = advanceBy n (withHost t rest) := by
  have haccept : step (withHost s (commandAccesses i ++ rest)) = .next (issued i rest s) := by
    rw [step_of_regWrite (s := withHost s (commandAccesses i ++ rest)) hrst rfl, hostRegWrite, regAt_index]
    exact congrArg _ (issue_of_accepts hacc)
  have hcomplete : step (issued i rest s) = .next t := by
    rw [step_of_sequencer (s := issued i rest s) hrst rfl rfl]
    exact (perform_of_decode (decode_encode i)).trans hexec
  obtain ⟨-, -, -, hhost, -, -, -, hbusy, -⟩ := noCommandTouchesIbufOrIrqEn i _ _ hexec
  have hwait : step t = .next (withHost t rest) := by
    simp [step, State.sequencerMoves, hbusy, hostTurn_of_access (hhost : t.host = .wait :: rest), hostAccess, withHost]
  simp only [advanceBy, advance_of_step haccept, advance_of_step hcomplete, advance_of_step hwait]

/-! ## A core at rest with an empty input -/

/-- The core is out of reset, idle and without an error, and `IN_LEN` is 0. -/
structure EmptyInput (s : State) : Prop where
  params : s.params.wf = true
  rstN : s.rstN = true
  idle : s.status.busy = false
  noError : s.status.err = false
  inLen : s.regs.inLen = 0

/-- What the host does before `ENCODE` when the input is empty (46 R162). -/
def loadOfEmpty : List HostAccess :=
  commandAccesses .sessionReset ++ loadAccesses 0 [] ++
    [.regWrite RegName.inLen.index (BitVec.ofNat 64 ([] : List Byte).length)]

/-- `SESSION_RESET` and the write of `IN_LEN` bring any idle core there, also one in error. -/
theorem emptyInput_of_load {s : State} (hp : s.params.wf = true) (hrst : s.rstN = true)
    (hidle : s.status.busy = false) : EmptyInput (play loadOfEmpty s) := by
  have hreset : exec .sessionReset (issued .sessionReset [.regWrite RegName.inLen.index 0] s) =
      .next (complete (sessionReset (issued .sessionReset [.regWrite RegName.inLen.index 0] s))) := rfl
  have hplay : play loadOfEmpty s =
      advanceBy 3 (hostAccess (.regWrite RegName.inLen.index 0) (withHost (complete (sessionReset s)) [])) :=
    (advanceBy_command hrst ((accepts_iff _ _).2 ⟨hidle, .inr rfl⟩) hreset 4).trans
      (advanceBy_access _ [] (by simp) 3)
  rw [hplay, hostAccess, unlessReset_high _ (by exact hrst)]
  change EmptyInput (advanceBy 3 (withHost (complete (sessionReset s)) []))
  rw [advanceBy_of_idle rfl]
  exact ⟨hp, hrst, rfl, rfl, rfl⟩

section

variable {s t : State} (h : EmptyInput s)

include h

/-- What the host finds after a command and its wait. -/
theorem EmptyInput.play_command {i : Instr} (hexec : exec i (issued i [] s) = .next t) :
    play (commandAccesses i) s = withHost t [] := by
  obtain ⟨-, -, -, -, -, -, -, hbusy, -⟩ := noCommandTouchesIbufOrIrqEn i _ _ hexec
  calc play (commandAccesses i) s = advanceBy 2 (withHost t []) :=
        advanceBy_command h.rstN ((accepts_iff _ _).2 ⟨h.idle, .inl h.noError⟩) hexec 2
    _ = withHost t [] := advanceBy_of_idle hbusy 2

/-- A command that completes without an error keeps `EmptyInput`. -/
theorem EmptyInput.after_command {i : Instr} (hi : i ≠ .sessionReset) (hexec : exec i (issued i [] s) = .next t)
    (herr : t.status.err = false) : EmptyInput (play (commandAccesses i) s) := by
  obtain ⟨-, -, hparams, -, -, -, hrst, hbusy, -⟩ := noCommandTouchesIbufOrIrqEn i _ _ hexec
  obtain ⟨_, -, -, hsame⟩ := exec_of_err_false hi hexec herr
  rw [h.play_command hexec]
  exact ⟨hparams ▸ h.params, hrst.trans h.rstN, hbusy, herr, hsame.inLen.trans h.inLen⟩

/-- A register is read as its value, and the read changes nothing else of the core (10 R14). -/
theorem EmptyInput.readRegister_eq (r : RegName) :
    readRegister r s = withHost { s with regRdata := s.regValue r } [] := by
  have hread : hostAccess (.regRead r.index) (withHost s []) = withHost { s with regRdata := s.regValue r } [] := by
    rw [hostAccess, hostRegRead_idle _ (by exact h.idle), regAt_index]
    rfl
  calc readRegister r s = advanceBy 2 (hostAccess (.regRead r.index) (withHost s [])) :=
        advanceBy_access s [] (by simp) 2
    _ = withHost { s with regRdata := s.regValue r } [] := by
        rw [hread]
        exact advanceBy_of_idle (s := { s with regRdata := s.regValue r }) h.idle 2

end

/-! ## `ENCODE` of an empty input -/

theorem exec_ftAccbuf_of_empty {s : State} (h : s.regs.inLen = 0) :
    exec .ftAccbuf s = .next (complete (tableChanged s)) := by
  refine exec_of_ok ?_
  rw [body, ftAccbuf_of_le (by simp [h]), h]
  rfl

theorem exec_encRun_of_empty {s : State} (hp : s.params.wf = true) (hv : s.status.codesValid = true)
    (h : s.regs.inLen = 0) : exec .encRun s = .next (complete (flushed (bwReset s))) := by
  refine exec_of_ok ?_
  rw [body_encRun_of_le hv (by simp [h]), h]
  exact bwFlush_of_ready (bwReset_writerReady hp)

/-- `EmptyInput`, and no symbol is counted in the frequency table. -/
structure EmptyTable (s : State) : Prop extends EmptyInput s where
  zero : ∀ x, s.freqOf x = 0

/-- `EmptyTable`, and the bit writer has published a stream of no bits. -/
structure EmptyOutput (s : State) : Prop extends EmptyTable s where
  bwBits : s.regs.bwBits = 0
  outLen : s.regs.outLen = 0

theorem EmptyInput.after_ftClear {s : State} (h : EmptyInput s) : EmptyTable (play (commandAccesses .ftClear) s) := by
  refine ⟨h.after_command (by decide) (exec_ftClear _) h.noError, ?_⟩
  rw [h.play_command (exec_ftClear _)]
  exact freqOf_cleared (issued .ftClear [] s)

section

variable {s : State} (h : EmptyTable s)

include h

/-- A command that completes without an error and keeps the table leaves it empty. -/
theorem EmptyTable.after_command {i : Instr} {t : State} (hi : i ≠ .sessionReset)
    (hexec : exec i (issued i [] s) = .next t) (herr : t.status.err = false) (hfreq : t.freq = s.freq) :
    EmptyTable (play (commandAccesses i) s) := by
  refine ⟨h.toEmptyInput.after_command hi hexec herr, ?_⟩
  rw [h.play_command hexec]
  exact fun x => (congrArg (Table.get · x) hfreq).trans (h.zero x)

theorem EmptyTable.after_ftAccbuf : EmptyTable (play (commandAccesses .ftAccbuf) s) :=
  h.after_command (by decide) (exec_ftAccbuf_of_empty h.inLen) h.noError rfl

theorem EmptyTable.after_tbBuild :
    EmptyTable (play (commandAccesses .tbBuild) s) ∧
      (play (commandAccesses .tbBuild) s).status.treeValid = true := by
  have hexec := tbBuildOfEmptyTable (issued .tbBuild [] s) h.zero
  refine ⟨h.after_command (by decide) hexec h.noError rfl, ?_⟩
  rw [h.play_command hexec]
  rfl

theorem EmptyTable.after_ctDerive (hvalid : s.status.treeValid = true) :
    EmptyTable (play (commandAccesses .ctDerive) s) ∧
      (play (commandAccesses .ctDerive) s).status.codesValid = true := by
  have hexec := exec_ctDerive_of_valid (s := issued .ctDerive [] s) hvalid
  refine ⟨h.after_command (by decide) hexec h.noError rfl, ?_⟩
  rw [h.play_command hexec]
  rfl

theorem EmptyTable.after_encRun (hvalid : s.status.codesValid = true) :
    EmptyOutput (play (commandAccesses .encRun) s) := by
  have hexec := exec_encRun_of_empty (s := issued .encRun [] s) h.params hvalid h.inLen
  refine ⟨h.after_command (by decide) hexec h.noError rfl, ?_, ?_⟩
  · rw [h.play_command hexec]
    rfl
  · rw [h.play_command hexec]
    exact (by decide : ceil8 0 = 0)

end

/-- A script goes on after a command that leaves no error. -/
theorem runStmts_command {st : Stmt} {i : Instr} {s : State} (rest : List Stmt)
    (hst : stmtAccesses st = commandAccesses i) (h : EmptyInput (play (commandAccesses i) s)) :
    runStmts (st :: rest) s = runStmts rest (play (commandAccesses i) s) := by
  rw [← hst] at h ⊢
  exact runStmts_goes_on rest (by simp [completedInError, h.noError])

/-- The five commands `ENCODE` stands for, one after another (30 R67). -/
theorem EmptyInput.after_encode {s : State} (h : EmptyInput s) : EmptyOutput (runScript [.encode] s) := by
  have hcleared := h.after_ftClear
  have hcounted := hcleared.after_ftAccbuf
  obtain ⟨hbuilt, htree⟩ := hcounted.after_tbBuild
  obtain ⟨hderived, hcodes⟩ := hbuilt.after_ctDerive htree
  have hencoded := hderived.after_encRun hcodes
  change EmptyOutput (runStmts
    [.cmd .ftClear none, .cmd .ftAccbuf none, .cmd .tbBuild none, .cmd .ctDerive none, .cmd .encRun none] s)
  rwa [runStmts_command _ rfl hcleared.toEmptyInput, runStmts_command _ rfl hcounted.toEmptyInput,
    runStmts_command _ rfl hbuilt.toEmptyInput, runStmts_command _ rfl hderived.toEmptyInput,
    runStmts_command _ rfl hencoded.toEmptyInput]

/-! ## The read-outs -/

theorem EmptyTable.after_read {s : State} (h : EmptyTable s) (r : RegName) : EmptyTable (readRegister r s) := by
  rw [h.readRegister_eq]
  exact ⟨⟨h.params, h.rstN, h.idle, h.noError, h.inLen⟩, h.zero⟩

theorem EmptyOutput.after_read {s : State} (h : EmptyOutput s) (r : RegName) : EmptyOutput (readRegister r s) := by
  have ht := h.toEmptyTable.after_read r
  have heq := h.readRegister_eq r
  exact ⟨ht, heq ▸ h.bwBits, heq ▸ h.outLen⟩

theorem EmptyInput.regRdata_readRegister {s : State} (h : EmptyInput s) (r : RegName) :
    (readRegister r s).regRdata = s.regValue r := by
  rw [h.readRegister_eq]
  rfl

theorem EmptyTable.nsym {s : State} (h : EmptyTable s) : s.regValue .nsym = 0 := by
  rw [State.regValue, ← distinctLeaves_length, distinctLeaves_of_zero h.zero]
  rfl

/-- `FT_READ` of any symbol gives 0, so the symbol table is empty. -/
theorem EmptyTable.readTable_eq_nil (syms : List Byte) {s : State} (h : EmptyTable s) : (readTable syms s).1 = [] := by
  induction syms generalizing s with
  | nil => rfl
  | cons sym rest ih =>
    have hplay := h.play_command (i := .ftRead sym) rfl
    have hw : EmptyTable (play (commandAccesses (.ftRead sym)) s) := h.after_command (by simp) rfl h.noError rfl
    have hfdata : (readRegister .fdata (play (commandAccesses (.ftRead sym)) s)).regRdata = 0 := by
      rw [hw.regRdata_readRegister, hplay]
      exact h.zero sym
    rw [readTable]
    exact (if_pos hfdata).trans (ih (hw.after_read .fdata))

/-- Settles O60: no symbol is counted and no bit is written, so that every field read back is 0. -/
theorem encodeOfEmptyInput : Obligations.EncodeOfEmptyInput := by
  intro magic checksum s hp hrst hidle
  have hdone := (emptyInput_of_load hp hrst hidle).after_encode
  rw [loadOfEmpty] at hdone
  have ha := hdone.after_read .nsym
  have hb := ha.after_read .bwBits
  have hc := hb.after_read .outLen
  have hnsym := (hdone.regRdata_readRegister .nsym).trans hdone.nsym
  have hbits := (ha.regRdata_readRegister .bwBits).trans ha.bwBits
  have hlen := (hb.regRdata_readRegister .outLen).trans hb.outLen
  have htable := hc.readTable_eq_nil allSyms
  simp only [hostEncode, hdone.noError, hnsym, hbits, hlen, htable]
  simp [readOutput]

end Sys2Proof.Laws
end

section
/-! SUPPORT. Which codes each operation can raise (60 R181), said once for each: a predicate on results, its rules for
sequencing and loops, and the operations in the order in which they call each other. -/

namespace Sys2Proof.Laws

open Sys2Proof.Machine

/-- The result is a value, or an error whose code is among `cs`. -/
def RaisesOnly {α : Type} (cs : List ErrCode) (x : Except Raise α) : Prop := ∀ r, x = .error r → r.code ∈ cs

namespace RaisesOnly

variable {α β : Type} {cs ds : List ErrCode}

theorem ok (a : α) : RaisesOnly cs (.ok a) := fun _ h => nomatch h

theorem error {r : Raise} (h : r.code ∈ cs) : RaisesOnly cs (.error r : Except Raise α) := fun _ hr =>
  Except.error.inj hr ▸ h

theorem mono {x : Except Raise α} (h : RaisesOnly cs x) (hsub : cs ⊆ ds) : RaisesOnly ds x := fun r hr =>
  hsub (h r hr)

/-- An operation passes on the error of the operation it calls. -/
theorem passed {x : Except Raise α} {r : Raise} (h : RaisesOnly cs x) (hr : x = .error r) :
    RaisesOnly cs (.error r : Except Raise β) :=
  .error (h r hr)

theorem ite {c : Prop} [Decidable c] {x y : Except Raise α} (hx : c → RaisesOnly cs x) (hy : ¬ c → RaisesOnly cs y) :
    RaisesOnly cs (if c then x else y) := by
  split_ifs with h
  · exact hx h
  · exact hy h

theorem requires {flag : Bool} {body : State → Except Raise State} {s : State} (hseq : .seq ∈ cs)
    (h : RaisesOnly cs (body s)) : RaisesOnly cs (requires flag body s) :=
  .ite (fun _ => h) (fun _ => .error hseq)

theorem forUp {σ : Type} {body : Nat → σ → Except Raise σ} (h : ∀ i s, RaisesOnly cs (body i s)) (count first : Nat)
    (s : σ) : RaisesOnly cs (forUp body count first s) := fun r hr => by
  obtain ⟨i, u, -, -, -, hb⟩ := forUp_error (fun _ => True) (fun _ _ _ _ _ => trivial) count first s r trivial hr
  exact h i u r hb

end RaisesOnly

/-! ## Checked accesses -/

theorem ibufGet_raises (i : Word) (s : State) : RaisesOnly [.ibufRange] (ibufGet i s) :=
  .ite (fun _ => .error (by simp)) (fun _ => .ok _)

theorem obufPut_raises (i : Word) (v : Byte) (s : State) : RaisesOnly [.obufFull] (obufPut i v s) :=
  .ite (fun _ => .error (by simp)) (fun _ => .ok _)

/-! ## The frequency table -/

theorem ftAcc_raises (sym : Byte) (s : State) : RaisesOnly [.cntOvf] (ftAcc sym s) :=
  .ite (fun _ => .error (by simp)) (fun _ => .ok _)

theorem ftAccByte_raises (i : Nat) (s : State) : RaisesOnly [.ibufRange, .cntOvf] (ftAccByte i s) := by
  unfold ftAccByte
  cases hget : ibufGet (BitVec.ofNat 64 i) s with
  | error r => exact ((ibufGet_raises _ s).passed hget).mono (by simp)
  | ok v => exact (ftAcc_raises v s).mono (by simp)

theorem ftAccbuf_raises (s : State) : RaisesOnly [.ibufRange, .cntOvf] (ftAccbuf s) :=
  .ite (fun _ => .error (by simp)) (fun _ => .forUp ftAccByte_raises _ _ _)

/-! ## The tree builder -/

theorem mergeOnce_raises (b : Build) : RaisesOnly [.freqOvf] (mergeOnce b) := by
  unfold mergeOnce
  split
  · exact .ok b
  · split
    · exact .ok b
    · exact .ite (fun _ => .error (by simp)) (fun _ => .ok _)

theorem mergeAll_raises (fuel : Nat) (b : Build) : RaisesOnly [.freqOvf] (mergeAll fuel b) := by
  induction fuel generalizing b with
  | zero => exact .ok b
  | succ fuel ih =>
    refine .ite (fun _ => ?_) (fun _ => .ok b)
    cases hmerge : mergeOnce b with
    | error r => exact (mergeOnce_raises b).passed hmerge
    | ok c => exact ih c

theorem buildTree_raises (ph : Byte) (f : Table Word) : RaisesOnly [.freqOvf] (buildTree ph f) := by
  unfold buildTree
  dsimp only
  split
  · exact .ok _
  · exact .ok _
  · cases hmerges : mergeAll (enumerateLeaves f).heap.length (enumerateLeaves f) with
    | error r => exact (mergeAll_raises _ _).passed hmerges
    | ok c => exact .ok (popRoot c)

theorem tbBuild_raises (s : State) : RaisesOnly [.freqOvf] (tbBuild s) := by
  unfold tbBuild
  cases hbuild : buildTree s.params.phSym s.freq with
  | error r => exact (buildTree_raises _ _).passed hbuild
  | ok t => exact .ok (s.withTree t)

theorem readNode_raises (idx : NodeIdx) (s : State) : RaisesOnly [.nodeRange] (readNode idx s) :=
  .ite (fun _ => .error (by simp)) (fun _ => .ok _)

/-! ## The writer and the encode loop -/

theorem bwPut_raises (b : Bool) (s : State) : RaisesOnly [.seq, .obufFull] (bwPut b s) := fun r h => by
  rcases bwPut_error h with ⟨-, rfl⟩ | ⟨-, -, rfl⟩
  · simp
  · simp

theorem bwPutAll_raises (bits : Bits) (s : State) : RaisesOnly [.seq, .obufFull] (bwPutAll bits s) := by
  induction bits generalizing s with
  | nil => exact .ok s
  | cons b rest ih =>
    unfold bwPutAll
    cases hput : bwPut b s with
    | error r => exact (bwPut_raises b s).passed hput
    | ok t => exact ih t

theorem storePartial_raises (s : State) : RaisesOnly [.obufFull] (storePartial s) :=
  .ite (fun _ => .ok s) (fun _ => obufPut_raises _ _ s)

/-- Beyond `E_SEQ` the flush raises what the store of the partial byte raises. -/
theorem bwFlush_raises {cs : List ErrCode} {s : State} (h : RaisesOnly cs (storePartial s)) :
    RaisesOnly (.seq :: cs) (bwFlush s) := by
  refine .ite (fun _ => .error (by simp)) (fun _ => ?_)
  cases hstore : storePartial s with
  | error r => exact (h.passed hstore).mono (List.subset_cons_self _ _)
  | ok t => exact .ok _

theorem encByte_raises (i : Nat) (s : State) : RaisesOnly [.seq, .ibufRange, .obufFull] (encByte i s) := by
  unfold encByte
  cases hget : ibufGet (BitVec.ofNat 64 i) s with
  | error r => exact ((ibufGet_raises _ s).passed hget).mono (by simp)
  | ok v => exact (bwPutAll_raises (s.symBits v) s).mono (by simp)

theorem encRun_raises (s : State) : RaisesOnly [.seq, .ibufRange, .obufFull] (encRun s) := by
  refine .ite (fun _ => .error (by simp)) (fun _ => ?_)
  cases hloop : forUp encByte s.regs.inLen.toNat 0 (bwReset s) with
  | error r => exact (RaisesOnly.forUp encByte_raises _ _ _).passed hloop
  | ok t => exact (bwFlush_raises (storePartial_raises t)).mono (by simp)

/-! ## The reader and the decode loop -/

theorem brGet_raises (s : State) : RaisesOnly [.ibufRange, .brEnd] (brGet s) := fun r h => by
  rcases brGet_error h with ⟨-, rfl⟩ | ⟨-, rfl⟩
  · simp
  · simp

/-- With bits left `br_get` does not raise `E_BR_END`. -/
theorem brGet_raises_of_lt {s : State} (hlt : s.regs.brPos < s.regs.totalBits) :
    RaisesOnly [.ibufRange] (brGet s) := fun r h => by
  rcases brGet_error h with ⟨hend, -⟩ | ⟨-, rfl⟩
  · exact absurd hlt (BitVec.not_lt.2 hend)
  · simp

theorem readBit_raises (s : State) : RaisesOnly [.ibufRange, .brEnd] (readBit s) := by
  unfold readBit
  cases hget : brGet s with
  | error r => exact (brGet_raises s).passed hget
  | ok p => exact .ok _

/-- The loop reads a bit only where one is left, so it ends without `E_BR_END` (44 R140). -/
theorem decLoop_raises (fuel : Nat) (cur : NodeIdx) (produced : Word) (s : State) :
    RaisesOnly [.ibufRange, .obufFull] (decLoop fuel cur produced s) := by
  induction fuel generalizing cur produced s with
  | zero => exact .ok _
  | succ fuel ih =>
    refine .ite (fun hgo => ?_) (fun _ => .ok _)
    cases hget : brGet s with
    | error r => exact ((brGet_raises_of_lt hgo.2).passed hget).mono (by simp)
    | ok p =>
      obtain ⟨b, t⟩ := p
      refine .ite (fun _ => ?_) (fun _ => ih _ _ _)
      cases hput : obufPut produced (t.nodeAt ((t.nodeAt cur).child b)).sym t with
      | error r => exact ((obufPut_raises _ _ t).passed hput).mono (by simp)
      | ok u => exact ih _ _ u

theorem decRun_raises (s : State) : RaisesOnly [.ibufRange, .obufFull] (decRun s) := by
  refine .ite (fun _ => .error (by simp)) fun _ => .ite (fun _ => .error (by simp)) fun _ => ?_
  have hwalk : RaisesOnly [.ibufRange, .obufFull] (decWalk (decStart s)) :=
    .ite (fun _ => .ok _) (fun _ => decLoop_raises _ _ _ _)
  cases hend : decWalk (decStart s) with
  | error r => exact hwalk.passed hend
  | ok p => exact .ok _

/-! ## All commands -/

/-- While the writer is within `OBUF`, a command raises only codes of its row of R181. `BW_FLUSH` needs the premise: the
byte of bits beyond `OBUF` could not be stored (log 14). -/
theorem body_raises {s : State} (hs : s.WriterOk) (i : Instr) : RaisesOnly (raisable i) (body i s) := by
  cases i with
  | nop | sessionReset | ftClear | ftLoad | ftRead | bwReset | brReset => exact .ok _
  | ftAcc sym => exact ftAcc_raises sym _
  | ftAccbuf => exact ftAccbuf_raises s
  | tbBuild => exact tbBuild_raises s
  | ndRead idx => exact .requires (by simp [raisable]) ((readNode_raises idx s).mono (by simp [raisable]))
  | ctDerive => exact .requires (by simp [raisable]) (.ok _)
  | ctRead sym => exact .requires (by simp [raisable]) (.ok _)
  | bwPut bit => exact bwPut_raises bit s
  | bwPutsym sym => exact .requires (by simp [raisable]) (bwPutAll_raises _ s)
  | bwFlush => exact bwFlush_raises (storePartial_of_writerOk hs ▸ .ok _)
  | brGet => exact readBit_raises s
  | encRun => exact .requires (by simp [raisable]) (encRun_raises s)
  | decRun => exact .requires (by simp [raisable]) ((decRun_raises s).mono (by simp [raisable]))

end Sys2Proof.Laws
end

section
/-! PROOFS. Errors (60 R181 to R193): which command raises which, the illegal word, the full count, the interrupt output,
and the error state. -/

namespace Sys2Proof.Laws

open Sys2Proof.Machine

/-! ## What is raised -/

/-- Settles O51: a normal completion leaves `ERR` 0, and an error completion is that of what the body raised. -/
theorem errorsAreTheListedOnes : Obligations.ErrorsAreTheListedOnes := by
  intro i s t hinv hs h herr
  rw [exec_eq_finish] at h
  rcases finish_next h with ⟨u, hu, rfl⟩ | ⟨r, hr, rfl⟩
  · have hok : u.status.err = false := (body_effect hu).err hs
    exact absurd herr (by simp [hok])
  · exact ⟨r.code, body_raises (hinv.writer hs) i r hr, r.info, errorCompletion_failedWith r.code r.info s⟩

theorem perform_of_illegal {s : State} {e : DecodeError} (h : decode s.cmd = .error e) :
    perform s = .next (errorCompletion { code := .illegalCmd, info := s.cmd } s) := by
  simp only [perform, fetch, h, finish]

/-- Settles O9: the step is the complete event, and that is the error completion. -/
theorem illegalWordRaisesIllegalCmd : Obligations.IllegalWordRaisesIllegalCmd := by
  intro s e hrst hbusy hyields hdecode
  exact ⟨_, (step_of_sequencer hrst hbusy hyields).trans (perform_of_illegal hdecode),
    errorCompletion_failedWith .illegalCmd s.cmd s⟩

/-- Settles O21: the word decodes by its fields, and the count is full or has room for one more. -/
theorem ftAccCountsOneOrOverflows : Obligations.FtAccCountsOneOrOverflows := by
  refine ⟨fun sym => decode_symWord (i := .ftAcc sym) rfl, fun s sym => ⟨fun hroom => ?room, fun hfull => ?full⟩⟩
  case room =>
    have hne : s.freqOf sym ≠ BitVec.allOnes 64 := fun h => hroom.ne (eq_allOnes_iff.1 h)
    have hacc : ftAcc sym (tableChanged s) =
        .ok { tableChanged s with freq := Table.put s.freq sym (s.freqOf sym + 1) } := if_neg hne
    have hcount := toNat_freqOf_of_ftAcc hacc sym
    rw [List.count_singleton_self] at hcount
    exact ⟨_, exec_of_ok (i := .ftAcc sym) hacc, hcount, fun x hx => get_put_other s.freq _ hx, rfl⟩
  case full => exact exec_of_error (i := .ftAcc sym) (if_pos (eq_allOnes_iff.2 hfull))

/-! ## The interrupt output -/

theorem irq_iff (s : State) : s.irq = true ↔
    (s.status.done = true ∧ s.irqEn.getLsbD 0 = true) ∨ (s.status.err = true ∧ s.irqEn.getLsbD 1 = true) := by
  rw [State.irq, Bool.or_eq_true, Bool.and_eq_true, Bool.and_eq_true]

/-- Settles O17: the formula of R192, and no command writes `IRQ_EN`. -/
theorem irqIsTheMaskedLevel : Obligations.IrqIsTheMaskedLevel := by
  refine ⟨irq_iff, fun i s t hmask h => ?_⟩
  obtain ⟨-, hkept, -⟩ := noCommandTouchesIbufOrIrqEn i s t h
  simp [State.irq, hkept, hmask]

/-! ## The error state -/

/-- An idle core in error drops every write to `CMD` but that of the word of `SESSION_RESET` (45 R151), and no other
write sets `BUSY`. -/
theorem hostRegWrite_stays_idle {idx : BitVec 8} {v : Word} {s : State} (herr : s.status.err = true)
    (hbusy : s.status.busy = false) (hword : idx = RegName.cmd.index → v ≠ encode .sessionReset) :
    (hostRegWrite idx v s).status.busy = false := by
  cases hr : regAt idx with
  | none => simpa only [hostRegWrite, hr] using hbusy
  | some r =>
    obtain rfl := regAt_some hr
    cases r with
    | cmd =>
      have hdrop : ¬ s.accepts v = true := fun hacc =>
        ((accepts_iff s v).1 hacc).2.elim (ne_true_of_eq_false · herr) (hword rfl)
      rw [hostRegWrite, hr]
      dsimp only
      rw [issue_of_not_accepts hdrop]
      exact hbusy
    | inLen | origSize | totalBits | fdata => exact (congrArg Status.busy (writeData_status _ s)).trans hbusy
    | _ => exact hbusy

/-- An access that neither resets the core nor writes the word of `SESSION_RESET` leaves it idle and in error. -/
theorem hostAccess_stays_in_error {a : HostAccess} {s : State} (herr : s.status.err = true)
    (hbusy : s.status.busy = false) (hreset : a ≠ .rstN false)
    (hword : a ≠ .regWrite RegName.cmd.index (encode .sessionReset)) :
    (hostAccess a s).status.err = true ∧ (hostAccess a s).status.busy = false := by
  cases a with
  | regWrite idx v =>
    refine unlessReset_induct (P := fun t => t.status.err = true ∧ t.status.busy = false) ⟨herr, hbusy⟩
      ⟨(hostRegWrite_err idx v s).trans herr, hostRegWrite_stays_idle herr hbusy ?_⟩
    rintro rfl rfl
    exact hword rfl
  | regRead idx => simpa [hostAccess] using ⟨herr, hbusy⟩
  | bufWrite id x v =>
    exact unlessReset_induct (P := fun t => t.status.err = true ∧ t.status.busy = false) ⟨herr, hbusy⟩
      (by simpa using ⟨herr, hbusy⟩)
  | bufRead id x => simpa [hostAccess] using ⟨herr, hbusy⟩
  | wait => exact ⟨herr, hbusy⟩
  | rstN level =>
    cases level with
    | false => exact absurd rfl hreset
    | true => exact ⟨herr, hbusy⟩

/-- Where an access leaves the core idle and in error, the error record and the latched word are those before it: a reset
would have cleared `ERR`, an accepted word set `BUSY`. -/
theorem HostEffect.errorRecord {s t : State} (h : HostEffect s t) (herr : t.status.err = true)
    (hbusy : t.status.busy = false) : t.errcode = s.errcode ∧ t.errinfo = s.errinfo ∧ t.cmd = s.cmd := by
  cases h with
  | fall => exact absurd herr Bool.false_ne_true
  | accepted => exact absurd hbusy.symm Bool.false_ne_true
  | _ => exact ⟨rfl, rfl, rfl⟩

/-- Settles O55: with no command in progress the step is the host's, and its access leaves the core idle and in error. -/
theorem errorStateIsLeftOnlyByReset : Obligations.ErrorStateIsLeftOnlyByReset := by
  intro s t herr hbusy h hreset hword
  rcases step_cases h with ⟨-, hrun, -, -⟩ | ⟨-, rfl⟩
  · exact absurd hrun (ne_true_of_eq_false hbusy)
  · cases hhost : s.host with
    | nil =>
      have hstay : hostTurn s = s := by simp only [hostTurn, hhost]
      rw [hstay]
      exact ⟨herr, hbusy, rfl, rfl, rfl⟩
    | cons a rest =>
      have hr : a ≠ .rstN false := fun ha => hreset rest (ha ▸ hhost)
      have hw : a ≠ .regWrite RegName.cmd.index (encode .sessionReset) := fun ha => hword rest (ha ▸ hhost)
      rw [hostTurn_of_access hhost]
      obtain ⟨herr', hbusy'⟩ := hostAccess_stays_in_error (s := { s with host := rest }) herr hbusy hr hw
      exact ⟨herr', hbusy', (hostAccess_effect a _).errorRecord herr' hbusy'⟩

end Sys2Proof.Laws
end

section
/-! PROOFS. Hardware reset (70 R200, R201) and totality (70 R213): the reset state and its invariants, what `rst_n` does
to the core, and that every command and every step has a next state. -/

namespace Sys2Proof.Laws

open Sys2Proof.Machine

/-! ## The reset state -/

@[simp] theorem distinctCount_replicate_zero : distinctCount (Vector.replicate 256 0) = 0 :=
  List.countP_eq_zero.2 fun sym _ => by simp

theorem resetFor_regValue (p : Params) (r : RegName) :
    (State.resetFor p).regValue r = if r = .id then p.idValue else 0 := by
  cases r with
  | status => exact (by decide : Status.reset.bits.setWidth 64 = (0 : Word))
  | nsym => exact congrArg (BitVec.ofNat 64) distinctCount_replicate_zero
  | _ => rfl

/-- Settles O1: the registers one by one, and every entry of a table is the value it is filled with. -/
theorem resetClearsRegistersAndTables : Obligations.ResetClearsRegistersAndTables := by
  intro p
  have hfreq : ∀ sym, (State.resetFor p).freqOf sym = 0 := get_replicate 0
  have hcode : ∀ sym, (State.resetFor p).codeOf sym = [] := get_replicate []
  have hclen : ∀ sym, (State.resetFor p).clenOf sym = 0 := fun sym => by simp [State.clenOf, hcode]
  exact ⟨resetFor_regValue p, rfl, fun sym => ⟨hfreq sym, hcode sym, hclen sym⟩, rfl, rfl, rfl, rfl, rfl, rfl⟩

/-- Settles O2: no error is recorded, `rst_n` is high, and both flags are 0. -/
theorem resetMeetsTheInvariants : Obligations.ResetMeetsTheInvariants := fun _ hp =>
  ⟨(resetFor_normalOk hp).inv fun hlow => absurd hlow.symm Bool.false_ne_true, flagsOk_of_cleared rfl rfl⟩

/-! ## The step of a core held in reset -/

theorem step_of_not_sequencer {s : State} (h : s.sequencerMoves = false) : step s = .next (hostTurn s) :=
  if_neg (ne_true_of_eq_false h)

/-- While `rst_n` is low the sequencer does not move, busy or not. -/
theorem step_of_low {s : State} (hlow : s.rstN = false) : step s = .next (hostTurn s) :=
  step_of_not_sequencer (by simp [State.sequencerMoves, hlow])

/-- While `rst_n` is low a write or a wait leaves the core as it is. -/
theorem hostAccess_low {a : HostAccess} {s : State} (hlow : s.rstN = false)
    (ha : (∃ idx v, a = .regWrite idx v) ∨ (∃ id x v, a = .bufWrite id x v) ∨ a = .wait) : hostAccess a s = s := by
  obtain ⟨idx, v, rfl⟩ | ⟨id, x, v, rfl⟩ | rfl := ha
  · exact unlessReset_low _ hlow
  · exact unlessReset_low _ hlow
  · rfl

/-- Settles O3: a level of `rst_n` is the host's access whatever runs, and while it is low every step is the host's. -/
theorem hardResetReachesResetState : Obligations.HardResetReachesResetState := by
  refine fun s rest => ⟨fun hfall => step_of_access hfall (by simp),
    fun hlow => ⟨fun a hhost ha => ?access, fun hnil => ?idle⟩, fun hrise => step_of_access hrise (by simp)⟩
  case access =>
    rw [step_of_low hlow, hostTurn_of_access hhost]
    exact congrArg _ (hostAccess_low hlow ha)
  case idle =>
    rw [step_of_low hlow]
    simp only [hostTurn, hnil]

/-! ## Totality -/

theorem exec_total (i : Instr) (s : State) : ∃ t, exec i s = .next t := by
  rw [exec_eq_finish]
  exact finish_total s (body i s)

theorem perform_total (s : State) : ∃ t, perform s = .next t := by
  cases h : decode s.cmd with
  | ok i => exact (perform_of_decode h).symm ▸ exec_total i s
  | error e => exact ⟨_, perform_of_illegal h⟩

theorem step_total (s : State) : s.Safe := by
  cases h : s.sequencerMoves with
  | false => exact ⟨_, step_of_not_sequencer h⟩
  | true =>
    rw [State.Safe, step, if_pos h]
    exact perform_total s

/-- Settles O10: a step is the host's access or a completion, and every command completes, normally or in error. -/
theorem everyStateHasANextState : Obligations.EveryStateHasANextState := ⟨step_total, exec_total⟩

end Sys2Proof.Laws
end
